-- ==== Sys2Proof/Word.lean ====
section
/-! DEFINITION. The words of the codec: bytes, command words, the 256-bit value latches and 64-bit limbs
(spec 00_scope.md R1 and section 4, 10_state.md R13, R14, R19). -/

namespace Sys2Proof

/-- "a mutable, ordered sequence of 8-bit units": the byte width is fixed by the source (00_scope.md, section 3). -/
abbrev Byte := BitVec 8

/-- A command word, the CMD latch (10_state.md R14, 30_encoding.md R48). -/
abbrev CmdWord := BitVec 16

/-- The 256-bit VALUE and RESULT latches (10_state.md R13, R19). -/
abbrev Value := BitVec 256

/-- A 64-bit limb (10_state.md R13, 42_extended_composer.md R97). -/
abbrev Limb := BitVec 64

end Sys2Proof
end

