-- ==== Sys2Proof/Syntax.lean ====
section
/-! DEFINITION. The commands of the codec: one constructor of `Instr` per row of spec/opcode_table.json
(30_encoding.md R59). Each carries the optional explicit endianness of 30_encoding.md R51. -/

namespace Sys2Proof

/-- A byte order (10_state.md R12): `le` puts the least-significant byte at the lowest offset, `be` the
most-significant byte. -/
inductive Endian where
  | le
  | be
  deriving DecidableEq, Repr

/-- The width set W ∈ (16, 32, 64, 128, 256) (00_scope.md R1, 30_encoding.md R50). -/
inductive Width where
  | w16
  | w32
  | w64
  | w128
  | w256
  deriving DecidableEq, Repr

/-- The five operations (30_encoding.md R49). -/
inductive Op where
  | enc
  | enca
  | dec
  | expt
  | qend
  deriving DecidableEq, Repr

/-- The six fields of a command word (30_encoding.md R48), before any check. -/
structure Fields where
  op   : BitVec 4
  wid  : BitVec 3
  s    : Bool
  esel : Bool
  ele  : Bool
  rsv  : BitVec 6
  deriving DecidableEq, Repr

/-- The 35 commands (30_encoding.md R59). The argument is the explicit endianness: `none` when ESEL = 0, `some E`
when ESEL = 1 (30_encoding.md R58). -/
inductive Instr where
  /-- ENC.U16 (R73). -/
  | encU16 (explicit : Option Endian)
  /-- ENC.S16 (R74). -/
  | encS16 (explicit : Option Endian)
  /-- ENC.U32 (R75). -/
  | encU32 (explicit : Option Endian)
  /-- ENC.S32 (R76). -/
  | encS32 (explicit : Option Endian)
  /-- ENC.U64 (R77). -/
  | encU64 (explicit : Option Endian)
  /-- ENC.S64 (R78). -/
  | encS64 (explicit : Option Endian)
  /-- ENC.U128 (R104). -/
  | encU128 (explicit : Option Endian)
  /-- ENC.S128 (R105). -/
  | encS128 (explicit : Option Endian)
  /-- ENC.U256 (R106). -/
  | encU256 (explicit : Option Endian)
  /-- ENC.S256 (R107). -/
  | encS256 (explicit : Option Endian)
  /-- ENCA.U16 (R79). -/
  | encaU16 (explicit : Option Endian)
  /-- ENCA.S16 (R80). -/
  | encaS16 (explicit : Option Endian)
  /-- ENCA.U32 (R81). -/
  | encaU32 (explicit : Option Endian)
  /-- ENCA.S32 (R82). -/
  | encaS32 (explicit : Option Endian)
  /-- ENCA.U64 (R83). -/
  | encaU64 (explicit : Option Endian)
  /-- ENCA.S64 (R84). -/
  | encaS64 (explicit : Option Endian)
  /-- ENCA.U128 (R108). -/
  | encaU128 (explicit : Option Endian)
  /-- ENCA.S128 (R109). -/
  | encaS128 (explicit : Option Endian)
  /-- ENCA.U256 (R110). -/
  | encaU256 (explicit : Option Endian)
  /-- ENCA.S256 (R111). -/
  | encaS256 (explicit : Option Endian)
  /-- DEC.U16 (R85). -/
  | decU16 (explicit : Option Endian)
  /-- DEC.S16 (R86). -/
  | decS16 (explicit : Option Endian)
  /-- DEC.U32 (R87). -/
  | decU32 (explicit : Option Endian)
  /-- DEC.S32 (R88). -/
  | decS32 (explicit : Option Endian)
  /-- DEC.U64 (R89). -/
  | decU64 (explicit : Option Endian)
  /-- DEC.S64 (R90). -/
  | decS64 (explicit : Option Endian)
  /-- DEC.U128 (R112). -/
  | decU128 (explicit : Option Endian)
  /-- DEC.S128 (R113). -/
  | decS128 (explicit : Option Endian)
  /-- DEC.U256 (R114). -/
  | decU256 (explicit : Option Endian)
  /-- DEC.S256 (R115). -/
  | decS256 (explicit : Option Endian)
  /-- EXPT.U128 (R121). -/
  | exptU128 (explicit : Option Endian)
  /-- EXPT.S128 (R122). -/
  | exptS128 (explicit : Option Endian)
  /-- EXPT.U256 (R123). -/
  | exptU256 (explicit : Option Endian)
  /-- EXPT.S256 (R124). -/
  | exptS256 (explicit : Option Endian)
  /-- QEND (R128). -/
  | qend
  deriving DecidableEq, Repr

end Sys2Proof
end

