-- ==== Sys2Proof/WellFormed.lean ====
section
/-! DEFINITION. Which command words are legal, as the table of 30_encoding.md R55 lists them, over the six fields of
R48. The decoder (Decode.lean) is written from R58 and does not use this; that the two agree is a statement. -/

namespace Sys2Proof

/-- RSV must be 000000 (30_encoding.md R54). -/
def Fields.reservedBitsClear (f : Fields) : Bool :=
  f.rsv == 0

/-- ESEL, ELE must be 00, 10 or 11: ESEL = 0 with ELE = 1 is illegal (30_encoding.md R51). -/
def Fields.endianSelectOk (f : Fields) : Bool :=
  f.esel || !f.ele

/-- The OP is one of 0001 to 0101 (30_encoding.md R49). -/
def Fields.opOk (f : Fields) : Bool :=
  [(1 : BitVec 4), 2, 3, 4, 5].contains f.op

/-- The WID, S, ESEL and ELE columns of the table of 30_encoding.md R55, per OP. -/
def Fields.columnsOk (f : Fields) : Bool :=
  if f.op == 5 then f.wid == 0 && !f.s && !f.esel && !f.ele
  else if f.op == 4 then f.wid == 3 || f.wid == 4
  else f.wid.toNat ≤ 4

/-- A legal command word (30_encoding.md R55): any other raises IllegalCommand. -/
def Fields.legal (f : Fields) : Bool :=
  f.reservedBitsClear && f.endianSelectOk && f.opOk && f.columnsOk

end Sys2Proof
end

