-- ==== Sys2Proof/Decode.lean ====
section
/-! DEFINITION. The decoder of 30_encoding.md R58, total on all 2^16 words and rejecting by name, and the encoder
written from the same tables (R48 to R51, R59). -/

namespace Sys2Proof

/-- Why a command word is illegal. Each raises IllegalCommand (30_encoding.md R55, R136). -/
inductive DecodeError where
  /-- RSV is not 000000 (R54). -/
  | reservedBits
  /-- ESEL = 0 with ELE = 1 (R51). -/
  | endianWithoutSelect
  /-- OP is 0000 or 0110 to 1111 (R49). -/
  | reservedOp
  /-- WID is 101, 110 or 111 (R53). -/
  | reservedWidth
  /-- EXPT at 16, 32 or 64 bits (R55). -/
  | exportWidth
  /-- QEND with WID, S or ESEL set (R55). -/
  | queryFields
  deriving DecidableEq, Repr

/-- The fields of a word: OP[15:12], WID[11:9], S[8], ESEL[7], ELE[6], RSV[5:0] (30_encoding.md R48). -/
def Fields.ofWord (w : CmdWord) : Fields :=
  { op   := w.extractLsb' 12 4
    wid  := w.extractLsb' 9 3
    s    := w.getLsbD 8
    esel := w.getLsbD 7
    ele  := w.getLsbD 6
    rsv  := w.extractLsb' 0 6 }

/-- The word with these fields, `oooo www s e l 000000` most significant bit first (30_encoding.md R48). -/
def Fields.toWord (f : Fields) : CmdWord :=
  f.op ++ f.wid ++ BitVec.ofBool f.s ++ BitVec.ofBool f.esel ++ BitVec.ofBool f.ele ++ f.rsv

/-- OP codes (30_encoding.md R49). -/
def Op.ofCode (c : BitVec 4) : Option Op :=
  if c = 1 then some .enc
  else if c = 2 then some .enca
  else if c = 3 then some .dec
  else if c = 4 then some .expt
  else if c = 5 then some .qend
  else none

/-- OP codes (30_encoding.md R49). -/
def Op.code : Op → BitVec 4
  | .enc => 1
  | .enca => 2
  | .dec => 3
  | .expt => 4
  | .qend => 5

/-- WID codes (30_encoding.md R50). -/
def Width.ofCode (c : BitVec 3) : Option Width :=
  if c = 0 then some .w16
  else if c = 1 then some .w32
  else if c = 2 then some .w64
  else if c = 3 then some .w128
  else if c = 4 then some .w256
  else none

/-- WID codes (30_encoding.md R50). -/
def Width.code : Width → BitVec 3
  | .w16 => 0
  | .w32 => 1
  | .w64 => 2
  | .w128 => 3
  | .w256 => 4

/-- Endianness in bit form: 1 = LE, 0 = BE (10_state.md R12). -/
def Endian.ofBit (b : Bool) : Endian :=
  if b then .le else .be

/-- Endianness in bit form: 1 = LE, 0 = BE (10_state.md R12). -/
def Endian.bit : Endian → Bool
  | .le => true
  | .be => false

/-- The command that the tuple `(op, W, S, explicit?)` of 30_encoding.md R58 stands for in the map of R59; `none`
where no command has it (EXPT below 128 bits). -/
def Instr.make (op : Op) (w : Width) (signed : Bool) (e : Option Endian) : Option Instr :=
  match op, w, signed with
  | .enc, .w16, false => some (.encU16 e)
  | .enc, .w16, true => some (.encS16 e)
  | .enc, .w32, false => some (.encU32 e)
  | .enc, .w32, true => some (.encS32 e)
  | .enc, .w64, false => some (.encU64 e)
  | .enc, .w64, true => some (.encS64 e)
  | .enc, .w128, false => some (.encU128 e)
  | .enc, .w128, true => some (.encS128 e)
  | .enc, .w256, false => some (.encU256 e)
  | .enc, .w256, true => some (.encS256 e)
  | .enca, .w16, false => some (.encaU16 e)
  | .enca, .w16, true => some (.encaS16 e)
  | .enca, .w32, false => some (.encaU32 e)
  | .enca, .w32, true => some (.encaS32 e)
  | .enca, .w64, false => some (.encaU64 e)
  | .enca, .w64, true => some (.encaS64 e)
  | .enca, .w128, false => some (.encaU128 e)
  | .enca, .w128, true => some (.encaS128 e)
  | .enca, .w256, false => some (.encaU256 e)
  | .enca, .w256, true => some (.encaS256 e)
  | .dec, .w16, false => some (.decU16 e)
  | .dec, .w16, true => some (.decS16 e)
  | .dec, .w32, false => some (.decU32 e)
  | .dec, .w32, true => some (.decS32 e)
  | .dec, .w64, false => some (.decU64 e)
  | .dec, .w64, true => some (.decS64 e)
  | .dec, .w128, false => some (.decU128 e)
  | .dec, .w128, true => some (.decS128 e)
  | .dec, .w256, false => some (.decU256 e)
  | .dec, .w256, true => some (.decS256 e)
  | .expt, .w128, false => some (.exptU128 e)
  | .expt, .w128, true => some (.exptS128 e)
  | .expt, .w256, false => some (.exptU256 e)
  | .expt, .w256, true => some (.exptS256 e)
  | .expt, .w16, _ => none
  | .expt, .w32, _ => none
  | .expt, .w64, _ => none
  | .qend, _, _ => some .qend

/-- The operation, width, signedness and explicit endianness of a command (30_encoding.md R59). QEND has WID = 000,
S = 0 and no endianness (R55). -/
def Instr.parts : Instr → Op × Width × Bool × Option Endian
  | .encU16 e => (.enc, .w16, false, e)
  | .encS16 e => (.enc, .w16, true, e)
  | .encU32 e => (.enc, .w32, false, e)
  | .encS32 e => (.enc, .w32, true, e)
  | .encU64 e => (.enc, .w64, false, e)
  | .encS64 e => (.enc, .w64, true, e)
  | .encU128 e => (.enc, .w128, false, e)
  | .encS128 e => (.enc, .w128, true, e)
  | .encU256 e => (.enc, .w256, false, e)
  | .encS256 e => (.enc, .w256, true, e)
  | .encaU16 e => (.enca, .w16, false, e)
  | .encaS16 e => (.enca, .w16, true, e)
  | .encaU32 e => (.enca, .w32, false, e)
  | .encaS32 e => (.enca, .w32, true, e)
  | .encaU64 e => (.enca, .w64, false, e)
  | .encaS64 e => (.enca, .w64, true, e)
  | .encaU128 e => (.enca, .w128, false, e)
  | .encaS128 e => (.enca, .w128, true, e)
  | .encaU256 e => (.enca, .w256, false, e)
  | .encaS256 e => (.enca, .w256, true, e)
  | .decU16 e => (.dec, .w16, false, e)
  | .decS16 e => (.dec, .w16, true, e)
  | .decU32 e => (.dec, .w32, false, e)
  | .decS32 e => (.dec, .w32, true, e)
  | .decU64 e => (.dec, .w64, false, e)
  | .decS64 e => (.dec, .w64, true, e)
  | .decU128 e => (.dec, .w128, false, e)
  | .decS128 e => (.dec, .w128, true, e)
  | .decU256 e => (.dec, .w256, false, e)
  | .decS256 e => (.dec, .w256, true, e)
  | .exptU128 e => (.expt, .w128, false, e)
  | .exptS128 e => (.expt, .w128, true, e)
  | .exptU256 e => (.expt, .w256, false, e)
  | .exptS256 e => (.expt, .w256, true, e)
  | .qend => (.qend, .w16, false, none)

/-- The operation of a command. -/
def Instr.op (i : Instr) : Op := i.parts.1

/-- The width of a command. -/
def Instr.width (i : Instr) : Width := i.parts.2.1

/-- The signedness of a command (30_encoding.md R52). -/
def Instr.signed (i : Instr) : Bool := i.parts.2.2.1

/-- The explicit endianness of a command (30_encoding.md R51). -/
def Instr.explicit (i : Instr) : Option Endian := i.parts.2.2.2

/-- The explicit endianness a legal word gives: ESEL = 1 selects ELE, ESEL = 0 none (30_encoding.md R51). -/
def Fields.explicit (f : Fields) : Option Endian :=
  if f.esel then some (Endian.ofBit f.ele) else none

/-- 30_encoding.md R58: the checks in the order the rule makes them. -/
def decodeFields (f : Fields) : Except DecodeError Instr :=
  if f.rsv ≠ 0 then .error .reservedBits
  else if f.esel = false ∧ f.ele = true then .error .endianWithoutSelect
  else
    match Op.ofCode f.op with
    | none => .error .reservedOp
    | some .qend =>
      if f.wid ≠ 0 ∨ f.s = true ∨ f.esel = true then .error .queryFields else .ok .qend
    | some op =>
      match Width.ofCode f.wid with
      | none => .error .reservedWidth
      | some w =>
        match Instr.make op w f.s f.explicit with
        | none => .error .exportWidth
        | some i => .ok i

/-- The decoder (30_encoding.md R58), total on all 2^16 words. -/
def decode (w : CmdWord) : Except DecodeError Instr :=
  decodeFields (Fields.ofWord w)

/-- The fields of a command's word (30_encoding.md R48 to R52, R59). -/
def Instr.fields (i : Instr) : Fields :=
  { op   := i.op.code
    wid  := i.width.code
    s    := i.signed
    esel := i.explicit.isSome
    ele  := (i.explicit.map Endian.bit).getD false
    rsv  := 0 }

/-- The encoder: the one 16-bit word of a command (30_encoding.md R48, R59, R60). -/
def encode (i : Instr) : CmdWord :=
  i.fields.toWord

/-- A command is well formed when the word it stands for is legal by 30_encoding.md R55. -/
def Instr.wf (i : Instr) : Bool :=
  i.fields.legal

/-- A word as spec/opcode_table.json numbers its bits: the low `nbits` bits of `w`, the rest 0. -/
def tableWord (nbits w : Nat) : CmdWord :=
  BitVec.ofNat 16 (w % 2 ^ nbits)

/-- What the decoder reads from a word whose bits the opcode table numbers. Every command is exactly one 16-bit word
(30_encoding.md R60), so a row of more bits is none. -/
def decodeTableWord (nbits w : Nat) : Option Instr :=
  if nbits ≤ 16 then (decode (tableWord nbits w)).toOption else none

end Sys2Proof
end

