-- ==== Sys2Proof/Config.lean ====
section
/-! DEFINITION. The implementation parameters of 00_scope.md R3, and the free values the spec calls draws
(93_implementation_defined.md). A parameter the spec leaves OPEN is a constant with no body. -/

namespace Sys2Proof

/-- `HOST_DEFAULT_LE`: the value loaded into DEFAULT_LE at reset, true = little-endian (70_reset_and_hazards.md R149).
OPEN in the spec, so it has no body (log entry 3). -/
opaque Config.hostDefaultLE : Bool

/-- `ADDR_BITS`: the width of OFFSET and the bound on the buffer length (00_scope.md R3; 92_eei_decisions.md D7, D8). -/
abbrev Config.addrBits : Nat := 32

/-- `TRIM_ZERO_KEEP`: the length of the trimmed image of an all-zero value (00_scope.md R3; 92_eei_decisions.md D16). -/
def Config.trimZeroKeep : Nat := 1

/-- `LATENCY(W)`: OPEN, finite for every W, and no rule of the spec depends on it (70_reset_and_hazards.md R158).
No definition of the model reads it (log entry 13). -/
opaque Config.latency : Nat → Nat

/-- The free bytes the spec calls draws (93_implementation_defined.md I1, I5, I6), each numbered by the draw counter
of State. No body: nothing can prove a value of it (log entry 2). -/
opaque Config.freeByte : Nat → Byte

end Sys2Proof
end

