-- ==== Sys2Proof/Machine/State.lean ====
section
/-! DEFINITION. The state of the codec as plain data: DEFAULT_LE and `seq` (10_state.md R10, R21), the request and
response latches of 10_state.md R27, the caller buffers (20_memory.md R28), and the inputs not yet served. -/

namespace Sys2Proof.Machine

/-- The outcome kinds of a command (60_exceptions.md R131). The codes 5 to 7 name no kind. -/
inductive Status where
  /-- Code 0: the command completed. -/
  | ok
  /-- Code 1, raised by ENC and DEC when BUF is absent (R133). -/
  | invalidArgument
  /-- Code 2, raised by DEC when BUF_LEN > 0 and BUF_LEN ≤ OFFSET (R134). -/
  | invalidState
  /-- Code 3, raised by ENC when OFFSET + n > BUF_LEN (R135). -/
  | outOfRange
  /-- Code 4, raised by any illegal word (R136). -/
  | illegalCommand
  deriving DecidableEq, Repr

/-- The request latches (10_state.md R27): CMD (R14), VALUE (R13), OFFSET (R16) and the BUF operand (R15), which is
absent or names a caller buffer (log entry 6). -/
structure Request where
  cmd    : CmdWord
  value  : Value
  offset : BitVec Config.addrBits
  buf    : Option Nat
  deriving DecidableEq, Repr

/-- The response latches (10_state.md R27): STATUS (R17), RESULT (R19) and OUT (R18), the last two present only when
the command produces them. -/
structure Response where
  status : Status
  result : Option Value
  out    : Option (List Byte)
  deriving DecidableEq, Repr

/-- A present caller buffer (10_state.md R15): BUF_LEN, and its bytes that are not 00 as cells of rising index
(log entry 7). -/
structure Buffer where
  len   : Nat
  cells : List Host.Cell
  deriving DecidableEq, Repr

/-- The caller buffers the host has provided (20_memory.md R28, R39). A buffer's name is its position in the list
(log entry 6). -/
abbrev Memory := List Buffer

/-- The canonical form of a buffer: BUF_LEN < 2^ADDR_BITS (10_state.md R15), the cells at strictly rising indexes
inside the buffer, none equal to the 00 that an unlisted index reads as (log entry 7). -/
abbrev Buffer.wf (b : Buffer) : Prop :=
  b.len < 2 ^ Config.addrBits ∧ b.cells.Pairwise (fun x y => x.1 < y.1) ∧ ∀ c ∈ b.cells, c.1 < b.len ∧ c.2 ≠ 0

/-- Every caller buffer is in canonical form. -/
abbrev Memory.wf (m : Memory) : Prop :=
  ∀ b ∈ m, b.wf

/-- A range of indexes of one caller buffer (20_memory.md R29). -/
structure Span where
  buf   : Nat
  start : Nat
  len   : Nat
  deriving DecidableEq, Repr

/-- An access of another agent (another requester, another codec instance, the host) to a caller buffer
(20_memory.md R40, R42; 60_exceptions.md R146). -/
inductive AgentAccess where
  | reads  (buf : Nat) (index : Nat) (len : Nat)
  | writes (buf : Nat) (index : Nat) (bytes : List Byte)
  deriving DecidableEq, Repr

/-- What happens to the access of another agent. Two accesses overlap in time exactly when each begins before the other
has returned (20_memory.md R40, R42). Agents have no identifiers in the spec (60_exceptions.md R146); the numbers only
say which access an event is about (log entry 14). -/
inductive AgentEvent where
  /-- Agent `n` begins an access. -/
  | begins (n : Nat) (a : AgentAccess)
  /-- The oldest access agent `n` has in flight is complete: its response has been returned (20_memory.md R42). -/
  | returns (n : Nat)
  /-- The oldest access agent `n` has in flight is cut off by a reset of that agent and has no response
  (70_reset_and_hazards.md R152). -/
  | isCut (n : Nat)
  deriving DecidableEq, Repr

/-- An access of another agent that has begun and has not returned, with the ranges it shares with accesses and
commands it has overlapped so far, at least one of the two writing (20_memory.md R40). -/
structure InFlight where
  agent  : Nat
  access : AgentAccess
  raced  : List Span
  deriving DecidableEq, Repr

/-- What the outside world does to the codec, in the order it does it (log entry 5). -/
inductive HostInput where
  /-- The host issues a request (10_state.md R27). `during` is what happens to other agents' accesses while the command
  is in progress, in that order (20_memory.md R40, R42). -/
  | command (r : Request) (during : List AgentEvent)
  /-- Something happens to another agent's access between two commands of this instance (20_memory.md R40, R42). -/
  | agent (e : AgentEvent)
  /-- The host provides a present buffer with these bytes, under the next free name (70_reset_and_hazards.md R153). -/
  | provide (bytes : List Byte)
  /-- The host copies OUT into a new buffer of its own (70_reset_and_hazards.md R157). -/
  | keepOut
  /-- The host resets the whole block between two commands (70_reset_and_hazards.md R148). -/
  | reset
  /-- The host resets the block while this command is in progress, after `during` has happened to other agents' accesses
  (70_reset_and_hazards.md R152). -/
  | cutByReset (r : Request) (during : List AgentEvent)
  deriving DecidableEq, Repr

/-- Whether reset has loaded DEFAULT_LE (70_reset_and_hazards.md R151). -/
inductive Phase where
  /-- Reset is being applied: commands are held. -/
  | resetting
  /-- DEFAULT_LE is loaded: commands are accepted. -/
  | running
  deriving DecidableEq, Repr

/-- A latch, by name (10_state.md R22). -/
inductive Latch where
  | cmd
  | value
  | offset
  | buf
  | status
  | result
  | out
  deriving DecidableEq, Repr

/-- Why the model stops with a fault. -/
inductive Fault where
  /-- A latch is read before a command has written it (10_state.md R25: "reading one before a command has written it is
  a fault of the model, not a zero"; 93_implementation_defined.md I11). Raised by a meaning run in a state with no request
  latched, which `step` never does, and by the host's reads of STATUS, RESULT and OUT before any command. Safe. -/
  | latchHoldsNoValue (l : Latch)
  deriving DecidableEq, Repr

/-- Why the model refuses. -/
inductive Refusal where
  /-- The command has no meaning in the model. No arm answers so. Safe. -/
  | notModelled (mnemonic : String)
  /-- The host provides a buffer of 2^ADDR_BITS bytes or more, which no request can name (93_implementation_defined.md
  I13). Raised by `HostInput.provide` and `HostInput.keepOut`. Safe. -/
  | bufferTooLong (len : Nat)
  /-- Another agent's access names bytes of no caller buffer (20_memory.md R28). Raised by
  `AgentEvent.begins`. Safe. -/
  | outsideBuffers (a : AgentAccess)
  deriving DecidableEq, Repr

/-- The whole state. The scratch buffer (10_state.md R20) and the resolved endianness E (R24) exist only inside one
command, which is one atomic step, and so are no fields (log entry 8). -/
structure State where
  /-- Whether DEFAULT_LE has been loaded (70_reset_and_hazards.md R151). -/
  phase     : Phase
  /-- DEFAULT_LE, true = little-endian (10_state.md R10, R12). -/
  defaultLE : Bool
  /-- The command sequence index (10_state.md R21). -/
  seq       : Nat
  /-- CMD, VALUE, OFFSET and BUF of the command being executed or last executed; `none` when they hold no value
  (10_state.md R25, log entries 4 and 9). -/
  request   : Option Request
  /-- STATUS, RESULT and OUT of the last command; `none` when they hold no value (10_state.md R25, log entry 4). -/
  response  : Option Response
  /-- The caller buffers (20_memory.md R28). -/
  mem       : Memory
  /-- The accesses of other agents that have begun and have not returned, oldest first (20_memory.md R40, R42; log entry
  10). -/
  inFlight  : List InFlight
  /-- The inputs of the outside world not yet served, oldest first (20_memory.md R41, log entry 5). -/
  pending   : List HostInput
  /-- The draw counter: the model's own field, the number of the next free byte (log entry 2). -/
  draws     : Nat
  deriving DecidableEq, Repr

/-- The machine right after a reset that loaded `hostLE` into DEFAULT_LE (70_reset_and_hazards.md R149, R150;
10_state.md R25). -/
def State.resetWith (hostLE : Bool) : State :=
  { phase     := .running
    defaultLE := hostLE
    seq       := 0
    request   := none
    response  := none
    mem       := []
    inFlight  := []
    pending   := []
    draws     := 0 }

/-- The machine right after reset: DEFAULT_LE holds HOST_DEFAULT_LE (70_reset_and_hazards.md R149). -/
def State.reset : State :=
  State.resetWith Config.hostDefaultLE

end Sys2Proof.Machine
end

