-- ==== Sys2Proof/Machine/Ops.lean ====
section
/-! DEFINITION. The shared operations: reading and writing caller buffers (MemRead and MemWrite of 00_scope.md,
section 4), the free bytes the spec calls draws, and the two ways a command answers, `respond` and `raise`
(60_exceptions.md R130). -/

namespace Sys2Proof.Machine

/-- The three outcomes of a step of this machine. -/
abbrev Outcome := Host.Outcome State Fault Refusal

/-- Go on from a next state; a stop stays a stop. -/
def andThen (o : Outcome) (f : State → Outcome) : Outcome :=
  match o with
  | .next t => f t
  | .fault e => .fault e
  | .refused x => .refused x

/-! ### The bytes of a buffer -/

/-- The byte at an index: the first cell listed there, 00 where none is (log entry 7). -/
def cellAt : List Host.Cell → Nat → Byte
  | [], _ => 0
  | c :: cs, i => if c.1 = i then c.2 else cellAt cs i

/-- The cells without any at index `i`. -/
def dropCell (cs : List Host.Cell) (i : Nat) : List Host.Cell :=
  cs.filter (fun c => c.1 != i)

/-- Put a cell in front of the first cell of a higher index. -/
def insertCell : List Host.Cell → Nat → Byte → List Host.Cell
  | [], i, x => [(i, x)]
  | c :: cs, i, x => if i < c.1 then (i, x) :: c :: cs else c :: insertCell cs i x

/-- Set the byte at an index, keeping the canonical form: writing 00 removes the cell. -/
def putCell (cs : List Host.Cell) (i : Nat) (x : Byte) : List Host.Cell :=
  if x = 0 then dropCell cs i else insertCell (dropCell cs i) i x

/-- The byte `buf[i]`. Every rule that reads checks `i < BUF_LEN` first. -/
def Buffer.read (b : Buffer) (i : Nat) : Byte :=
  cellAt b.cells i

/-- Set `buf[i]`. An index at or past BUF_LEN is no byte of the buffer, so nothing changes there. -/
def Buffer.write (b : Buffer) (i : Nat) (x : Byte) : Buffer :=
  if i < b.len then { b with cells := putCell b.cells i x } else b

/-- `MemRead(buf, a, n)`: the byte list `buf[a .. a+n)` (00_scope.md, section 4). -/
def Buffer.readBytes (b : Buffer) (a n : Nat) : List Byte :=
  (List.range n).map (fun i => b.read (a + i))

/-- `MemWrite(buf, a, n, xs)` with `n = len(xs)`: sets `buf[a+i] <- xs[i]` and changes no other byte (00_scope.md,
section 4). -/
def Buffer.writeBytes (b : Buffer) (a : Nat) : List Byte → Buffer
  | [] => b
  | x :: xs => (b.write a x).writeBytes (a + 1) xs

/-- The present buffer with these bytes (10_state.md R15). -/
def Buffer.ofBytes (xs : List Byte) : Buffer :=
  Buffer.writeBytes { len := xs.length, cells := [] } 0 xs

/-- The bytes of a buffer, `buf[0 .. BUF_LEN)`. -/
def Buffer.toBytes (b : Buffer) : List Byte :=
  b.readBytes 0 b.len

/-- Write several pieces, each at its place in the span that starts at `base` (42_extended_composer.md R103). -/
def Buffer.writePieces (b : Buffer) (base : Nat) (pieces : List (Nat × List Byte)) : Buffer :=
  pieces.foldl (fun b p => b.writeBytes (base + p.1) p.2) b

/-! ### The caller buffers -/

/-- The caller buffer a BUF operand names: absent when the operand is absent or no buffer has that name
(10_state.md R15, log entry 6). -/
def Memory.caller (m : Memory) (buf : Option Nat) : Option (Nat × Buffer) :=
  match buf with
  | none => none
  | some k =>
    match m[k]? with
    | none => none
    | some b => some (k, b)

/-- The state with caller buffer `k` replaced (the `BUF'` of 10_state.md R27). -/
def State.setBuffer (s : State) (k : Nat) (b : Buffer) : State :=
  { s with mem := s.mem.set k b }

/-! ### Draws -/

/-- The free bytes numbered from `k` on (93_implementation_defined.md, log entry 2). -/
def drawBytes (k n : Nat) : List Byte :=
  (List.range n).map (fun i => Config.freeByte (k + i))

/-- Every byte of the range that the buffer has becomes a draw; nothing else of memory changes. -/
def State.drawSpan (s : State) (p : Span) : State :=
  match s.mem[p.buf]? with
  | none => s
  | some b =>
    let n := min (p.start + p.len) b.len - p.start
    { s with mem := s.mem.set p.buf (b.writeBytes p.start (drawBytes s.draws n)), draws := s.draws + n }

/-- Draw several ranges, one after the other. -/
def State.drawSpans (s : State) (ps : List Span) : State :=
  ps.foldl State.drawSpan s

/-! ### How a command answers -/

/-- A command that completes: STATUS OK with the RESULT and OUT it produces, and `seq` goes up by one
(10_state.md R17 to R21, 70_reset_and_hazards.md R157). -/
def State.respond (s : State) (result : Option Value) (out : Option (List Byte)) : State :=
  { s with response := some { status := .ok, result := result, out := out }, seq := s.seq + 1 }

/-- `raise <Status>`, the codec's one form of taking an exception (60_exceptions.md R130, R137, R140): the response
carries the status alone, no RESULT and no OUT; no control is transferred, nothing else is saved or changed; `seq` goes
up by one (10_state.md R21) and the next command runs (R141: there is no return from it). -/
def State.raise (s : State) (e : Status) : State :=
  { s with response := some { status := e, result := none, out := none }, seq := s.seq + 1 }

/-- Accept a request: its operands stand in the request latches, and the response of the command before it is gone
(10_state.md R25, R27; 70_reset_and_hazards.md R157). -/
def State.latch (s : State) (r : Request) : State :=
  { s with request := some r, response := none }

/-- Run a meaning's body on the request latches. A latch that holds no value cannot be read: "reading one before a
command has written it is a fault of the model, not a zero" (10_state.md R25). `step` latches the request first, so no
command it serves ends so. -/
def State.withRequest (s : State) (l : Latch) (body : Request → Outcome) : Outcome :=
  match s.request with
  | none => .fault (.latchHoldsNoValue l)
  | some r => body r

end Sys2Proof.Machine
end

