-- ==== Sys2Proof/Machine/Operands.lean ====
section
/-! DEFINITION. What commands compute on their operands: the resolved endianness (43_endianness_resolver.md R126), the
byte-order primitives (40_width_codec.md R65, R66), length reconciliation (41_length_reconciliation.md R91), the limbs
and their placement (42_extended_composer.md R97 to R103), the trim (R119), and the integer readings of a pattern
(00_scope.md R4). -/

namespace Sys2Proof

/-- W (30_encoding.md R50). -/
def Width.bits : Width → Nat
  | .w16 => 16
  | .w32 => 32
  | .w64 => 64
  | .w128 => 128
  | .w256 => 256

/-- n = W/8, the byte length of a width-W image (30_encoding.md R50). -/
def Width.bytes : Width → Nat
  | .w16 => 2
  | .w32 => 4
  | .w64 => 8
  | .w128 => 16
  | .w256 => 32

/-- k = W/64, the limbs the extended-width composer works with (42_extended_composer.md R97); 0 for the widths the
width codec handles by itself (40_width_codec.md R63). -/
def Width.limbs : Width → Nat
  | .w16 => 0
  | .w32 => 0
  | .w64 => 0
  | .w128 => 2
  | .w256 => 4

namespace Machine

/-! ### The endianness resolver -/

/-- The resolved endianness E: the explicit endianness if the command gives one, else DEFAULT_LE
(43_endianness_resolver.md R126). -/
def State.resolve (s : State) (explicit : Option Endian) : Endian :=
  match explicit with
  | some e => e
  | none => Endian.ofBit s.defaultLE

/-! ### The byte-order primitives of the width codec -/

/-- `byte(v, k) = v[8k+7 : 8k]` (00_scope.md, section 4). -/
def byteAt (v : Value) (k : Nat) : Byte :=
  v.extractLsb' (8 * k) 8

/-- `pack_W(v, E)` for n = W/8 bytes: byte i is `byte(v, i)` under LE and `byte(v, n-1-i)` under BE
(40_width_codec.md R65). Only `v[8n-1:0]` is read (10_state.md R13). -/
def packBytes (n : Nat) (v : Value) (e : Endian) : List Byte :=
  (List.range n).map (fun i =>
    match e with
    | .le => byteAt v i
    | .be => byteAt v (n - 1 - i))

/-- The pattern whose bits 8i+7 to 8i are the i-th byte of the list, zero above (40_width_codec.md R66 with E = LE,
zero-extended to 256 bits as 10_state.md R19). -/
def fromLittle : List Byte → Value
  | [] => 0
  | x :: xs => (fromLittle xs <<< 8) ||| x.setWidth 256

/-- `zext_256(unpack_W(xs, E))` with W = 8·len(xs) (40_width_codec.md R66, 10_state.md R19). -/
def unpackBytes (xs : List Byte) (e : Endian) : Value :=
  match e with
  | .le => fromLittle xs
  | .be => fromLittle xs.reverse

/-! ### Byte lists -/

/-- `xs[at .. at+len(ys)) <- ys` (00_scope.md, section 4). -/
def placeAt (xs : List Byte) (at_ : Nat) (ys : List Byte) : List Byte :=
  xs.take at_ ++ ys ++ xs.drop (at_ + ys.length)

/-- `zeros(n)` (00_scope.md, section 4). -/
def zeros (n : Nat) : List Byte :=
  List.replicate n 0

/-! ### Length reconciliation -/

/-- `RECONCILE(av, m, E)`: the scratch buffer of m zero bytes with the available bytes copied to its start under LE and
to its end under BE (41_length_reconciliation.md R91, R93; 10_state.md R20). -/
def reconcile (av : List Byte) (m : Nat) (e : Endian) : List Byte :=
  match e with
  | .le => placeAt (zeros m) 0 av
  | .be => placeAt (zeros m) (m - av.length) av

/-! ### The extended-width composer -/

/-- Limb j of k, j = 0 the most significant (10_state.md R13, 42_extended_composer.md R97). -/
def limb (k j : Nat) (v : Value) : Limb :=
  v.extractLsb' (64 * (k - 1 - j)) 64

/-- `slot(j, k, E)`: the place of limb j of k in the span (42_extended_composer.md R100). -/
def slot (j k : Nat) (e : Endian) : Nat :=
  match e with
  | .be => 8 * j
  | .le => 8 * (k - 1 - j)

/-- `pack_64(limb, E)`: the 64-bit encode of the width codec that the composer uses for every limb
(42_extended_composer.md R97). -/
def packLimb (l : Limb) (e : Endian) : List Byte :=
  packBytes 8 (l.setWidth 256) e

/-- `unpack_64(bytes, E)` (42_extended_composer.md R97). -/
def unpackLimb (xs : List Byte) (e : Endian) : Limb :=
  (unpackBytes xs e).setWidth 64

/-- The pieces an encode writes, each with its place in the span: one for the width codec (40_width_codec.md R67), one
per limb, most significant first, for the composer (42_extended_composer.md R103). -/
def pieces (w : Width) (v : Value) (e : Endian) : List (Nat × List Byte) :=
  if w.limbs = 0 then [(0, packBytes w.bytes v e)]
  else (List.range w.limbs).map (fun j => (slot j w.limbs e, packLimb (limb w.limbs j v) e))

/-- The fresh image of a value: its pieces placed in `zeros(n)` (40_width_codec.md R68, 42_extended_composer.md
R103). -/
def image (w : Width) (v : Value) (e : Endian) : List Byte :=
  (pieces w v e).foldl (fun out p => placeAt out p.1 p.2) (zeros w.bytes)

/-- The value with these limbs, most significant first, zero above (10_state.md R13, 42_extended_composer.md R100). -/
def joinLimbs (ls : List Limb) : Value :=
  ls.foldl (fun v l => (v <<< 64) ||| l.setWidth 256) 0

/-- The W-bit pattern that n bytes spell, zero-extended to 256 bits: `unpack_W` for the width codec
(40_width_codec.md R66), the limbs read from their slots for the composer (42_extended_composer.md R103). -/
def readImage (w : Width) (xs : List Byte) (e : Endian) : Value :=
  if w.limbs = 0 then unpackBytes xs e
  else joinLimbs ((List.range w.limbs).map (fun j => unpackLimb ((xs.drop (slot j w.limbs e)).take 8) e))

/-! ### The trimmed export -/

/-- The trimming function of 42_extended_composer.md R119 with the parameter TRIM_ZERO_KEEP: it removes the longest
run of 00 bytes at the most-significant end, and keeps `zeroKeep` bytes of an all-zero image. -/
def trimWith (zeroKeep : Nat) (xs : List Byte) (e : Endian) : List Byte :=
  let ys := match e with
    | .be => xs
    | .le => xs.reverse
  let z := (ys.takeWhile (fun b => b == 0)).length
  let keep := if z = xs.length then zeroKeep else xs.length - z
  let rs := ys.drop (xs.length - keep)
  match e with
  | .be => rs
  | .le => rs.reverse

/-- This hardware's TRIM (42_extended_composer.md R119). -/
def trim (xs : List Byte) (e : Endian) : List Byte :=
  trimWith Config.trimZeroKeep xs e

/-! ### The integer readings of a pattern -/

/-- The unsigned reading `toNat(v[W-1:0])` (00_scope.md R4, 10_state.md R19). -/
def unsignedReading (w : Width) (v : Value) : Nat :=
  v.toNat % 2 ^ w.bits

/-- The signed reading `toNat(v[W-1:0]) - 2^W·v[W-1]` (00_scope.md R4, 10_state.md R19). -/
def signedReading (w : Width) (v : Value) : Int :=
  (unsignedReading w v : Int) - (if v.getLsbD (w.bits - 1) then 2 ^ w.bits else 0)

/-- The integer that a RESULT of command `i` stands for: S chooses the reading (30_encoding.md R52, 10_state.md
R19). -/
def resultReading (i : Instr) (v : Value) : Int :=
  if i.signed then signedReading i.width v else unsignedReading i.width v

end Machine

end Sys2Proof
end

