-- ==== Sys2Proof/Machine/Flags.lean ====
section
/-! DEFINITION. The codec has no flags (10_state.md R23): an outcome is reported only through STATUS. Here are its
codes (60_exceptions.md R131) and the host's reads of the response latches (10_state.md R25, R26). -/

namespace Sys2Proof.Machine

/-- The 3-bit STATUS field (10_state.md R17, 60_exceptions.md R131). -/
def Status.code : Status → BitVec 3
  | .ok => 0
  | .invalidArgument => 1
  | .invalidState => 2
  | .outOfRange => 3
  | .illegalCommand => 4

/-- The kind a STATUS code names; codes 5 to 7 name none (60_exceptions.md R131, 93_implementation_defined.md I10). -/
def Status.ofCode (c : BitVec 3) : Option Status :=
  if c = 0 then some .ok
  else if c = 1 then some .invalidArgument
  else if c = 2 then some .invalidState
  else if c = 3 then some .outOfRange
  else if c = 4 then some .illegalCommand
  else none

/-- The host reads a response latch. Before any command it holds no value: "reading one is a `fault` of the model, not a
zero" (10_state.md R25, R26; 93_implementation_defined.md I11). -/
def State.readResponse (s : State) (l : Latch) : Except Fault Response :=
  match s.response with
  | none => .error (.latchHoldsNoValue l)
  | some p => .ok p

/-- The host reads STATUS (10_state.md R26). -/
def State.readStatus (s : State) : Except Fault (BitVec 3) :=
  (s.readResponse .status).map (fun p => p.status.code)

/-- The host reads RESULT: absent (`none`) after a command that produces none (10_state.md R26;
70_reset_and_hazards.md R157). -/
def State.readResult (s : State) : Except Fault (Option Value) :=
  (s.readResponse .result).map (fun p => p.result)

/-- The host reads OUT: absent (`none`) after a command that produces none (10_state.md R26; 70_reset_and_hazards.md
R157). -/
def State.readOut (s : State) : Except Fault (Option (List Byte)) :=
  (s.readResponse .out).map (fun p => p.out)

/-- The host reads RESULT as the integer it stands for, by the signedness of the command that wrote it
(10_state.md R19). -/
def State.readInteger (s : State) (i : Instr) : Except Fault (Option Int) :=
  s.readResult.map (fun v => v.map (resultReading i))

end Sys2Proof.Machine
end

