-- ==== Sys2Proof/Machine/Codec.lean ====
section
/-! DEFINITION. The procedures the 35 commands share: ENC_W, ENCA_W, DEC_W, EXPT_W (40_width_codec.md R67, R68, R70;
42_extended_composer.md R102, R103, R120) and QEND (43_endianness_resolver.md R128). Each reads the request latches its
command reads (30_encoding.md R57) and answers a next state in every case the spec describes. -/

namespace Sys2Proof.Machine

/-- OutOfRange: every byte of the buffer at or above OFFSET is a draw afterwards, every other byte and BUF_LEN are
unchanged (40_width_codec.md R67, 60_exceptions.md R135, log entries 1 and 2). -/
def State.raiseOutOfRange (s : State) (k : Nat) (b : Buffer) (offset : Nat) : State :=
  (s.drawSpan { buf := k, start := offset, len := b.len - offset }).raise .outOfRange

/-- ENC_W: encode VALUE[W-1:0] into the caller buffer at OFFSET (40_width_codec.md R67 for W ≤ 64,
42_extended_composer.md R103 for W ≥ 128), with the checks of 60_exceptions.md R132 in order. -/
def encodeInPlace (w : Width) (explicit : Option Endian) (s : State) : Outcome :=
  s.withRequest .buf fun r =>
    match s.mem.caller r.buf with
    | none => .next (s.raise .invalidArgument)
    | some (k, b) =>
      if b.len < r.offset.toNat + w.bytes then
        .next (s.raiseOutOfRange k b r.offset.toNat)
      else
        .next ((s.setBuffer k (b.writePieces r.offset.toNat (pieces w r.value (s.resolve explicit)))).respond
          none none)

/-- ENCA_W: the image of VALUE[W-1:0] as OUT; OFFSET and BUF are not read (40_width_codec.md R68,
42_extended_composer.md R103). -/
def encodeFresh (w : Width) (explicit : Option Endian) (s : State) : Outcome :=
  s.withRequest .value fun r => .next (s.respond none (some (image w r.value (s.resolve explicit))))

/-- The n bytes a decode reads: those of the buffer at OFFSET, reconciled once at the full width when fewer than n are
there (40_width_codec.md R69 cases 4 and 5, R70; 42_extended_composer.md R102). -/
def decodeInput (w : Width) (e : Endian) (b : Buffer) (offset : Nat) : List Byte :=
  if w.bytes ≤ b.len - offset then b.readBytes offset w.bytes
  else reconcile (b.readBytes offset (b.len - offset)) w.bytes e

/-- DEC_W: the five cases of 40_width_codec.md R69, in their order (R70; 42_extended_composer.md R102, R103). -/
def decodeBuffer (w : Width) (explicit : Option Endian) (s : State) : Outcome :=
  s.withRequest .buf fun r =>
    match s.mem.caller r.buf with
    | none => .next (s.raise .invalidArgument)
    | some (_, b) =>
      if b.len = 0 then .next (s.respond (some 0) none)
      else if b.len ≤ r.offset.toNat then .next (s.raise .invalidState)
      else
        .next (s.respond
          (some (readImage w (decodeInput w (s.resolve explicit) b r.offset.toNat) (s.resolve explicit))) none)

/-- EXPT_W: the full image, trimmed with the same endianness, as OUT (42_extended_composer.md R117, R120). -/
def exportTrimmed (w : Width) (explicit : Option Endian) (s : State) : Outcome :=
  s.withRequest .value fun r => .next (s.respond none (some (trim (image w r.value (s.resolve explicit)) (s.resolve explicit))))

/-- QEND: RESULT <- zext_256(DEFAULT_LE); no operand is read (43_endianness_resolver.md R128). -/
def queryDefault (s : State) : Outcome :=
  .next (s.respond (some (BitVec.setWidth 256 (BitVec.ofBool s.defaultLE))) none)

end Sys2Proof.Machine
end

