-- ==== Sys2Proof/Machine/Dec.lean ====
section
/-! DEFINITION. The decodes: DEC at every width and signedness. S chooses only how the host reads the
pattern (30_encoding.md R52, 40_width_codec.md R64). -/

namespace Sys2Proof.Machine

/-- DEC.U16: decode an unsigned 16-bit value (40_width_codec.md R85). -/
def execDecU16 (explicit : Option Endian) (s : State) : Outcome :=
  decodeBuffer .w16 explicit s

/-- DEC.S16: decode a signed 16-bit value (40_width_codec.md R86). -/
def execDecS16 (explicit : Option Endian) (s : State) : Outcome :=
  decodeBuffer .w16 explicit s

/-- DEC.U32: decode an unsigned 32-bit value (40_width_codec.md R87). -/
def execDecU32 (explicit : Option Endian) (s : State) : Outcome :=
  decodeBuffer .w32 explicit s

/-- DEC.S32: decode a signed 32-bit value (40_width_codec.md R88). -/
def execDecS32 (explicit : Option Endian) (s : State) : Outcome :=
  decodeBuffer .w32 explicit s

/-- DEC.U64: decode an unsigned 64-bit value (40_width_codec.md R89). -/
def execDecU64 (explicit : Option Endian) (s : State) : Outcome :=
  decodeBuffer .w64 explicit s

/-- DEC.S64: decode a signed 64-bit value (40_width_codec.md R90). -/
def execDecS64 (explicit : Option Endian) (s : State) : Outcome :=
  decodeBuffer .w64 explicit s

/-- DEC.U128: decode an unsigned 128-bit value (42_extended_composer.md R112). -/
def execDecU128 (explicit : Option Endian) (s : State) : Outcome :=
  decodeBuffer .w128 explicit s

/-- DEC.S128: decode a signed 128-bit value (42_extended_composer.md R113). -/
def execDecS128 (explicit : Option Endian) (s : State) : Outcome :=
  decodeBuffer .w128 explicit s

/-- DEC.U256: decode an unsigned 256-bit value (42_extended_composer.md R114). -/
def execDecU256 (explicit : Option Endian) (s : State) : Outcome :=
  decodeBuffer .w256 explicit s

/-- DEC.S256: decode a signed 256-bit value (42_extended_composer.md R115). -/
def execDecS256 (explicit : Option Endian) (s : State) : Outcome :=
  decodeBuffer .w256 explicit s

end Sys2Proof.Machine
end

