-- ==== Sys2Proof/Machine/Enc.lean ====
section
/-! DEFINITION. The in-place encodes: ENC at every width and signedness. S chooses only how the host reads the
pattern (30_encoding.md R52, 40_width_codec.md R64). -/

namespace Sys2Proof.Machine

/-- ENC.U16: encode an unsigned 16-bit value into the caller buffer (40_width_codec.md R73). -/
def execEncU16 (explicit : Option Endian) (s : State) : Outcome :=
  encodeInPlace .w16 explicit s

/-- ENC.S16: encode a signed 16-bit value into the caller buffer (40_width_codec.md R74). -/
def execEncS16 (explicit : Option Endian) (s : State) : Outcome :=
  encodeInPlace .w16 explicit s

/-- ENC.U32: encode an unsigned 32-bit value into the caller buffer (40_width_codec.md R75). -/
def execEncU32 (explicit : Option Endian) (s : State) : Outcome :=
  encodeInPlace .w32 explicit s

/-- ENC.S32: encode a signed 32-bit value into the caller buffer (40_width_codec.md R76). -/
def execEncS32 (explicit : Option Endian) (s : State) : Outcome :=
  encodeInPlace .w32 explicit s

/-- ENC.U64: encode an unsigned 64-bit value into the caller buffer (40_width_codec.md R77). -/
def execEncU64 (explicit : Option Endian) (s : State) : Outcome :=
  encodeInPlace .w64 explicit s

/-- ENC.S64: encode a signed 64-bit value into the caller buffer (40_width_codec.md R78). -/
def execEncS64 (explicit : Option Endian) (s : State) : Outcome :=
  encodeInPlace .w64 explicit s

/-- ENC.U128: encode an unsigned 128-bit value into the caller buffer (42_extended_composer.md R104). -/
def execEncU128 (explicit : Option Endian) (s : State) : Outcome :=
  encodeInPlace .w128 explicit s

/-- ENC.S128: encode a signed 128-bit value into the caller buffer (42_extended_composer.md R105). -/
def execEncS128 (explicit : Option Endian) (s : State) : Outcome :=
  encodeInPlace .w128 explicit s

/-- ENC.U256: encode an unsigned 256-bit value into the caller buffer (42_extended_composer.md R106). -/
def execEncU256 (explicit : Option Endian) (s : State) : Outcome :=
  encodeInPlace .w256 explicit s

/-- ENC.S256: encode a signed 256-bit value into the caller buffer (42_extended_composer.md R107). -/
def execEncS256 (explicit : Option Endian) (s : State) : Outcome :=
  encodeInPlace .w256 explicit s

end Sys2Proof.Machine
end

