-- ==== Sys2Proof/Machine/Enca.lean ====
section
/-! DEFINITION. The fresh-buffer encodes: ENCA at every width and signedness. S chooses only how the host reads the
pattern (30_encoding.md R52, 40_width_codec.md R64). -/

namespace Sys2Proof.Machine

/-- ENCA.U16: encode an unsigned 16-bit value into a fresh 2-byte buffer (40_width_codec.md R79). -/
def execEncaU16 (explicit : Option Endian) (s : State) : Outcome :=
  encodeFresh .w16 explicit s

/-- ENCA.S16: encode a signed 16-bit value into a fresh 2-byte buffer (40_width_codec.md R80). -/
def execEncaS16 (explicit : Option Endian) (s : State) : Outcome :=
  encodeFresh .w16 explicit s

/-- ENCA.U32: encode an unsigned 32-bit value into a fresh 4-byte buffer (40_width_codec.md R81). -/
def execEncaU32 (explicit : Option Endian) (s : State) : Outcome :=
  encodeFresh .w32 explicit s

/-- ENCA.S32: encode a signed 32-bit value into a fresh 4-byte buffer (40_width_codec.md R82). -/
def execEncaS32 (explicit : Option Endian) (s : State) : Outcome :=
  encodeFresh .w32 explicit s

/-- ENCA.U64: encode an unsigned 64-bit value into a fresh 8-byte buffer (40_width_codec.md R83). -/
def execEncaU64 (explicit : Option Endian) (s : State) : Outcome :=
  encodeFresh .w64 explicit s

/-- ENCA.S64: encode a signed 64-bit value into a fresh 8-byte buffer (40_width_codec.md R84). -/
def execEncaS64 (explicit : Option Endian) (s : State) : Outcome :=
  encodeFresh .w64 explicit s

/-- ENCA.U128: encode an unsigned 128-bit value into a fresh 16-byte buffer (42_extended_composer.md R108). -/
def execEncaU128 (explicit : Option Endian) (s : State) : Outcome :=
  encodeFresh .w128 explicit s

/-- ENCA.S128: encode a signed 128-bit value into a fresh 16-byte buffer (42_extended_composer.md R109). -/
def execEncaS128 (explicit : Option Endian) (s : State) : Outcome :=
  encodeFresh .w128 explicit s

/-- ENCA.U256: encode an unsigned 256-bit value into a fresh 32-byte buffer (42_extended_composer.md R110). -/
def execEncaU256 (explicit : Option Endian) (s : State) : Outcome :=
  encodeFresh .w256 explicit s

/-- ENCA.S256: encode a signed 256-bit value into a fresh 32-byte buffer (42_extended_composer.md R111). -/
def execEncaS256 (explicit : Option Endian) (s : State) : Outcome :=
  encodeFresh .w256 explicit s

end Sys2Proof.Machine
end

