-- ==== Sys2Proof/Machine/Expt.lean ====
section
/-! DEFINITION. The trimmed exports: EXPT at 128 and 256 bits. S chooses only how the host reads the
pattern (30_encoding.md R52, 40_width_codec.md R64). -/

namespace Sys2Proof.Machine

/-- EXPT.U128: trimmed export of an unsigned 128-bit value (42_extended_composer.md R121). -/
def execExptU128 (explicit : Option Endian) (s : State) : Outcome :=
  exportTrimmed .w128 explicit s

/-- EXPT.S128: trimmed export of a signed 128-bit value (42_extended_composer.md R122). -/
def execExptS128 (explicit : Option Endian) (s : State) : Outcome :=
  exportTrimmed .w128 explicit s

/-- EXPT.U256: trimmed export of an unsigned 256-bit value (42_extended_composer.md R123). -/
def execExptU256 (explicit : Option Endian) (s : State) : Outcome :=
  exportTrimmed .w256 explicit s

/-- EXPT.S256: trimmed export of a signed 256-bit value (42_extended_composer.md R124). -/
def execExptS256 (explicit : Option Endian) (s : State) : Outcome :=
  exportTrimmed .w256 explicit s

end Sys2Proof.Machine
end

