-- ==== Sys2Proof/Machine/Qend.lean ====
section
/-! DEFINITION. The query of the default endianness. -/

namespace Sys2Proof.Machine

/-- QEND: query the default endianness (43_endianness_resolver.md R128). -/
def execQend (s : State) : Outcome :=
  queryDefault s

end Sys2Proof.Machine
end

