-- ==== Sys2Proof/Machine/Dispatch.lean ====
section
/-! DEFINITION. The one dispatch of the commands to their meanings. -/

namespace Sys2Proof.Machine

def exec (i : Instr) (s : State) : Host.Outcome State Fault Refusal :=
  match i with
  -- ENC
  | .encU16 explicit => Sys2Proof.Machine.execEncU16 explicit s
  | .encS16 explicit => Sys2Proof.Machine.execEncS16 explicit s
  | .encU32 explicit => Sys2Proof.Machine.execEncU32 explicit s
  | .encS32 explicit => Sys2Proof.Machine.execEncS32 explicit s
  | .encU64 explicit => Sys2Proof.Machine.execEncU64 explicit s
  | .encS64 explicit => Sys2Proof.Machine.execEncS64 explicit s
  | .encU128 explicit => Sys2Proof.Machine.execEncU128 explicit s
  | .encS128 explicit => Sys2Proof.Machine.execEncS128 explicit s
  | .encU256 explicit => Sys2Proof.Machine.execEncU256 explicit s
  | .encS256 explicit => Sys2Proof.Machine.execEncS256 explicit s
  -- ENCA
  | .encaU16 explicit => Sys2Proof.Machine.execEncaU16 explicit s
  | .encaS16 explicit => Sys2Proof.Machine.execEncaS16 explicit s
  | .encaU32 explicit => Sys2Proof.Machine.execEncaU32 explicit s
  | .encaS32 explicit => Sys2Proof.Machine.execEncaS32 explicit s
  | .encaU64 explicit => Sys2Proof.Machine.execEncaU64 explicit s
  | .encaS64 explicit => Sys2Proof.Machine.execEncaS64 explicit s
  | .encaU128 explicit => Sys2Proof.Machine.execEncaU128 explicit s
  | .encaS128 explicit => Sys2Proof.Machine.execEncaS128 explicit s
  | .encaU256 explicit => Sys2Proof.Machine.execEncaU256 explicit s
  | .encaS256 explicit => Sys2Proof.Machine.execEncaS256 explicit s
  -- DEC
  | .decU16 explicit => Sys2Proof.Machine.execDecU16 explicit s
  | .decS16 explicit => Sys2Proof.Machine.execDecS16 explicit s
  | .decU32 explicit => Sys2Proof.Machine.execDecU32 explicit s
  | .decS32 explicit => Sys2Proof.Machine.execDecS32 explicit s
  | .decU64 explicit => Sys2Proof.Machine.execDecU64 explicit s
  | .decS64 explicit => Sys2Proof.Machine.execDecS64 explicit s
  | .decU128 explicit => Sys2Proof.Machine.execDecU128 explicit s
  | .decS128 explicit => Sys2Proof.Machine.execDecS128 explicit s
  | .decU256 explicit => Sys2Proof.Machine.execDecU256 explicit s
  | .decS256 explicit => Sys2Proof.Machine.execDecS256 explicit s
  -- EXPT
  | .exptU128 explicit => Sys2Proof.Machine.execExptU128 explicit s
  | .exptS128 explicit => Sys2Proof.Machine.execExptS128 explicit s
  | .exptU256 explicit => Sys2Proof.Machine.execExptU256 explicit s
  | .exptS256 explicit => Sys2Proof.Machine.execExptS256 explicit s
  -- QEND
  | .qend => Sys2Proof.Machine.execQend s

end Sys2Proof.Machine
end

