-- ==== Sys2Proof/Machine/HostPort.lean ====
section
/-! DEFINITION. What each input of the outside world does: a command, alone or overlapping other agents' accesses
(20_memory.md R40 to R42), the host's buffers, and reset (70_reset_and_hazards.md R148 to R153). -/

namespace Sys2Proof.Machine

/-! ### Running a command -/

/-- The command of a request: the legality of the word is checked before any operand is read (30_encoding.md R58,
60_exceptions.md R132, R136), then the command runs. -/
def runCommand (r : Request) (s : State) : Outcome :=
  match decode r.cmd with
  | .error _ => .next ((s.latch r).raise .illegalCommand)
  | .ok i => exec i (s.latch r)

/-! ### Races -/

/-- The bytes an access touches, and whether it writes them. -/
structure Claim where
  span   : Span
  writes : Bool
  deriving DecidableEq, Repr

/-- The indexes two ranges share. -/
def Span.overlap (p q : Span) : Option Span :=
  let lo := max p.start q.start
  let hi := min (p.start + p.len) (q.start + q.len)
  if p.buf = q.buf ∧ lo < hi then some { buf := p.buf, start := lo, len := hi - lo } else none

/-- The contested range of two accesses that overlap in time: the bytes both touch, at least one of the two writing
(20_memory.md R40). -/
def Claim.contested (p q : Claim) : List Span :=
  if p.writes || q.writes then (p.span.overlap q.span).toList else []

/-- What a command claims of its caller buffer: the part of the span of an ENC or DEC (20_memory.md R29) that the buffer
has (log entry 10). Other commands have no span (30_encoding.md R57). -/
def ownClaim (m : Memory) (r : Request) : Option Claim :=
  match decode r.cmd with
  | .error _ => none
  | .ok i =>
    if i.op = .enc ∨ i.op = .dec then
      match m.caller r.buf with
      | none => none
      | some (k, b) =>
        some {
          span := { buf := k, start := r.offset.toNat, len := min (r.offset.toNat + i.width.bytes) b.len - r.offset.toNat }
          writes := i.op == .enc }
    else none

/-! ### Other agents -/

/-- The bytes an agent's access touches. -/
def AgentAccess.span : AgentAccess → Span
  | .reads k i n => { buf := k, start := i, len := n }
  | .writes k i xs => { buf := k, start := i, len := xs.length }

/-- Whether an agent's access writes. -/
def AgentAccess.isWrite : AgentAccess → Bool
  | .reads _ _ _ => false
  | .writes _ _ _ => true

/-- What an agent's access claims. -/
def AgentAccess.claim (a : AgentAccess) : Claim :=
  { span := a.span, writes := a.isWrite }

/-- The bytes of an agent's access exist (20_memory.md R28). -/
def AgentAccess.exists (a : AgentAccess) (m : Memory) : Bool :=
  match m[a.span.buf]? with
  | none => false
  | some b => a.span.start + a.span.len ≤ b.len

/-- The accesses in flight, after something with these claims has overlapped them in time. -/
def State.meet (s : State) (ps : List Claim) : State :=
  { s with inFlight := s.inFlight.map (fun e => { e with raced := e.raced ++ ps.flatMap (e.access.claim.contested) }) }

/-- The contested ranges of a claim and the accesses in flight. -/
def State.races (s : State) (p : Claim) : List Span :=
  s.inFlight.flatMap (fun e => p.contested e.access.claim)

/-- Another agent's access begins. It overlaps every access in flight, and the command in progress if there is one
(20_memory.md R40).

DESIGN CHOICE (log entry 10): the bytes it writes reach the buffer when it returns. Until then the buffer holds the bytes
from before, and whatever touches them in that time contests them and gets draws. -/
def State.beginAccess (s : State) (own : List Claim) (n : Nat) (a : AgentAccess) : State :=
  let entry : InFlight :=
    { agent := n, access := a, raced := own.flatMap (a.claim.contested) ++ s.races a.claim }
  { s with inFlight := (s.meet [a.claim]).inFlight ++ [entry] }

/-- An access of another agent is complete: its bytes are in the buffer, so that everything that begins later sees them
(20_memory.md R42), but for those it shares with what it overlapped, which are draws (R40, 93_implementation_defined.md
I5). -/
def State.landAccess (s : State) (e : InFlight) : State :=
  match e.access with
  | .reads _ _ _ => s
  | .writes k i xs =>
    match s.mem[k]? with
    | none => s
    | some b => (s.setBuffer k (b.writeBytes i xs)).drawSpans e.raced

/-- The oldest access an agent has in flight. -/
def State.oldestOf (s : State) (n : Nat) : Option InFlight :=
  s.inFlight.find? (fun e => e.agent == n)

/-- The oldest access an agent has in flight is in flight no longer. -/
def State.dropOldestOf (s : State) (n : Nat) : State :=
  { s with inFlight := s.inFlight.eraseP (fun e => e.agent == n) }

/-- What happens to another agent's access, with the claims of the command in progress. An event about an access that is
not in flight is about nothing and changes nothing (log entry 14). An access that a reset cuts off leaves a draw in
every byte of its span (70_reset_and_hazards.md R152).

DESIGN CHOICE (log entry 11): these draws are made at the cut. Where the access cut off is a read and a DEC of this
instance is in progress on bytes of its span, the two reads do not race (20_memory.md R40) and the spec does not say
whether the DEC sees the bytes from before or the draws. The model has the DEC see the draws: RESULT and the buffer
afterwards hold the same ones. -/
def agentEvent (own : List Claim) (e : AgentEvent) (s : State) : Outcome :=
  match e with
  | .begins n a => if a.exists s.mem then .next (s.beginAccess own n a) else .refused (.outsideBuffers a)
  | .returns n =>
    match s.oldestOf n with
    | none => .next s
    | some x => .next ((s.landAccess x).dropOldestOf n)
  | .isCut n =>
    match s.oldestOf n with
    | none => .next s
    | some x => .next ((s.drawSpan x.access.span).dropOldestOf n)

/-- Several events, one after the other. -/
def agentEvents (own : List Claim) : List AgentEvent → State → Outcome
  | [], s => .next s
  | e :: es, s => andThen (agentEvent own e s) (agentEvents own es)

/-! ### A command in progress -/

/-- The accesses that begin among these events. -/
def begunIn (during : List AgentEvent) : List AgentAccess :=
  during.filterMap (fun e =>
    match e with
    | .begins _ a => some a
    | .returns _ => none
    | .isCut _ => none)

/-- The contested ranges of a command: what it shares with the accesses in flight when it is issued and with those that
begin while it is in progress (20_memory.md R40). -/
def State.commandRaces (s : State) (own : List Claim) (during : List AgentEvent) : List Span :=
  own.flatMap (fun p => s.races p ++ (begunIn during).flatMap (fun a => p.contested a.claim))

/-- What happens to other agents' accesses while a command is in progress. -/
def whileInProgress (r : Request) (during : List AgentEvent) (s : State) : Outcome :=
  let own := (ownClaim s.mem r).toList
  agentEvents own during (s.meet own)

/-- A command (10_state.md R27) with what happens to other agents' accesses while it is in progress. Every byte of its
span that it contests with one of them is a draw in the command's input, and a fresh draw in the buffer afterwards; the
model picks no writer (20_memory.md R40, 70_reset_and_hazards.md R155, 93_implementation_defined.md I5, log entry 10).

DESIGN CHOICE (log entry 11): the command runs after what happens in `during`, so a DEC reads the draws of a read that a
reset cuts off while the DEC is in progress (`agentEvent`). -/
def serveCommand (r : Request) (during : List AgentEvent) (s : State) : Outcome :=
  let races := s.commandRaces (ownClaim s.mem r).toList during
  andThen (whileInProgress r during s) (fun t =>
    andThen (runCommand r (t.drawSpans races)) (fun u => .next (u.drawSpans races)))

/-! ### The host's buffers and reset -/

/-- The host provides a present buffer under the next free name (10_state.md R15, 70_reset_and_hazards.md R153);
BUF_LEN is below 2^ADDR_BITS (93_implementation_defined.md I13). -/
def provideBuffer (xs : List Byte) (s : State) : Outcome :=
  if xs.length < 2 ^ Config.addrBits then .next { s with mem := s.mem ++ [Buffer.ofBytes xs] }
  else .refused (.bufferTooLong xs.length)

/-- The host copies OUT into a buffer of its own (70_reset_and_hazards.md R157). Where the last command produced no OUT
there is nothing to copy and nothing changes (log entry 4); before any command OUT cannot be read (10_state.md R25). -/
def keepOut (s : State) : Outcome :=
  match s.readOut with
  | .error f => .fault f
  | .ok none => .next s
  | .ok (some xs) => provideBuffer xs s

/-- Reset is applied: `seq` is 0, the latches hold no value, no command is accepted until DEFAULT_LE is loaded
(10_state.md R25; 70_reset_and_hazards.md R148, R150, R151). Caller buffers are the host's and stay, and so do other
agents' accesses in flight; the pending inputs are held (log entry 11). -/
def State.applyReset (s : State) : State :=
  { s with phase := .resetting, request := none, response := none, seq := 0 }

/-- The end of reset: DEFAULT_LE is loaded with HOST_DEFAULT_LE (70_reset_and_hazards.md R149, R151). -/
def State.finishReset (s : State) : State :=
  { s with phase := .running, defaultLE := Config.hostDefaultLE }

/-- A reset while a command is in progress: no response, and every byte of its span is a draw
(70_reset_and_hazards.md R152, 93_implementation_defined.md I6). -/
def cutCommand (r : Request) (during : List AgentEvent) (s : State) : Outcome :=
  andThen (whileInProgress r during s) (fun t =>
    .next (t.drawSpans ((ownClaim s.mem r).toList.map (fun p => p.span))).applyReset)

/-- Serve one input. -/
def serve (input : HostInput) (s : State) : Outcome :=
  match input with
  | .command r during => serveCommand r during s
  | .agent e => agentEvent [] e s
  | .provide xs => provideBuffer xs s
  | .keepOut => keepOut s
  | .reset => .next s.applyReset
  | .cutByReset r during => cutCommand r during s

/-- One step: reset that is being applied ends (70_reset_and_hazards.md R151); else the oldest pending input is served
(20_memory.md R41); with none the codec is idle and nothing changes (60_exceptions.md R147). -/
def advance (s : State) : Outcome :=
  match s.phase with
  | .resetting => .next s.finishReset
  | .running =>
    match s.pending with
    | [] => .next s
    | input :: rest => serve input { s with pending := rest }

/-! ### Placing the next command -/

/-- The request the host would issue next with command word `w`: the operands that the request latches hold; value 0,
offset 0 and an absent buffer when they hold none (log entry 15). -/
def State.requestWith (s : State) (w : CmdWord) : Request :=
  match s.request with
  | none => { cmd := w, value := 0, offset := 0, buf := none }
  | some r => { r with cmd := w }

/-- Issue a request so that it is served next: a reset that is being applied ends first, and the request stands before
the other inputs. -/
def State.issueNext (s : State) (r : Request) : State :=
  match s.phase with
  | .resetting => { s.finishReset with pending := .command r [] :: s.pending }
  | .running => { s with pending := .command r [] :: s.pending }

/-- The host issues an input after those it has issued already. -/
def State.issue (s : State) (input : HostInput) : State :=
  { s with pending := s.pending ++ [input] }

end Sys2Proof.Machine
end

