-- ==== Sys2Proof/Machine/Step.lean ====
section
/-! DEFINITION. One step of the machine, and placing the next command word. -/

namespace Sys2Proof.Machine

/-- One step (10_state.md R27, 20_memory.md R41): the next input of the outside world is served whole. -/
def step (s : State) : Host.Outcome State Fault Refusal :=
  advance s

/-- The state whose next step runs the command word `w` (bits numbered as spec/opcode_table.json numbers them): commands
are not fetched from memory but issued by the host (10_state.md R21, 20_memory.md R45), so the word stands first among
the pending inputs (log entries 5 and 15). -/
def State.withFetchWord (s : State) (nbits w : Nat) : State :=
  s.issueNext (s.requestWith (tableWord nbits w))

end Sys2Proof.Machine
end

