-- ==== Sys2Proof/Machine/Asm.lean ====
section
/-! DEFINITION. The assembler form of a command as data, and the one request it assembles to (30_encoding.md R61, R62;
log entry 16). -/

namespace Sys2Proof.Machine

/-- A `<value>` operand (30_encoding.md R61): an integer literal, or a limb tuple, most significant limb first. -/
inductive AsmValue where
  | literal (z : Int)
  | pair (high low : Limb)
  | quad (a b c d : Limb)
  deriving DecidableEq, Repr

/-- One line: the mnemonic with its `le` or `be` suffix (an `Instr`), `<buf>` or `-`, `+<off>`, and `<value>`. -/
structure AsmLine where
  instr  : Instr
  buf    : Option Nat
  offset : Option Nat
  value  : Option AsmValue
  deriving DecidableEq, Repr

/-- The VALUE latch of an operand: a literal is read modulo 2^W, a tuple is its limbs (30_encoding.md R61). -/
def AsmValue.toValue (w : Width) : AsmValue → Value
  | .literal z => (BitVec.ofInt w.bits z).setWidth 256
  | .pair high low => joinLimbs [high, low]
  | .quad a b c d => joinLimbs [a, b, c, d]

/-- The request of a line: OFFSET is 0 when it is not written (30_encoding.md R61, 10_state.md R16). An offset of
2^ADDR_BITS or more is not expressible (93_implementation_defined.md I13). A line without `<value>` leaves VALUE 0,
which its command does not read (30_encoding.md R57). -/
def assemble (l : AsmLine) : Option Request :=
  if l.offset.getD 0 < 2 ^ Config.addrBits then
    some
      { cmd    := encode l.instr
        value  := (l.value.map (AsmValue.toValue l.instr.width)).getD 0
        offset := BitVec.ofNat Config.addrBits (l.offset.getD 0)
        buf    := l.buf }
  else none

end Sys2Proof.Machine
end

