-- ==== Sys2Proof/Machine/Run.lean ====
section
/-! DEFINITION. A run of a command sequence, its end and its end state (70_reset_and_hazards.md R160). -/

namespace Sys2Proof.Machine

/-- The end state of a run: DEFAULT_LE, the caller buffers as the last commands left them, and the responses, one for
each command in issue order (70_reset_and_hazards.md R160). The latches hold the last response only (R157); the earlier
ones are what the codec has returned to the host. -/
structure RunEnd where
  defaultLE : Bool
  mem       : Memory
  responses : List Response
  deriving DecidableEq, Repr

/-- The response with which a run has ended: that of its last command (70_reset_and_hazards.md R160). -/
def RunEnd.lastResponse (e : RunEnd) : Option Response :=
  e.responses.getLast?

/-- Whether an input is a command that is answered; one that reset ends is not (70_reset_and_hazards.md R152). -/
def HostInput.isAnswered : HostInput → Bool
  | .command _ _ => true
  | .agent _ => false
  | .provide _ => false
  | .keepOut => false
  | .reset => false
  | .cutByReset _ _ => false

/-- The steps an input takes: one, and after a reset one more, which loads DEFAULT_LE (70_reset_and_hazards.md R151). -/
def HostInput.stepCount : HostInput → Nat
  | .command _ _ => 1
  | .agent _ => 1
  | .provide _ => 1
  | .keepOut => 1
  | .reset => 2
  | .cutByReset _ _ => 2

/-- The response that the step from `s` to `t` returned to the host, if the step served a command. -/
def State.returned (s t : State) : List Response :=
  match s.phase with
  | .resetting => []
  | .running =>
    match s.pending with
    | [] => []
    | input :: _ => if input.isAnswered then t.response.toList else []

/-- What several steps lead to: a state and the responses returned on the way, or a stop. -/
abbrev RunOutcome := Host.Outcome (State × List Response) Fault Refusal

/-- The responses that had been returned before, in front of those of a run. -/
def putResponsesFirst (ps : List Response) : RunOutcome → RunOutcome
  | .next (t, qs) => .next (t, ps ++ qs)
  | .fault e => .fault e
  | .refused x => .refused x

/-- Several steps, with the responses they return, in order. -/
def runSteps : Nat → State → RunOutcome
  | 0, s => .next (s, [])
  | n + 1, s =>
    match step s with
    | .next t => putResponsesFirst (s.returned t) (runSteps n t)
    | .fault e => .fault e
    | .refused x => .refused x

/-- The steps that these inputs take up to the response of the last command among them (log entry 19). -/
def stepsToLastResponse : List HostInput → Nat
  | [] => 0
  | input :: rest =>
    if input.isAnswered ∨ 0 < stepsToLastResponse rest then input.stepCount + stepsToLastResponse rest else 0

/-- The steps of the run of the pending inputs. Commands that are held run when reset is done
(70_reset_and_hazards.md R151). -/
def State.runLength (s : State) : Nat :=
  match s.phase with
  | .running => stepsToLastResponse s.pending
  | .resetting => if 0 < stepsToLastResponse s.pending then stepsToLastResponse s.pending + 1 else 0

/-- Run the command sequence that the host has issued, to its end: the response of the last command
(70_reset_and_hazards.md R160).

DESIGN CHOICE (log entry 19): the inputs that stand between the commands belong to the run, those behind the last
answered command do not. -/
def State.runToEnd (s : State) : Host.Outcome RunEnd Fault Refusal :=
  match runSteps s.runLength s with
  | .next (t, ps) => .next { defaultLE := t.defaultLE, mem := t.mem, responses := ps }
  | .fault e => .fault e
  | .refused x => .refused x

end Sys2Proof.Machine
end

