-- ==== Sys2Proof/Safety.lean ====
section
/-! DEFINITION. The terms claims use: which responses fit a command, the invariant every step keeps, the states a run
reaches, and what the spec calls a fault outcome of a command (60_exceptions.md R131). -/

namespace Sys2Proof.Machine

/-- The spec's fault outcomes of a command: STATUS codes 1 to 4 (60_exceptions.md R131). -/
def Status.isError (e : Status) : Bool :=
  e != .ok

/-- The last command ended in one of the spec's fault outcomes. -/
def State.erred (s : State) : Prop :=
  ∃ p, s.response = some p ∧ p.status.isError = true

/-- A step is safe when it stops for no reason of the model's and the command it served, if any, did not end in an
error. -/
def SafeStep (s : State) : Prop :=
  ∃ t, step s = .next t ∧ ¬ t.erred

/-- The response of an illegal word (60_exceptions.md R136). -/
def Response.illegal : Response :=
  { status := .illegalCommand, result := none, out := none }

/-- The responses a command can give (10_state.md R18, R19, R27; 60_exceptions.md R130, R132): which statuses it
raises, RESULT only from DEC and QEND, OUT only from ENCA (n bytes) and EXPT (at most n bytes), and neither beside an
error. -/
def Response.fits (p : Response) (i : Instr) : Prop :=
  match i.op with
  | .enc =>
    (p.status = .ok ∨ p.status = .invalidArgument ∨ p.status = .outOfRange) ∧ p.result = none ∧ p.out = none
  | .enca => p.status = .ok ∧ p.result = none ∧ ∃ xs, p.out = some xs ∧ xs.length = i.width.bytes
  | .dec =>
    p.out = none ∧
      ((p.status = .ok ∧ ∃ v, p.result = some v ∧ v.toNat < 2 ^ i.width.bits) ∨
        ((p.status = .invalidArgument ∨ p.status = .invalidState) ∧ p.result = none))
  | .expt =>
    p.status = .ok ∧ p.result = none ∧ ∃ xs, p.out = some xs ∧ 1 ≤ xs.length ∧ xs.length ≤ i.width.bytes
  | .qend => p.status = .ok ∧ p.out = none ∧ ∃ v, p.result = some v ∧ v.toNat < 2

/-- The latched response answers the latched request: an illegal word has the response of an illegal word, a legal one
a response its command can give. -/
def State.answersItsRequest (s : State) : Prop :=
  ∀ p, s.response = some p → ∃ r, s.request = some r ∧
    match decode r.cmd with
    | .error _ => p = Response.illegal
    | .ok i => p.fits i

/-- The invariant of the machine: every caller buffer keeps its canonical form and its length bound; DEFAULT_LE is
HOST_DEFAULT_LE whenever commands are accepted (70_reset_and_hazards.md R149); a latched response fits the latched
request (10_state.md R27); while reset is being applied the latches hold no value and `seq` is 0
(70_reset_and_hazards.md R150). -/
structure State.Inv (s : State) : Prop where
  memory   : s.mem.wf
  default  : s.phase = .running → s.defaultLE = Config.hostDefaultLE
  response : s.answersItsRequest
  reset    : s.phase = .resetting → s.request = none ∧ s.response = none ∧ s.seq = 0

/-- Several steps. -/
def steps : Nat → State → Outcome
  | 0, s => .next s
  | n + 1, s => andThen (step s) (steps n)

/-- The states a run reaches: reset, the host issuing an input, and steps. -/
inductive Reachable : State → Prop where
  | reset : Reachable State.reset
  | issue (s : State) (input : HostInput) : Reachable s → Reachable (s.issue input)
  | step (s t : State) : Reachable s → step s = .next t → Reachable t

end Sys2Proof.Machine
end

