-- ==== Sys2Proof/Certificates/Slice0/Obligations.lean ====
section
/-! DEFINITION. The statements for the provers, from the numbered rules of spec/. Every `def Obligations.<Name>` is one
statement; the definitions before them are the spec's formulas the statements are written in. -/

namespace Sys2Proof.Claims

open Sys2Proof.Machine

/-- The byte order a command uses (43_endianness_resolver.md R126): the explicit one, else the one DEFAULT_LE gives. -/
def orderUsed (s : State) (x : Option Endian) : Endian :=
  match x with
  | some e => e
  | none => if s.defaultLE then .le else .be

/-- Byte i of the n-byte image of a value: `byte(v, i)` under LE, `byte(v, n-1-i)` under BE (20_memory.md R32,
40_width_codec.md R65, 42_extended_composer.md R101). -/
def flatByte (n : Nat) (v : Value) (e : Endian) (i : Nat) : Byte :=
  match e with
  | .le => v.extractLsb' (8 * i) 8
  | .be => v.extractLsb' (8 * (n - 1 - i)) 8

/-- The n-byte image of a value. -/
def flatImage (n : Nat) (v : Value) (e : Endian) : List Byte :=
  (List.range n).map (flatByte n v e)

/-- `zext_256(VALUE[W-1:0])` with W = 8n (10_state.md R19). -/
def lowPart (n : Nat) (v : Value) : Value :=
  BitVec.ofNat 256 (v.toNat % 2 ^ (8 * n))

/-- ENC at 16, 32 and 64 bits, each with its byte count. -/
def encNarrow (x : Option Endian) : List (Instr × Nat) :=
  [(.encU16 x, 2), (.encS16 x, 2), (.encU32 x, 4), (.encS32 x, 4), (.encU64 x, 8), (.encS64 x, 8)]

/-- ENC at 128 and 256 bits, each with its byte count. -/
def encWide (x : Option Endian) : List (Instr × Nat) :=
  [(.encU128 x, 16), (.encS128 x, 16), (.encU256 x, 32), (.encS256 x, 32)]

/-- Every ENC. -/
def encAll (x : Option Endian) : List (Instr × Nat) :=
  encNarrow x ++ encWide x

/-- ENCA at 16, 32 and 64 bits, each with its byte count. -/
def encaNarrow (x : Option Endian) : List (Instr × Nat) :=
  [(.encaU16 x, 2), (.encaS16 x, 2), (.encaU32 x, 4), (.encaS32 x, 4), (.encaU64 x, 8), (.encaS64 x, 8)]

/-- ENCA at 128 and 256 bits, each with its byte count. -/
def encaWide (x : Option Endian) : List (Instr × Nat) :=
  [(.encaU128 x, 16), (.encaS128 x, 16), (.encaU256 x, 32), (.encaS256 x, 32)]

/-- Every DEC, each with its byte count. -/
def decAll (x : Option Endian) : List (Instr × Nat) :=
  [(.decU16 x, 2), (.decS16 x, 2), (.decU32 x, 4), (.decS32 x, 4), (.decU64 x, 8), (.decS64 x, 8),
    (.decU128 x, 16), (.decS128 x, 16), (.decU256 x, 32), (.decS256 x, 32)]

/-- Every EXPT, each with its byte count. -/
def exptAll (x : Option Endian) : List (Instr × Nat) :=
  [(.exptU128 x, 16), (.exptS128 x, 16), (.exptU256 x, 32), (.exptS256 x, 32)]

/-- The unsigned and the signed command of each operation and width. -/
def signednessPairs (x : Option Endian) : List (Instr × Instr) :=
  [(.encU16 x, .encS16 x), (.encU32 x, .encS32 x), (.encU64 x, .encS64 x), (.encU128 x, .encS128 x),
    (.encU256 x, .encS256 x), (.encaU16 x, .encaS16 x), (.encaU32 x, .encaS32 x), (.encaU64 x, .encaS64 x),
    (.encaU128 x, .encaS128 x), (.encaU256 x, .encaS256 x), (.decU16 x, .decS16 x), (.decU32 x, .decS32 x),
    (.decU64 x, .decS64 x), (.decU128 x, .decS128 x), (.decU256 x, .decS256 x), (.exptU128 x, .exptS128 x),
    (.exptU256 x, .exptS256 x)]

/-- The response of a command that completes with neither RESULT nor OUT. -/
def okAlone : Response :=
  { status := .ok, result := none, out := none }

/-- The response of a command that completes with a RESULT. -/
def okResult (v : Value) : Response :=
  { status := .ok, result := some v, out := none }

/-- The response of a command that completes with an OUT. -/
def okOut (xs : List Byte) : Response :=
  { status := .ok, result := none, out := some xs }

/-- The response of a command that raises an error: its status alone (60_exceptions.md R130). -/
def errorAlone (e : Status) : Response :=
  { status := e, result := none, out := none }

/-- The status of a request, as the table of 60_exceptions.md R132 orders the checks, with legality as 30_encoding.md
R55 lists it. -/
def expectedStatus (m : Memory) (r : Request) : Status :=
  if (Fields.ofWord r.cmd).legal = false then .illegalCommand
  else
    match decode r.cmd with
    | .error _ => .illegalCommand
    | .ok i =>
      match i.op, m.caller r.buf with
      | .enc, none => .invalidArgument
      | .enc, some (_, b) => if r.offset.toNat + i.width.bytes ≤ b.len then .ok else .outOfRange
      | .dec, none => .invalidArgument
      | .dec, some (_, b) => if b.len = 0 then .ok else if b.len ≤ r.offset.toNat then .invalidState else .ok
      | .enca, _ => .ok
      | .expt, _ => .ok
      | .qend, _ => .ok

/-- An access of another agent touches index j of caller buffer k. -/
abbrev touches (a : AgentAccess) (k j : Nat) : Prop :=
  k = a.span.buf ∧ a.span.start ≤ j ∧ j < a.span.start + a.span.len

/-- The byte an access of another agent writes at index j of caller buffer k; none where it writes nothing. -/
def writtenAt (a : AgentAccess) (k j : Nat) : Option Byte :=
  match a with
  | .reads _ _ _ => none
  | .writes k' m xs => if k = k' ∧ m ≤ j ∧ j < m + xs.length then some (xs.getD (j - m) 0) else none

/-- An access of another agent shares no byte with the span of a request's command (20_memory.md R29, R40). -/
def disjointFrom (r : Request) (a : AgentAccess) : Prop :=
  ∀ i, decode r.cmd = .ok i → i.op = .enc ∨ i.op = .dec → r.buf = some a.span.buf →
    a.span.start + a.span.len ≤ r.offset.toNat ∨ r.offset.toNat + i.width.bytes ≤ a.span.start

/-- Index j of caller buffer k is no byte of the span of a request's command (20_memory.md R29). -/
def outsideSpan (r : Request) (k j : Nat) : Prop :=
  ∀ i, decode r.cmd = .ok i → i.op = .enc ∨ i.op = .dec → r.buf = some k →
    ¬ (r.offset.toNat ≤ j ∧ j < r.offset.toNat + i.width.bytes)

/-- No access in flight shares a byte with the span of a request's command. -/
def runsAlone (s : State) (r : Request) : Prop :=
  ∀ e ∈ s.inFlight, disjointFrom r e.access

/-- The bytes of every access that begins among these events exist. -/
abbrev beginInBuffers (during : List AgentEvent) (m : Memory) : Prop :=
  ∀ a ∈ begunIn during, a.exists m = true

/-- Every way in which one access of agent n can overlap one command in time: it begins while the command is in progress
or before, and it returns while the command is in progress or after. -/
def overlaps (r : Request) (n : Nat) (a : AgentAccess) : List (List HostInput) :=
  [[.command r [.begins n a, .returns n]],
    [.agent (.begins n a), .command r [.returns n]],
    [.command r [.begins n a], .agent (.returns n)],
    [.agent (.begins n a), .command r [], .agent (.returns n)]]

/-- The same ways, with an access that a reset of its agent cuts off (70_reset_and_hazards.md R152) instead of one that
returns. -/
def overlapsAndIsCut (r : Request) (n : Nat) (a : AgentAccess) : List (List HostInput) :=
  [[.command r [.begins n a, .isCut n]],
    [.agent (.begins n a), .command r [.isCut n]],
    [.command r [.begins n a], .agent (.isCut n)],
    [.agent (.begins n a), .command r [], .agent (.isCut n)]]

end Sys2Proof.Claims

open Sys2Proof Sys2Proof.Machine Sys2Proof.Claims

/-- Decoding and encoding are inverse on all commands and all legal words (from 30_encoding.md R58, 30_encoding.md
R59, 30_encoding.md R60). -/
def Obligations.DecodeAndEncodeAreInverse : Prop :=
  (∀ i : Instr, decode (encode i) = .ok i) ∧ ∀ (w : CmdWord) (i : Instr), decode w = .ok i → encode i = w

/-- A word decodes to a command exactly when the table of legal words lists it (from 30_encoding.md R53,
30_encoding.md R54, 30_encoding.md R55, 30_encoding.md R56, 30_encoding.md R58). -/
def Obligations.LegalWordsAreTheTableOfLegalWords : Prop :=
  ∀ w : CmdWord, (∃ i, decode w = .ok i) ↔ (Fields.ofWord w).legal = true

/-- The words of the opcode map, with 0x0080 added for explicit BE and 0x00C0 for explicit LE (from 30_encoding.md
R59, 30_encoding.md R51). -/
def Obligations.OpcodeMapWords : Prop :=
  (∀ p ∈
      ([(Instr.encU16, (0x1000 : CmdWord)), (Instr.encS16, (0x1100 : CmdWord)), (Instr.encU32, (0x1200 : CmdWord)),
         (Instr.encS32, (0x1300 : CmdWord)), (Instr.encU64, (0x1400 : CmdWord)), (Instr.encS64, (0x1500 : CmdWord)),
         (Instr.encU128, (0x1600 : CmdWord)), (Instr.encS128, (0x1700 : CmdWord)),
         (Instr.encU256, (0x1800 : CmdWord)), (Instr.encS256, (0x1900 : CmdWord)),
         (Instr.encaU16, (0x2000 : CmdWord)), (Instr.encaS16, (0x2100 : CmdWord)),
         (Instr.encaU32, (0x2200 : CmdWord)), (Instr.encaS32, (0x2300 : CmdWord)),
         (Instr.encaU64, (0x2400 : CmdWord)), (Instr.encaS64, (0x2500 : CmdWord)),
         (Instr.encaU128, (0x2600 : CmdWord)), (Instr.encaS128, (0x2700 : CmdWord)),
         (Instr.encaU256, (0x2800 : CmdWord)), (Instr.encaS256, (0x2900 : CmdWord)),
         (Instr.decU16, (0x3000 : CmdWord)), (Instr.decS16, (0x3100 : CmdWord)), (Instr.decU32, (0x3200 : CmdWord)),
         (Instr.decS32, (0x3300 : CmdWord)), (Instr.decU64, (0x3400 : CmdWord)), (Instr.decS64, (0x3500 : CmdWord)),
         (Instr.decU128, (0x3600 : CmdWord)), (Instr.decS128, (0x3700 : CmdWord)),
         (Instr.decU256, (0x3800 : CmdWord)), (Instr.decS256, (0x3900 : CmdWord)),
         (Instr.exptU128, (0x4600 : CmdWord)), (Instr.exptS128, (0x4700 : CmdWord)),
         (Instr.exptU256, (0x4800 : CmdWord)), (Instr.exptS256, (0x4900 : CmdWord))] : List ((Option Endian → Instr) × CmdWord)),
      encode (p.1 none) = p.2 ∧ encode (p.1 (some .be)) = p.2 + 0x0080 ∧
        encode (p.1 (some .le)) = p.2 + 0x00C0) ∧
    encode .qend = 0x5000

/-- Words written out from the field table decode to the commands they stand for (from 30_encoding.md R58,
95_test_vectors.md section 2.1). -/
def Obligations.WrittenWordsDecode : Prop :=
  decode 0x1280 = .ok (.encU32 (some .be)) ∧ decode 0x13C0 = .ok (.encS32 (some .le)) ∧
    decode 0x3900 = .ok (.decS256 none) ∧ decode 0x5000 = .ok .qend ∧
    decode 0x26C0 = .ok (.encaU128 (some .le)) ∧ decode 0x4800 = .ok (.exptU256 none) ∧
    decode 0x0000 = .error .reservedOp ∧ decode 0x1040 = .error .endianWithoutSelect ∧
    decode 0x3A00 = .error .reservedWidth ∧ decode 0x1201 = .error .reservedBits ∧
    decode 0x4400 = .error .exportWidth ∧ decode 0x5100 = .error .queryFields ∧ decode 0xF000 = .error .reservedOp

/-- A step runs the command that the issued word decodes to (from 10_state.md R27, 20_memory.md R41, 30_encoding.md
R58). -/
def Obligations.StepRunsTheDecodedCommand : Prop :=
  ∀ (s : State) (r : Request) (rest : List HostInput) (i : Instr),
    s.phase = .running → s.pending = .command r [] :: rest → runsAlone s r → decode r.cmd = .ok i →
      step s = exec i { s with pending := rest, request := some r, response := none }

/-- Any word the table does not list raises IllegalCommand and has no other effect (stated by R136). -/
def Obligations.IllegalWordHasNoOtherEffect : Prop :=
  ∀ (s : State) (r : Request) (rest : List HostInput),
    s.phase = .running → s.pending = .command r [] :: rest → (Fields.ofWord r.cmd).legal = false →
      ∃ t, step s = .next t ∧ t.response = some (errorAlone .illegalCommand) ∧ t.seq = s.seq + 1 ∧
        t.mem = s.mem ∧ t.defaultLE = s.defaultLE ∧ t.draws = s.draws ∧ t.phase = .running ∧ t.pending = rest ∧
        t.inFlight = s.inFlight

/-- Every accepted command completes with a response (stated by R159). -/
def Obligations.EveryAcceptedCommandCompletes : Prop :=
  ∀ (s : State) (r : Request) (during : List AgentEvent) (rest : List HostInput),
    s.phase = .running → s.pending = .command r during :: rest → beginInBuffers during s.mem →
      ∃ t p, step s = .next t ∧ t.phase = .running ∧ t.response = some p ∧
        t.seq = s.seq + 1 ∧ t.pending = rest

/-- Inputs are served one at a time, oldest first (that later inputs survive a reset is the model's choice) (from
20_memory.md R41, 10_state.md R21). The list of inputs is the model's choice of log entry 5. That later inputs stay
pending across a reset (the inputs reset and cutByReset) is the model's choice, the reading of log entry 11 (DEDUCED,
unsafe for inputs already held): no rule states it. -/
def Obligations.InputsAreServedInIssueOrder : Prop :=
  ∀ (s t : State) (input : HostInput) (rest : List HostInput),
    s.phase = .running → s.pending = input :: rest → step s = .next t → t.pending = rest

/-- With nothing pending the codec is idle and a step changes nothing (from 60_exceptions.md R147). -/
def Obligations.IdleStepChangesNothing : Prop :=
  ∀ s : State, s.phase = .running → s.pending = [] → step s = .next s

/-- The status of every request is the first failing check of the table of checks (from 60_exceptions.md R132,
60_exceptions.md R138, 40_width_codec.md R69). -/
def Obligations.StatusFollowsTheOrderOfChecks : Prop :=
  ∀ (s : State) (r : Request) (rest : List HostInput),
    s.phase = .running → s.pending = .command r [] :: rest →
      ∃ t p, step s = .next t ∧ t.response = some p ∧ p.status = expectedStatus s.mem r

/-- An erroring command returns no RESULT and no OUT and writes no buffer byte but the OutOfRange draws (from
60_exceptions.md R130, 60_exceptions.md R135, 10_state.md R19). -/
def Obligations.ErrorReturnsNothingAndWritesNothing : Prop :=
  ∀ (s t : State) (r : Request) (rest : List HostInput) (p : Response),
    s.phase = .running → s.pending = .command r [] :: rest → step s = .next t → t.response = some p →
      p.status ≠ .ok →
        p.result = none ∧ p.out = none ∧ t.defaultLE = s.defaultLE ∧ (p.status ≠ .outOfRange → t.mem = s.mem) ∧
          (p.status = .outOfRange →
            ∃ k b b', r.buf = some k ∧ s.mem[k]? = some b ∧ t.mem = s.mem.set k b' ∧ b'.len = b.len ∧
              ∀ j, ¬ (r.offset.toNat ≤ j ∧ j < b.len) → b'.read j = b.read j)

/-- The outcome of a command is a function of DEFAULT_LE and its request alone (from 10_state.md R11, 10_state.md R27,
20_memory.md R38). -/
def Obligations.OutcomeDependsOnDefaultAndRequestAlone : Prop :=
  ∀ (s₁ s₂ t₁ : State) (r : Request) (rest₁ rest₂ : List HostInput),
    s₁.phase = .running → s₂.phase = .running →
    s₁.pending = .command r [] :: rest₁ → s₂.pending = .command r [] :: rest₂ → runsAlone s₁ r → runsAlone s₂ r →
    s₁.defaultLE = s₂.defaultLE → s₁.mem.caller r.buf = s₂.mem.caller r.buf → step s₁ = .next t₁ →
      ∃ t₂, step s₂ = .next t₂ ∧ t₂.response = t₁.response ∧
        (s₁.draws = s₂.draws ∨ (∀ p, t₁.response = some p → p.status ≠ .outOfRange) →
          t₂.mem.caller r.buf = t₁.mem.caller r.buf)

/-- A command's response replaces the whole response of the command before it, and a run of commands ends with the
responses of all of them (from 70_reset_and_hazards.md R157, 70_reset_and_hazards.md R160, 10_state.md R11,
70_reset_and_hazards.md R151). -/
def Obligations.ResponseReplacesTheOneBeforeAndARunKeepsEach : Prop :=
  (∀ (s : State) (r : Request) (during : List AgentEvent) (rest : List HostInput) (p q : Option Response),
      s.phase = .running → s.pending = .command r during :: rest →
        step { s with response := p } = step { s with response := q }) ∧
    (∀ (s : State) (rs : List Request),
      s.phase = .running → s.inFlight = [] → s.pending = rs.map (fun r => .command r []) →
        ∃ e t, s.runToEnd = .next e ∧ steps rs.length s = .next t ∧ t.pending = [] ∧
          e.defaultLE = t.defaultLE ∧ e.mem = t.mem ∧ e.responses.length = rs.length ∧
          (rs ≠ [] → e.lastResponse = t.response) ∧
          ∀ j < rs.length, ∃ u p, steps (j + 1) s = .next u ∧ u.response = some p ∧ e.responses[j]? = some p) ∧
    ∀ (s : State) (rs : List Request),
      s.phase = .resetting → s.pending = rs.map (fun r => .command r []) → rs ≠ [] →
        s.runToEnd = s.finishReset.runToEnd

/-- Right after reset DEFAULT_LE is HOST_DEFAULT_LE, seq is 0 and the latches hold no value (from 10_state.md R25,
70_reset_and_hazards.md R149, 70_reset_and_hazards.md R150). -/
def Obligations.ResetValues : Prop :=
  State.reset.defaultLE = Config.hostDefaultLE ∧ State.reset.seq = 0 ∧ State.reset.request = none ∧
    State.reset.response = none ∧ State.reset.phase = .running ∧
    State.reset.readStatus = .error (.latchHoldsNoValue .status) ∧
    State.reset.readResult = .error (.latchHoldsNoValue .result) ∧
    State.reset.readOut = .error (.latchHoldsNoValue .out)

/-- Until reset has loaded DEFAULT_LE no command is executed or answered (stated by R151). -/
def Obligations.CommandsAreHeldUntilDefaultIsLoaded : Prop :=
  ∀ s : State, s.phase = .resetting →
      step s = .next { s with phase := .running, defaultLE := Config.hostDefaultLE }

/-- A reset clears seq and the latches; buffers, held inputs and (until the load) DEFAULT_LE stay, which is the
model's choice (from 70_reset_and_hazards.md R148, 70_reset_and_hazards.md R150, 10_state.md R25). R148, R150 and R25
give seq and the latches. That the buffers and the held inputs stay is log entry 11 (DEDUCED), that DEFAULT_LE keeps
its value until it is loaded is log entry 17 (DESIGN CHOICE): both are the model's, not rules of the spec. -/
def Obligations.ResetEmptiesTheLatches : Prop :=
  ∀ (s : State) (rest : List HostInput), s.phase = .running → s.pending = .reset :: rest →
      step s = .next { s with
        phase := .resetting
        pending := rest
        request := none
        response := none
        seq := 0 }

/-- A reset during a command gives no response and makes the bytes of its span draws (from 70_reset_and_hazards.md
R152, 20_memory.md R29). The clipping to the buffer and the held inputs are readings of log entry 11, the numbering of
the draws is log entry 2, a name with no buffer as an absent buffer is log entry 6. -/
def Obligations.CutCommandLeavesOnlyDraws : Prop :=
  ∀ (s : State) (r : Request) (during : List AgentEvent) (rest : List HostInput),
    s.phase = .running → s.pending = .cutByReset r during :: rest → beginInBuffers during s.mem →
      ∃ t, step s = .next t ∧ t.phase = .resetting ∧ t.request = none ∧ t.response = none ∧ t.seq = 0 ∧
        t.pending = rest ∧
        (during = [] → (∀ i, decode r.cmd = .ok i → i.op ≠ .enc ∧ i.op ≠ .dec) → t.mem = s.mem) ∧
        (during = [] → s.mem.caller r.buf = none → t.mem = s.mem) ∧
        ∀ i k b, decode r.cmd = .ok i → i.op = .enc ∨ i.op = .dec → r.buf = some k → s.mem[k]? = some b →
          ∃ b', t.mem[k]? = some b' ∧ b'.len = b.len ∧
            (∀ j, r.offset.toNat ≤ j → j < r.offset.toNat + i.width.bytes → j < b.len →
              ∃ d, s.draws ≤ d ∧ b'.read j = Config.freeByte d) ∧
            (during = [] →
              t.mem = s.mem.set k b' ∧
                ∀ j, b'.read j =
                  if r.offset.toNat ≤ j ∧ j < r.offset.toNat + i.width.bytes ∧ j < b.len then
                    Config.freeByte (s.draws + (j - r.offset.toNat))
                  else b.read j)

/-- No command and no other input writes DEFAULT_LE (for a reset, before its load: the model's choice) (from
10_state.md R10, 43_endianness_resolver.md R129). For the inputs reset and cutByReset the unchanged DEFAULT_LE is the
model's choice of log entry 17, not R10 or R129. -/
def Obligations.NothingWritesTheDefaultWhileRunning : Prop :=
  ∀ s t : State, s.phase = .running → step s = .next t → t.defaultLE = s.defaultLE

/-- The endianness of a command is the explicit one of its word, else the default (stated by R126). -/
def Obligations.ResolvedEndianFollowsTheWord : Prop :=
  ∀ (s : State) (w : CmdWord) (i : Instr), decode w = .ok i → i.op ≠ .qend →
      s.resolve i.explicit =
        if w.getLsbD 7 then (if w.getLsbD 6 then .le else .be) else (if s.defaultLE then .le else .be)

/-- A command with an explicit endianness does not depend on DEFAULT_LE (from 43_endianness_resolver.md R126,
43_endianness_resolver.md R127). -/
def Obligations.ExplicitEndianIgnoresTheDefault : Prop :=
  ∀ (i : Instr) (e : Endian) (s t : State) (d : Bool), i.explicit = some e → exec i s = .next t →
      exec i { s with defaultLE := d } = .next { t with defaultLE := d }

/-- QEND returns DEFAULT_LE, and no other word with its OP is legal (stated by R128). -/
def Obligations.QueryReturnsTheDefault : Prop :=
  (∀ s : State, exec .qend s =
      .next { s with response := some (okResult (if s.defaultLE then 1 else 0)), seq := s.seq + 1 }) ∧
    decode 0x5000 = .ok .qend ∧
    ∀ w : CmdWord, w.extractLsb' 12 4 = 5 → w ≠ 0x5000 → ∃ e, decode w = .error e

/-- ENC at 16, 32 and 64 bits writes the image of VALUE into its span and changes nothing else (from 40_width_codec.md
R65, 40_width_codec.md R67, 20_memory.md R33, 20_memory.md R36, 40_width_codec.md R73 to R78). -/
def Obligations.NarrowEncWritesItsSpan : Prop :=
  ∀ (s : State) (r : Request) (k : Nat) (b : Buffer) (x : Option Endian),
    s.request = some r → r.buf = some k → s.mem[k]? = some b →
      ∀ p ∈ encNarrow x, r.offset.toNat + p.2 ≤ b.len →
        ∃ b', exec p.1 s = .next { s with
            mem := s.mem.set k b'
            response := some okAlone
            seq := s.seq + 1 } ∧
          b'.len = b.len ∧
          ∀ j, b'.read j =
            if r.offset.toNat ≤ j ∧ j < r.offset.toNat + p.2 then
              flatByte p.2 r.value (orderUsed s x) (j - r.offset.toNat)
            else b.read j

/-- ENC at 128 and 256 bits writes the flat image of VALUE into its span and changes nothing else (from
42_extended_composer.md R101, 42_extended_composer.md R103, 42_extended_composer.md R116, 20_memory.md R33,
42_extended_composer.md R104 to R107). -/
def Obligations.WideEncWritesItsSpan : Prop :=
  ∀ (s : State) (r : Request) (k : Nat) (b : Buffer) (x : Option Endian),
    s.request = some r → r.buf = some k → s.mem[k]? = some b →
      ∀ p ∈ encWide x, r.offset.toNat + p.2 ≤ b.len →
        ∃ b', exec p.1 s = .next { s with
            mem := s.mem.set k b'
            response := some okAlone
            seq := s.seq + 1 } ∧
          b'.len = b.len ∧
          ∀ j, b'.read j =
            if r.offset.toNat ≤ j ∧ j < r.offset.toNat + p.2 then
              flatByte p.2 r.value (orderUsed s x) (j - r.offset.toNat)
            else b.read j

/-- The places of High and Low of a 128-bit value (stated by R98). -/
def Obligations.LimbPlacementOf128 : Prop :=
  ∀ (s : State) (r : Request) (k : Nat) (b : Buffer) (x : Option Endian),
    s.request = some r → r.buf = some k → s.mem[k]? = some b →
      ∀ i ∈ [Instr.encU128 x, Instr.encS128 x], r.offset.toNat + 16 ≤ b.len →
        ∃ t b', exec i s = .next t ∧ t.mem[k]? = some b' ∧
          match orderUsed s x with
          | .le =>
            b'.readBytes r.offset.toNat 8 = packLimb (r.value.extractLsb' 0 64) .le ∧
              b'.readBytes (r.offset.toNat + 8) 8 = packLimb (r.value.extractLsb' 64 64) .le
          | .be =>
            b'.readBytes r.offset.toNat 8 = packLimb (r.value.extractLsb' 64 64) .be ∧
              b'.readBytes (r.offset.toNat + 8) 8 = packLimb (r.value.extractLsb' 0 64) .be

/-- The places of A, B, C and D of a 256-bit value (stated by R99). -/
def Obligations.LimbPlacementOf256 : Prop :=
  ∀ (s : State) (r : Request) (k : Nat) (b : Buffer) (x : Option Endian),
    s.request = some r → r.buf = some k → s.mem[k]? = some b →
      ∀ i ∈ [Instr.encU256 x, Instr.encS256 x], r.offset.toNat + 32 ≤ b.len →
        ∃ t b', exec i s = .next t ∧ t.mem[k]? = some b' ∧
          match orderUsed s x with
          | .be =>
            b'.readBytes r.offset.toNat 8 = packLimb (r.value.extractLsb' 192 64) .be ∧
              b'.readBytes (r.offset.toNat + 8) 8 = packLimb (r.value.extractLsb' 128 64) .be ∧
              b'.readBytes (r.offset.toNat + 16) 8 = packLimb (r.value.extractLsb' 64 64) .be ∧
              b'.readBytes (r.offset.toNat + 24) 8 = packLimb (r.value.extractLsb' 0 64) .be
          | .le =>
            b'.readBytes r.offset.toNat 8 = packLimb (r.value.extractLsb' 0 64) .le ∧
              b'.readBytes (r.offset.toNat + 8) 8 = packLimb (r.value.extractLsb' 64 64) .le ∧
              b'.readBytes (r.offset.toNat + 16) 8 = packLimb (r.value.extractLsb' 128 64) .le ∧
              b'.readBytes (r.offset.toNat + 24) 8 = packLimb (r.value.extractLsb' 192 64) .le

/-- ENC beyond the end of the buffer raises OutOfRange and leaves draws from OFFSET on (from 60_exceptions.md R135,
40_width_codec.md R67, 42_extended_composer.md R103). The numbering of the draws is the model's choice of log entry 2.
-/
def Obligations.OutOfRangeEncLeavesDraws : Prop :=
  ∀ (s : State) (r : Request) (k : Nat) (b : Buffer) (x : Option Endian),
    s.request = some r → r.buf = some k → s.mem[k]? = some b →
      ∀ p ∈ encAll x, b.len < r.offset.toNat + p.2 →
        ∃ b', exec p.1 s = .next { s with
            mem := s.mem.set k b'
            response := some (errorAlone .outOfRange)
            seq := s.seq + 1
            draws := s.draws + (b.len - r.offset.toNat) } ∧
          b'.len = b.len ∧
          ∀ j, b'.read j =
            if r.offset.toNat ≤ j ∧ j < b.len then Config.freeByte (s.draws + (j - r.offset.toNat)) else b.read j

/-- ENC and DEC with an absent buffer raise InvalidArgument, whatever OFFSET is; ENCA and EXPT never do (stated by
R133). -/
def Obligations.AbsentBufferRaisesInvalidArgument : Prop :=
  (∀ (s : State) (r : Request) (x : Option Endian), s.request = some r → r.buf = none →
      ∀ p ∈ encAll x ++ decAll x,
        exec p.1 s = .next { s with response := some (errorAlone .invalidArgument), seq := s.seq + 1 }) ∧
    ∀ (s t : State) (i : Instr) (q : Response), i.op = .enca ∨ i.op = .expt → exec i s = .next t →
      t.response = some q → q.status ≠ .invalidArgument

/-- A buffer name under which the host has provided nothing is an absent buffer (the model's choice) (from 10_state.md
R15). The model's choice of log entry 6, not a rule of the spec. -/
def Obligations.UnprovidedNameIsAnAbsentBuffer : Prop :=
  ∀ (s : State) (r : Request) (k : Nat) (x : Option Endian), s.request = some r → r.buf = some k → s.mem[k]? = none →
      ∀ p ∈ encAll x ++ decAll x,
        exec p.1 s = .next { s with response := some (errorAlone .invalidArgument), seq := s.seq + 1 }

/-- ENC is idempotent (from 20_memory.md R38). -/
def Obligations.RepeatedEncWritesTheSameBytes : Prop :=
  ∀ (s t u : State) (r : Request) (k : Nat) (b : Buffer) (x : Option Endian),
    s.mem.wf → s.request = some r → r.buf = some k → s.mem[k]? = some b →
      ∀ p ∈ encAll x, r.offset.toNat + p.2 ≤ b.len → exec p.1 s = .next t → exec p.1 t = .next u → u.mem = t.mem

/-- DEC, ENCA, EXPT and QEND never write a caller buffer, whatever their outcome (stated by R34). -/
def Obligations.OnlyEncTouchesBuffers : Prop :=
  ∀ (i : Instr) (s t : State), i.op ≠ .enc → exec i s = .next t → t.mem = s.mem ∧ t.draws = s.draws

/-- What every command leaves unchanged (from 10_state.md R10, 10_state.md R11, 10_state.md R21, 20_memory.md R33,
20_memory.md R34). -/
def Obligations.FrameOfEveryCommand : Prop :=
  ∀ (i : Instr) (s t : State), exec i s = .next t →
      t.defaultLE = s.defaultLE ∧ t.request = s.request ∧ t.pending = s.pending ∧ t.phase = s.phase ∧
        t.inFlight = s.inFlight ∧ t.seq = s.seq + 1 ∧ t.response.isSome = true ∧ t.mem.length = s.mem.length ∧
        (i.op ≠ .enc → t.mem = s.mem) ∧
        ∀ (k : Nat) (b b' : Buffer), s.mem[k]? = some b → t.mem[k]? = some b' →
          b'.len = b.len ∧
            ((∀ r, s.request = some r → r.buf ≠ some k) → b' = b) ∧
            (∀ r j, s.request = some r → j < r.offset.toNat → b'.read j = b.read j) ∧
            ∀ r j, s.request = some r → r.offset.toNat + i.width.bytes ≤ b.len →
              r.offset.toNat + i.width.bytes ≤ j → b'.read j = b.read j

/-- ENCA at 16, 32 and 64 bits returns the fresh image of VALUE and cannot fail (stated by R68). -/
def Obligations.NarrowEncaReturnsTheImage : Prop :=
  ∀ (s : State) (r : Request) (x : Option Endian), s.request = some r →
      ∀ p ∈ encaNarrow x, exec p.1 s = .next { s with
          response := some (okOut (flatImage p.2 r.value (orderUsed s x)))
          seq := s.seq + 1 }

/-- ENCA at 128 and 256 bits returns the flat image of VALUE (from 42_extended_composer.md R101,
42_extended_composer.md R103, 42_extended_composer.md R108 to R111). -/
def Obligations.WideEncaReturnsTheImage : Prop :=
  ∀ (s : State) (r : Request) (x : Option Endian), s.request = some r →
      ∀ p ∈ encaWide x, exec p.1 s = .next { s with
          response := some (okOut (flatImage p.2 r.value (orderUsed s x)))
          seq := s.seq + 1 }

/-- DEC of a buffer that holds the whole span returns the pattern its bytes spell (from 40_width_codec.md R66,
40_width_codec.md R70, 42_extended_composer.md R100, 42_extended_composer.md R102, 42_extended_composer.md R103,
10_state.md R19, 40_width_codec.md R85 to R90, 42_extended_composer.md R112 to R115). -/
def Obligations.FullDecReturnsThePattern : Prop :=
  ∀ (s : State) (r : Request) (k : Nat) (b : Buffer) (x : Option Endian),
    s.request = some r → r.buf = some k → s.mem[k]? = some b →
      ∀ p ∈ decAll x, r.offset.toNat + p.2 ≤ b.len →
        ∃ v, exec p.1 s = .next { s with response := some (okResult v), seq := s.seq + 1 } ∧
          v.toNat < 2 ^ (8 * p.2) ∧
          ∀ j < p.2, v.extractLsb' (8 * j) 8 =
            match orderUsed s x with
            | .le => b.read (r.offset.toNat + j)
            | .be => b.read (r.offset.toNat + (p.2 - 1 - j))

/-- DEC of a short input returns the pattern of the bytes that are there, zero-extended (from
41_length_reconciliation.md R91, 41_length_reconciliation.md R92, 41_length_reconciliation.md R93,
41_length_reconciliation.md R96, 40_width_codec.md R69, 42_extended_composer.md R102). -/
def Obligations.ShortDecZeroExtends : Prop :=
  ∀ (s : State) (r : Request) (k : Nat) (b : Buffer) (x : Option Endian),
    s.request = some r → r.buf = some k → s.mem[k]? = some b →
      ∀ p ∈ decAll x, r.offset.toNat < b.len → b.len < r.offset.toNat + p.2 →
        ∃ v, exec p.1 s = .next { s with response := some (okResult v), seq := s.seq + 1 } ∧
          v.toNat < 2 ^ (8 * p.2) ∧
          ∀ j < p.2, v.extractLsb' (8 * j) 8 =
            if j < b.len - r.offset.toNat then
              match orderUsed s x with
              | .le => b.read (r.offset.toNat + j)
              | .be => b.read (b.len - 1 - j)
            else 0

/-- DEC of an empty buffer returns zero at every OFFSET (from 40_width_codec.md R69, 40_width_codec.md R70,
60_exceptions.md R138). -/
def Obligations.EmptyDecReturnsZero : Prop :=
  ∀ (s : State) (r : Request) (k : Nat) (b : Buffer) (x : Option Endian),
    s.request = some r → r.buf = some k → s.mem[k]? = some b →
      b.len = 0 → ∀ p ∈ decAll x,
        exec p.1 s = .next { s with response := some (okResult 0), seq := s.seq + 1 }

/-- DEC with OFFSET at or past the end of a non-empty buffer raises InvalidState; ENC never does (stated by R134). -/
def Obligations.DecPastTheEndRaisesInvalidState : Prop :=
  (∀ (s : State) (r : Request) (k : Nat) (b : Buffer) (x : Option Endian),
    s.request = some r → r.buf = some k → s.mem[k]? = some b →
      b.len ≠ 0 → b.len ≤ r.offset.toNat → ∀ p ∈ decAll x,
        exec p.1 s = .next { s with response := some (errorAlone .invalidState), seq := s.seq + 1 }) ∧
    (∀ (s t : State) (i : Instr) (q : Response), i.op = .enc → exec i s = .next t → t.response = some q →
      q.status ≠ .invalidState) ∧
    ∀ (s : State) (r : Request) (k : Nat) (b : Buffer) (x : Option Endian),
      s.request = some r → r.buf = some k → s.mem[k]? = some b → b.len ≤ r.offset.toNat → ∀ p ∈ encAll x,
        ∃ t, exec p.1 s = .next t ∧ t.response = some (errorAlone .outOfRange)

/-- A short image never decodes to a negative value (from 41_length_reconciliation.md R93, 00_scope.md R4,
70_reset_and_hazards.md R156). -/
def Obligations.ShortDecIsNeverNegative : Prop :=
  ∀ (s t : State) (r : Request) (k : Nat) (b : Buffer) (x : Option Endian) (v : Value),
    s.request = some r → r.buf = some k → s.mem[k]? = some b →
      ∀ p ∈ decAll x, r.offset.toNat < b.len → b.len < r.offset.toNat + p.2 →
        exec p.1 s = .next t → t.response = some (okResult v) → 0 ≤ resultReading p.1 v

/-- A reconciled list spells the value of the available bytes (stated by R96). -/
def Obligations.ReconcileKeepsTheValue : Prop :=
  ∀ (av : List Byte) (n : Nat) (e : Endian), 0 < av.length → av.length < n → n ≤ 32 →
      unpackBytes (reconcile av n e) e = unpackBytes av e

/-- EXPT returns the full image without the zero run at its most significant end (from 42_extended_composer.md R117,
42_extended_composer.md R119, 42_extended_composer.md R120, 42_extended_composer.md R121 to R124). -/
def Obligations.ExptStripsTheZerosOfTheHighEnd : Prop :=
  ∀ (s : State) (r : Request) (x : Option Endian), s.request = some r →
      ∀ p ∈ exptAll x,
        ∃ out, exec p.1 s = .next { s with response := some (okOut out), seq := s.seq + 1 } ∧
          match orderUsed s x with
          | .be => ∃ z, flatImage p.2 r.value .be = zeros z ++ out ∧ (out = [0] ∨ ∃ y ys, out = y :: ys ∧ y ≠ 0)
          | .le => ∃ z, flatImage p.2 r.value .le = out ++ zeros z ∧ (out = [0] ∨ ∃ y ys, out = ys ++ [y] ∧ y ≠ 0)

/-- The trimming function meets the contract of the source (stated by R118). -/
def Obligations.TrimMeetsItsContract : Prop :=
  ∀ (xs : List Byte) (e : Endian), xs.length ≤ 32 →
      (match e with
        | .be => ∃ ys, xs = ys ++ trim xs .be ∧ ∀ y ∈ ys, y = 0
        | .le => ∃ ys, xs = trim xs .le ++ ys ∧ ∀ y ∈ ys, y = 0) ∧
      unpackBytes (trim xs e) e = unpackBytes xs e ∧
      unpackBytes (reconcile (trim xs e) xs.length e) e = unpackBytes xs e ∧
      (trim xs e).length ≤ xs.length

/-- The extended-width composer is equivalent to pack and unpack at the full width (stated by R101). -/
def Obligations.ComposerEqualsTheFlatCodec : Prop :=
  ∀ w : Width, w = .w128 ∨ w = .w256 → ∀ e : Endian,
      (∀ v : Value, image w v e = packBytes w.bytes v e ∧
        ∀ i < w.bytes, (image w v e)[i]? = some (flatByte w.bytes v e i)) ∧
      ∀ xs : List Byte, xs.length = w.bytes → readImage w xs e = unpackBytes xs e

/-- The little-endian image is the big-endian image reversed (from 40_width_codec.md R72, 42_extended_composer.md
R116). -/
def Obligations.LittleImageIsTheReverseOfBig : Prop :=
  ∀ (s : State) (r : Request), s.request = some r →
      ∀ p ∈ (encaNarrow (some .le) ++ encaWide (some .le)).zip (encaNarrow (some .be) ++ encaWide (some .be)),
        ∃ t u xs, exec p.1.1 s = .next t ∧ exec p.2.1 s = .next u ∧
          u.response = some (okOut xs) ∧ t.response = some (okOut xs.reverse)

/-- Encoding and then decoding with the same endianness returns the value, at every width (from 40_width_codec.md R71,
42_extended_composer.md R116). -/
def Obligations.DecAfterEncReturnsTheValue : Prop :=
  ∀ (s : State) (r : Request) (k : Nat) (b : Buffer) (x y : Option Endian),
    s.request = some r → r.buf = some k → s.mem[k]? = some b →
      ∀ p ∈
        [(Instr.encU16 x, Instr.decU16 y, 2), (Instr.encS16 x, Instr.decS16 y, 2),
          (Instr.encU32 x, Instr.decU32 y, 4), (Instr.encS32 x, Instr.decS32 y, 4),
          (Instr.encU64 x, Instr.decU64 y, 8), (Instr.encS64 x, Instr.decS64 y, 8),
          (Instr.encU128 x, Instr.decU128 y, 16), (Instr.encS128 x, Instr.decS128 y, 16),
          (Instr.encU256 x, Instr.decU256 y, 32), (Instr.encS256 x, Instr.decS256 y, 32)],
        r.offset.toNat + p.2.2 ≤ b.len →
          ∃ t, exec p.1 s = .next t ∧
            ∀ (u : State) (r' : Request), u.mem = t.mem → u.request = some r' → r'.offset = r.offset →
              r'.buf = some k → orderUsed u y = orderUsed s x →
                exec p.2.1 u =
                  .next { u with response := some (okResult (lowPart p.2.2 r.value)), seq := u.seq + 1 }

/-- Decoding the OUT of an ENCA with the same endianness returns the value, at every width (from 40_width_codec.md
R71, 42_extended_composer.md R116). -/
def Obligations.DecOfEncaOutReturnsTheValue : Prop :=
  ∀ (s : State) (r : Request) (x y : Option Endian), s.request = some r →
      ∀ p ∈
        [(Instr.encaU16 x, Instr.decU16 y, 2), (Instr.encaS16 x, Instr.decS16 y, 2),
          (Instr.encaU32 x, Instr.decU32 y, 4), (Instr.encaS32 x, Instr.decS32 y, 4),
          (Instr.encaU64 x, Instr.decU64 y, 8), (Instr.encaS64 x, Instr.decS64 y, 8),
          (Instr.encaU128 x, Instr.decU128 y, 16), (Instr.encaS128 x, Instr.decS128 y, 16),
          (Instr.encaU256 x, Instr.decU256 y, 32), (Instr.encaS256 x, Instr.decS256 y, 32)],
        ∃ t xs, exec p.1 s = .next t ∧ t.response = some (okOut xs) ∧
          ∀ (u : State) (r' : Request) (k : Nat) (b : Buffer), u.request = some r' → r'.buf = some k →
            u.mem[k]? = some b → b.toBytes = xs → r'.offset.toNat = 0 → orderUsed u y = orderUsed s x →
              exec p.2.1 u =
                .next { u with response := some (okResult (lowPart p.2.2 r.value)), seq := u.seq + 1 }

/-- Decoding the trimmed OUT of an EXPT with the same endianness returns the value (from 42_extended_composer.md R120,
41_length_reconciliation.md R96). -/
def Obligations.DecOfExptOutReturnsTheValue : Prop :=
  ∀ (s : State) (r : Request) (x y : Option Endian), s.request = some r →
      ∀ p ∈
        [(Instr.exptU128 x, Instr.decU128 y, 16), (Instr.exptS128 x, Instr.decS128 y, 16),
          (Instr.exptU256 x, Instr.decU256 y, 32), (Instr.exptS256 x, Instr.decS256 y, 32)],
        ∃ t xs, exec p.1 s = .next t ∧ t.response = some (okOut xs) ∧ 1 ≤ xs.length ∧ xs.length ≤ p.2.2 ∧
          ∀ (u : State) (r' : Request) (k : Nat) (b : Buffer), u.request = some r' → r'.buf = some k →
            u.mem[k]? = some b → b.toBytes = xs → r'.offset.toNat = 0 → orderUsed u y = orderUsed s x →
              exec p.2.1 u =
                .next { u with response := some (okResult (lowPart p.2.2 r.value)), seq := u.seq + 1 }

/-- A narrower DEC at the offset of an ENC sees the low part under LE and the high part under BE (from 20_memory.md
R32). -/
def Obligations.NarrowDecSeesAPartOfAWideEnc : Prop :=
  ∀ (s : State) (r : Request) (k : Nat) (b : Buffer) (x y : Option Endian),
    s.request = some r → r.buf = some k → s.mem[k]? = some b →
      ∀ p ∈ encAll x, ∀ q ∈ decAll y, q.2 < p.2 → r.offset.toNat + p.2 ≤ b.len →
        ∃ t, exec p.1 s = .next t ∧
          ∀ (u : State) (r' : Request), u.mem = t.mem → u.request = some r' → r'.offset = r.offset →
            r'.buf = some k → orderUsed u y = orderUsed s x →
              exec q.1 u = .next { u with
                response := some (okResult
                  (match orderUsed s x with
                    | .le => lowPart q.2 r.value
                    | .be => lowPart q.2 (r.value >>> (8 * (p.2 - q.2)))))
                seq := u.seq + 1 }

/-- The signed and the unsigned command of one width have the same effect (from 30_encoding.md R52, 40_width_codec.md
R64). -/
def Obligations.SignednessChangesNoBit : Prop :=
  ∀ (x : Option Endian) (s : State), ∀ p ∈ signednessPairs x, exec p.1 s = exec p.2 s

/-- The signed reading of a pattern is its two's-complement value (from 00_scope.md R4, 10_state.md R19). -/
def Obligations.SignedReadingIsTwosComplement : Prop :=
  ∀ (w : Width) (v : Value),
      signedReading w v = (v.setWidth w.bits).toInt ∧ unsignedReading w v = (v.setWidth w.bits).toNat

/-- The STATUS codes, and the codes that name no kind (from 60_exceptions.md R131). -/
def Obligations.StatusCodesOfTheResponse : Prop :=
  Status.ok.code = 0 ∧ Status.invalidArgument.code = 1 ∧ Status.invalidState.code = 2 ∧
    Status.outOfRange.code = 3 ∧ Status.illegalCommand.code = 4 ∧
    Status.ofCode 5 = none ∧ Status.ofCode 6 = none ∧ Status.ofCode 7 = none ∧
    ∀ e : Status, Status.ofCode e.code = some e ∧ e.code ≠ 5 ∧ e.code ≠ 6 ∧ e.code ≠ 7

/-- Every step keeps the invariant of the machine (from 10_state.md R15, 10_state.md R27, 70_reset_and_hazards.md
R149, 70_reset_and_hazards.md R150, 60_exceptions.md R130, 60_exceptions.md R132). -/
def Obligations.StepKeepsTheInvariant : Prop :=
  ∀ s t : State, s.Inv → step s = .next t → t.Inv

/-- The state after reset meets the invariant (from 10_state.md R25, 70_reset_and_hazards.md R149). -/
def Obligations.ResetMeetsTheInvariant : Prop :=
  State.reset.Inv ∧ ∀ (s : State) (input : HostInput), s.Inv → (s.issue input).Inv

/-- Two buffers in canonical form with the same bytes are the same data (from 10_state.md R15, 20_memory.md R28). -/
def Obligations.CanonicalBuffersAreEqualWhenTheyReadAlike : Prop :=
  ∀ b c : Buffer, b.wf → c.wf → b.len = c.len → (∀ i < b.len, b.read i = c.read i) → b = c

/-- A command and an access of another agent to disjoint bytes do not affect each other (from 20_memory.md R40,
20_memory.md R42). -/
def Obligations.DisjointAccessesDoNotAffectEachOther : Prop :=
  ∀ (s : State) (r : Request) (n : Nat) (a : AgentAccess) (rest : List HostInput),
    s.phase = .running → s.inFlight = [] → a.exists s.mem = true → disjointFrom r a →
      ∀ p ∈ overlaps r n a, s.pending = p ++ rest →
        ∃ t₀ t, step { s with pending := .command r [] :: rest } = .next t₀ ∧
          steps p.length s = .next t ∧ t.pending = rest ∧ t.inFlight = [] ∧ t.response = t₀.response ∧
          t.seq = t₀.seq ∧ t.mem.length = t₀.mem.length ∧
          ∀ (k : Nat) (b₀ b : Buffer), t₀.mem[k]? = some b₀ → t.mem[k]? = some b →
            b.len = b₀.len ∧ ∀ j, b.read j = (writtenAt a k j).getD (b₀.read j)

/-- Every byte an ENC shares with an overlapping access is a draw afterwards, and no byte outside its span is touched
by it (from 20_memory.md R33, 20_memory.md R40, 60_exceptions.md R135, 93_implementation_defined.md I5). When the
draws are made is the model's choice of log entry 10. -/
def Obligations.RacedEncLeavesDraws : Prop :=
  ∀ (s : State) (r : Request) (i : Instr) (n : Nat) (a : AgentAccess) (rest : List HostInput) (k : Nat) (b : Buffer),
    s.phase = .running → s.inFlight = [] → decode r.cmd = .ok i → r.buf = some k → a.span.buf = k →
    s.mem[k]? = some b → a.span.start + a.span.len ≤ b.len →
      i.op = .enc → ∀ p ∈ overlaps r n a, s.pending = p ++ rest →
        ∃ t b', steps p.length s = .next t ∧ t.pending = rest ∧ t.mem = s.mem.set k b' ∧ b'.len = b.len ∧
          (t.response = some (if r.offset.toNat + i.width.bytes ≤ b.len then okAlone else errorAlone .outOfRange)) ∧
          (∀ j, r.offset.toNat ≤ j → j < r.offset.toNat + i.width.bytes → j < b.len →
            if b.len < r.offset.toNat + i.width.bytes ∨ touches a k j then
              ∃ d, s.draws ≤ d ∧ b'.read j = Config.freeByte d
            else b'.read j = flatByte i.width.bytes r.value (orderUsed s i.explicit) (j - r.offset.toNat)) ∧
          ∀ j, ¬ (r.offset.toNat ≤ j ∧ j < r.offset.toNat + i.width.bytes) →
            b'.read j = (writtenAt a k j).getD (b.read j)

/-- Every byte a DEC shares with an overlapping write is a draw in its input and in the buffer, a short DEC included,
and an overlapping read disturbs nothing (from 20_memory.md R40, 40_width_codec.md R69, 41_length_reconciliation.md
R91, 93_implementation_defined.md I5). When the draws are made is the model's choice of log entry 10. -/
def Obligations.RacedDecReadsDraws : Prop :=
  ∀ (s : State) (r : Request) (i : Instr) (n : Nat) (a : AgentAccess) (rest : List HostInput) (k : Nat) (b : Buffer),
    s.phase = .running → s.inFlight = [] → decode r.cmd = .ok i → r.buf = some k → a.span.buf = k →
    s.mem[k]? = some b → a.span.start + a.span.len ≤ b.len →
      r.offset.toNat < b.len → i.op = .dec → ∀ p ∈ overlaps r n a, s.pending = p ++ rest →
        ∃ t b' v, steps p.length s = .next t ∧ t.pending = rest ∧ t.response = some (okResult v) ∧
          t.mem = s.mem.set k b' ∧ b'.len = b.len ∧ v.toNat < 2 ^ (8 * i.width.bytes) ∧
          (∀ j, ¬ (a.isWrite = true ∧ r.offset.toNat ≤ j ∧ j < r.offset.toNat + i.width.bytes ∧ touches a k j) →
            b'.read j = (writtenAt a k j).getD (b.read j)) ∧
          ∀ j < i.width.bytes,
            let m := min i.width.bytes (b.len - r.offset.toNat)
            let p := match orderUsed s i.explicit with
              | .le => r.offset.toNat + j
              | .be => r.offset.toNat + (m - 1 - j)
            if j < m then
              if a.isWrite = true ∧ touches a k p then
                (∃ d, s.draws ≤ d ∧ v.extractLsb' (8 * j) 8 = Config.freeByte d) ∧
                  ∃ d, s.draws ≤ d ∧ b'.read p = Config.freeByte d
              else v.extractLsb' (8 * j) 8 = b.read p
            else v.extractLsb' (8 * j) 8 = 0

/-- Other agents' accesses are seen in order when ordered, race when they overlap, and leave draws when cut off by
reset, with or without a command in progress (from 20_memory.md R40, 20_memory.md R42, 70_reset_and_hazards.md R152,
93_implementation_defined.md I5, 93_implementation_defined.md I6). What a DEC in progress reads of a read that is cut
off is the model's choice of log entry 11, and no clause states it. When the bytes of a race are drawn is the choice
of log entry 10. -/
def Obligations.AgentAccessesLandInOrderOrRace : Prop :=
  (∀ (s : State) (n : Nat) (a : AgentAccess) (rest : List HostInput),
      s.phase = .running → s.inFlight = [] → a.exists s.mem = true →
      s.pending = .agent (.begins n a) :: .agent (.returns n) :: rest →
        ∃ t, steps 2 s = .next t ∧ t.pending = rest ∧ t.inFlight = [] ∧ t.request = s.request ∧
          t.response = s.response ∧ t.seq = s.seq ∧ t.defaultLE = s.defaultLE ∧ t.phase = .running ∧
          t.mem.length = s.mem.length ∧
          ∀ (k : Nat) (b b' : Buffer), s.mem[k]? = some b → t.mem[k]? = some b' →
            b'.len = b.len ∧ ∀ j, b'.read j = (writtenAt a k j).getD (b.read j)) ∧
    (∀ (s : State) (n m : Nat) (a c : AgentAccess) (rest : List HostInput),
      s.phase = .running → s.inFlight = [] → n ≠ m → a.exists s.mem = true → c.exists s.mem = true →
      ∀ p ∈ [(n, m), (m, n)],
        s.pending = .agent (.begins n a) :: .agent (.begins m c) :: .agent (.returns p.1) ::
          .agent (.returns p.2) :: rest →
        ∃ t, steps 4 s = .next t ∧ t.pending = rest ∧ t.inFlight = [] ∧ t.mem.length = s.mem.length ∧
          ∀ (k : Nat) (b b' : Buffer), s.mem[k]? = some b → t.mem[k]? = some b' →
            b'.len = b.len ∧ ∀ j,
              if touches a k j ∧ touches c k j ∧ (a.isWrite = true ∨ c.isWrite = true) then
                ∃ d, s.draws ≤ d ∧ b'.read j = Config.freeByte d
              else b'.read j = ((writtenAt c k j).or (writtenAt a k j)).getD (b.read j)) ∧
    (∀ (s : State) (n : Nat) (a : AgentAccess) (rest : List HostInput),
      s.phase = .running → s.inFlight = [] → a.exists s.mem = true →
      s.pending = .agent (.begins n a) :: .agent (.isCut n) :: rest →
        ∃ t, steps 2 s = .next t ∧ t.pending = rest ∧ t.inFlight = [] ∧ t.request = s.request ∧
          t.response = s.response ∧ t.seq = s.seq ∧ t.defaultLE = s.defaultLE ∧ t.phase = .running ∧
          t.mem.length = s.mem.length ∧
          ∀ (k : Nat) (b b' : Buffer), s.mem[k]? = some b → t.mem[k]? = some b' →
            b'.len = b.len ∧ ∀ j,
              if touches a k j then ∃ d, s.draws ≤ d ∧ b'.read j = Config.freeByte d
              else b'.read j = b.read j) ∧
    (∀ (s : State) (r : Request) (n m : Nat) (a c : AgentAccess) (rest : List HostInput),
      s.phase = .running → s.inFlight = [] → a.exists s.mem = true → c.exists s.mem = true →
      s.pending = .command r [.begins n a, .returns n, .begins m c, .returns m] :: rest →
        ∃ t, step s = .next t ∧ t.inFlight = [] ∧ t.mem.length = s.mem.length ∧
          ∀ (k : Nat) (b b' : Buffer), s.mem[k]? = some b → t.mem[k]? = some b' →
            b'.len = b.len ∧ ∀ j, outsideSpan r k j →
              b'.read j = ((writtenAt c k j).or (writtenAt a k j)).getD (b.read j)) ∧
    (∀ (s : State) (r : Request) (n m : Nat) (a c : AgentAccess) (rest : List HostInput),
      s.phase = .running → s.inFlight = [] → n ≠ m → a.exists s.mem = true → c.exists s.mem = true →
      ∀ p ∈ [(n, m), (m, n)],
        s.pending = .command r [.begins n a, .begins m c, .returns p.1, .returns p.2] :: rest →
        ∃ t, step s = .next t ∧ t.inFlight = [] ∧ t.mem.length = s.mem.length ∧
          ∀ (k : Nat) (b b' : Buffer), s.mem[k]? = some b → t.mem[k]? = some b' →
            b'.len = b.len ∧ ∀ j, outsideSpan r k j →
              if touches a k j ∧ touches c k j ∧ (a.isWrite = true ∨ c.isWrite = true) then
                ∃ d, s.draws ≤ d ∧ b'.read j = Config.freeByte d
              else b'.read j = ((writtenAt c k j).or (writtenAt a k j)).getD (b.read j)) ∧
    ∀ (s : State) (r : Request) (n : Nat) (a : AgentAccess) (rest : List HostInput),
      s.phase = .running → s.inFlight = [] → a.exists s.mem = true →
      ∀ p ∈ overlapsAndIsCut r n a, s.pending = p ++ rest →
        ∃ t q, steps p.length s = .next t ∧ t.pending = rest ∧ t.inFlight = [] ∧ t.response = some q ∧
          t.seq = s.seq + 1 ∧ t.mem.length = s.mem.length ∧
          ∀ (k : Nat) (b b' : Buffer), s.mem[k]? = some b → t.mem[k]? = some b' →
            b'.len = b.len ∧ ∀ j,
              if touches a k j then ∃ d, s.draws ≤ d ∧ b'.read j = Config.freeByte d
              else outsideSpan r k j → b'.read j = b.read j

/-- A buffer the host provides holds exactly its bytes, and one too long is refused (from 70_reset_and_hazards.md
R153, 10_state.md R15, 93_implementation_defined.md I13). -/
def Obligations.ProvidedBufferHoldsItsBytes : Prop :=
  ∀ (s : State) (xs : List Byte) (rest : List HostInput), s.phase = .running → s.pending = .provide xs :: rest →
      (xs.length < 2 ^ 32 →
        ∃ b, step s = .next { s with pending := rest, mem := s.mem ++ [b] } ∧ b.wf ∧ b.len = xs.length ∧
          b.toBytes = xs) ∧
      (2 ^ 32 ≤ xs.length → step s = .refused (.bufferTooLong xs.length))

/-- The host keeps OUT as a buffer of its own; OUT cannot be read before any command (from 10_state.md R18,
10_state.md R25, 70_reset_and_hazards.md R157, 93_implementation_defined.md I11). That copying an absent OUT changes
nothing is the model's choice of log entry 4. -/
def Obligations.KeptOutIsACopy : Prop :=
  ∀ (s : State) (rest : List HostInput), s.phase = .running → s.pending = .keepOut :: rest →
      (∀ p xs, s.response = some p → p.out = some xs → xs.length < 2 ^ 32 →
        ∃ b, step s = .next { s with pending := rest, mem := s.mem ++ [b] } ∧ b.toBytes = xs) ∧
      (∀ p, s.response = some p → p.out = none → step s = .next { s with pending := rest }) ∧
      (s.response = none → step s = .fault (.latchHoldsNoValue .out))

/-- Every assembler line gives its word, its buffer, its offset and its value; lines R61 does not write assemble too
(the model's choice) (from 30_encoding.md R61, 30_encoding.md R62, 10_state.md R13, 10_state.md R16). R61 gives it for
a literal at 16, 32 and 64 bits, a pair at 128, a tuple of four at 256, on a command that takes a value. That other
lines assemble, by the same formulas, and VALUE 0 without a value, is the model's choice of log entry 16; the bound on
the offset is log entry 12. -/
def Obligations.LiteralIsReadModuloTheWidth : Prop :=
  ∀ l : AsmLine,
      (l.offset.getD 0 < 2 ^ 32 →
        ∃ r, assemble l = some r ∧ r.cmd = encode l.instr ∧ r.buf = l.buf ∧ r.offset.toNat = l.offset.getD 0 ∧
          match l.value with
          | none => r.value = 0
          | some (.literal z) => (r.value.toNat : Int) = z % 2 ^ l.instr.width.bits
          | some (.pair high low) => r.value.toNat = high.toNat * 2 ^ 64 + low.toNat
          | some (.quad a b c d) =>
            r.value.toNat = a.toNat * 2 ^ 192 + b.toNat * 2 ^ 128 + c.toNat * 2 ^ 64 + d.toNat) ∧
      (2 ^ 32 ≤ l.offset.getD 0 → assemble l = none)
end

