-- ==== Sys2Proof/Laws/State.lean ====
section
/-! SUPPORT. One lemma per field per update of the state, so that no later proof unfolds a record update. -/

namespace Sys2Proof.Machine

/-! ### `setBuffer` -/

@[simp] theorem State.setBuffer_phase (s : State) (k : Nat) (b : Buffer) : (s.setBuffer k b).phase = s.phase := rfl
@[simp] theorem State.setBuffer_defaultLE (s : State) (k : Nat) (b : Buffer) : (s.setBuffer k b).defaultLE = s.defaultLE := rfl
@[simp] theorem State.setBuffer_seq (s : State) (k : Nat) (b : Buffer) : (s.setBuffer k b).seq = s.seq := rfl
@[simp] theorem State.setBuffer_request (s : State) (k : Nat) (b : Buffer) : (s.setBuffer k b).request = s.request := rfl
@[simp] theorem State.setBuffer_response (s : State) (k : Nat) (b : Buffer) : (s.setBuffer k b).response = s.response := rfl
@[simp] theorem State.setBuffer_mem (s : State) (k : Nat) (b : Buffer) : (s.setBuffer k b).mem = s.mem.set k b := rfl
@[simp] theorem State.setBuffer_pending (s : State) (k : Nat) (b : Buffer) : (s.setBuffer k b).pending = s.pending := rfl
@[simp] theorem State.setBuffer_inFlight (s : State) (k : Nat) (b : Buffer) : (s.setBuffer k b).inFlight = s.inFlight := rfl
@[simp] theorem State.setBuffer_draws (s : State) (k : Nat) (b : Buffer) : (s.setBuffer k b).draws = s.draws := rfl

/-! ### `respond` -/

@[simp] theorem State.respond_phase (s : State) (r : Option Value) (o : Option (List Byte)) : (s.respond r o).phase = s.phase := rfl
@[simp] theorem State.respond_defaultLE (s : State) (r : Option Value) (o : Option (List Byte)) : (s.respond r o).defaultLE = s.defaultLE := rfl
@[simp] theorem State.respond_seq (s : State) (r : Option Value) (o : Option (List Byte)) : (s.respond r o).seq = s.seq + 1 := rfl
@[simp] theorem State.respond_request (s : State) (r : Option Value) (o : Option (List Byte)) : (s.respond r o).request = s.request := rfl
@[simp] theorem State.respond_response (s : State) (r : Option Value) (o : Option (List Byte)) : (s.respond r o).response = some { status := .ok, result := r, out := o } := rfl
@[simp] theorem State.respond_mem (s : State) (r : Option Value) (o : Option (List Byte)) : (s.respond r o).mem = s.mem := rfl
@[simp] theorem State.respond_pending (s : State) (r : Option Value) (o : Option (List Byte)) : (s.respond r o).pending = s.pending := rfl
@[simp] theorem State.respond_inFlight (s : State) (r : Option Value) (o : Option (List Byte)) : (s.respond r o).inFlight = s.inFlight := rfl
@[simp] theorem State.respond_draws (s : State) (r : Option Value) (o : Option (List Byte)) : (s.respond r o).draws = s.draws := rfl

/-! ### `raise` -/

@[simp] theorem State.raise_phase (s : State) (e : Status) : (s.raise e).phase = s.phase := rfl
@[simp] theorem State.raise_defaultLE (s : State) (e : Status) : (s.raise e).defaultLE = s.defaultLE := rfl
@[simp] theorem State.raise_seq (s : State) (e : Status) : (s.raise e).seq = s.seq + 1 := rfl
@[simp] theorem State.raise_request (s : State) (e : Status) : (s.raise e).request = s.request := rfl
@[simp] theorem State.raise_response (s : State) (e : Status) : (s.raise e).response = some { status := e, result := none, out := none } := rfl
@[simp] theorem State.raise_mem (s : State) (e : Status) : (s.raise e).mem = s.mem := rfl
@[simp] theorem State.raise_pending (s : State) (e : Status) : (s.raise e).pending = s.pending := rfl
@[simp] theorem State.raise_inFlight (s : State) (e : Status) : (s.raise e).inFlight = s.inFlight := rfl
@[simp] theorem State.raise_draws (s : State) (e : Status) : (s.raise e).draws = s.draws := rfl

/-! ### `latch` -/

@[simp] theorem State.latch_phase (s : State) (r : Request) : (s.latch r).phase = s.phase := rfl
@[simp] theorem State.latch_defaultLE (s : State) (r : Request) : (s.latch r).defaultLE = s.defaultLE := rfl
@[simp] theorem State.latch_seq (s : State) (r : Request) : (s.latch r).seq = s.seq := rfl
@[simp] theorem State.latch_request (s : State) (r : Request) : (s.latch r).request = some r := rfl
@[simp] theorem State.latch_response (s : State) (r : Request) : (s.latch r).response = none := rfl
@[simp] theorem State.latch_mem (s : State) (r : Request) : (s.latch r).mem = s.mem := rfl
@[simp] theorem State.latch_pending (s : State) (r : Request) : (s.latch r).pending = s.pending := rfl
@[simp] theorem State.latch_inFlight (s : State) (r : Request) : (s.latch r).inFlight = s.inFlight := rfl
@[simp] theorem State.latch_draws (s : State) (r : Request) : (s.latch r).draws = s.draws := rfl

/-! ### `applyReset` -/

@[simp] theorem State.applyReset_phase (s : State) : (s.applyReset).phase = .resetting := rfl
@[simp] theorem State.applyReset_defaultLE (s : State) : (s.applyReset).defaultLE = s.defaultLE := rfl
@[simp] theorem State.applyReset_seq (s : State) : (s.applyReset).seq = 0 := rfl
@[simp] theorem State.applyReset_request (s : State) : (s.applyReset).request = none := rfl
@[simp] theorem State.applyReset_response (s : State) : (s.applyReset).response = none := rfl
@[simp] theorem State.applyReset_mem (s : State) : (s.applyReset).mem = s.mem := rfl
@[simp] theorem State.applyReset_pending (s : State) : (s.applyReset).pending = s.pending := rfl
@[simp] theorem State.applyReset_inFlight (s : State) : (s.applyReset).inFlight = s.inFlight := rfl
@[simp] theorem State.applyReset_draws (s : State) : (s.applyReset).draws = s.draws := rfl

/-! ### `finishReset` -/

@[simp] theorem State.finishReset_phase (s : State) : (s.finishReset).phase = .running := rfl
@[simp] theorem State.finishReset_defaultLE (s : State) : (s.finishReset).defaultLE = Config.hostDefaultLE := rfl
@[simp] theorem State.finishReset_seq (s : State) : (s.finishReset).seq = s.seq := rfl
@[simp] theorem State.finishReset_request (s : State) : (s.finishReset).request = s.request := rfl
@[simp] theorem State.finishReset_response (s : State) : (s.finishReset).response = s.response := rfl
@[simp] theorem State.finishReset_mem (s : State) : (s.finishReset).mem = s.mem := rfl
@[simp] theorem State.finishReset_pending (s : State) : (s.finishReset).pending = s.pending := rfl
@[simp] theorem State.finishReset_inFlight (s : State) : (s.finishReset).inFlight = s.inFlight := rfl
@[simp] theorem State.finishReset_draws (s : State) : (s.finishReset).draws = s.draws := rfl

/-! ### `issue` -/

@[simp] theorem State.issue_phase (s : State) (i : HostInput) : (s.issue i).phase = s.phase := rfl
@[simp] theorem State.issue_defaultLE (s : State) (i : HostInput) : (s.issue i).defaultLE = s.defaultLE := rfl
@[simp] theorem State.issue_seq (s : State) (i : HostInput) : (s.issue i).seq = s.seq := rfl
@[simp] theorem State.issue_request (s : State) (i : HostInput) : (s.issue i).request = s.request := rfl
@[simp] theorem State.issue_response (s : State) (i : HostInput) : (s.issue i).response = s.response := rfl
@[simp] theorem State.issue_mem (s : State) (i : HostInput) : (s.issue i).mem = s.mem := rfl
@[simp] theorem State.issue_pending (s : State) (i : HostInput) : (s.issue i).pending = s.pending ++ [i] := rfl
@[simp] theorem State.issue_inFlight (s : State) (i : HostInput) : (s.issue i).inFlight = s.inFlight := rfl
@[simp] theorem State.issue_draws (s : State) (i : HostInput) : (s.issue i).draws = s.draws := rfl

/-! ### Draws -/

@[simp] theorem State.drawSpan_phase (s : State) (p : Span) : (s.drawSpan p).phase = s.phase := by
  unfold State.drawSpan; split <;> rfl

@[simp] theorem State.drawSpans_phase (s : State) (ps : List Span) : (s.drawSpans ps).phase = s.phase := by
  induction ps generalizing s with
  | nil => rfl
  | cons p ps ih => exact (ih (s.drawSpan p)).trans (State.drawSpan_phase s p)

@[simp] theorem State.drawSpan_defaultLE (s : State) (p : Span) : (s.drawSpan p).defaultLE = s.defaultLE := by
  unfold State.drawSpan; split <;> rfl

@[simp] theorem State.drawSpans_defaultLE (s : State) (ps : List Span) : (s.drawSpans ps).defaultLE = s.defaultLE := by
  induction ps generalizing s with
  | nil => rfl
  | cons p ps ih => exact (ih (s.drawSpan p)).trans (State.drawSpan_defaultLE s p)

@[simp] theorem State.drawSpan_seq (s : State) (p : Span) : (s.drawSpan p).seq = s.seq := by
  unfold State.drawSpan; split <;> rfl

@[simp] theorem State.drawSpans_seq (s : State) (ps : List Span) : (s.drawSpans ps).seq = s.seq := by
  induction ps generalizing s with
  | nil => rfl
  | cons p ps ih => exact (ih (s.drawSpan p)).trans (State.drawSpan_seq s p)

@[simp] theorem State.drawSpan_request (s : State) (p : Span) : (s.drawSpan p).request = s.request := by
  unfold State.drawSpan; split <;> rfl

@[simp] theorem State.drawSpans_request (s : State) (ps : List Span) : (s.drawSpans ps).request = s.request := by
  induction ps generalizing s with
  | nil => rfl
  | cons p ps ih => exact (ih (s.drawSpan p)).trans (State.drawSpan_request s p)

@[simp] theorem State.drawSpan_response (s : State) (p : Span) : (s.drawSpan p).response = s.response := by
  unfold State.drawSpan; split <;> rfl

@[simp] theorem State.drawSpans_response (s : State) (ps : List Span) : (s.drawSpans ps).response = s.response := by
  induction ps generalizing s with
  | nil => rfl
  | cons p ps ih => exact (ih (s.drawSpan p)).trans (State.drawSpan_response s p)

@[simp] theorem State.drawSpan_pending (s : State) (p : Span) : (s.drawSpan p).pending = s.pending := by
  unfold State.drawSpan; split <;> rfl

@[simp] theorem State.drawSpans_pending (s : State) (ps : List Span) : (s.drawSpans ps).pending = s.pending := by
  induction ps generalizing s with
  | nil => rfl
  | cons p ps ih => exact (ih (s.drawSpan p)).trans (State.drawSpan_pending s p)

@[simp] theorem State.drawSpan_inFlight (s : State) (p : Span) : (s.drawSpan p).inFlight = s.inFlight := by
  unfold State.drawSpan; split <;> rfl

@[simp] theorem State.drawSpans_inFlight (s : State) (ps : List Span) : (s.drawSpans ps).inFlight = s.inFlight := by
  induction ps generalizing s with
  | nil => rfl
  | cons p ps ih => exact (ih (s.drawSpan p)).trans (State.drawSpan_inFlight s p)

/-- The draw counter never goes back. -/
theorem State.drawSpan_draws_le (s : State) (p : Span) : s.draws ≤ (s.drawSpan p).draws := by
  unfold State.drawSpan; split
  · exact Nat.le_refl _
  · exact Nat.le_add_right _ _

theorem State.drawSpans_draws_le (s : State) (ps : List Span) : s.draws ≤ (s.drawSpans ps).draws := by
  induction ps generalizing s with
  | nil => exact Nat.le_refl _
  | cons p ps ih => exact Nat.le_trans (State.drawSpan_draws_le s p) (ih (s.drawSpan p))

@[simp] theorem State.drawSpans_nil (s : State) : s.drawSpans [] = s := rfl

@[simp] theorem State.drawSpans_cons (s : State) (p : Span) (ps : List Span) :
    s.drawSpans (p :: ps) = (s.drawSpan p).drawSpans ps := rfl

/-! ### `meet` and `dropOldestOf` -/

@[simp] theorem State.meet_phase (s : State) (ps : List Claim) : (s.meet ps).phase = s.phase := rfl
@[simp] theorem State.meet_defaultLE (s : State) (ps : List Claim) : (s.meet ps).defaultLE = s.defaultLE := rfl
@[simp] theorem State.meet_seq (s : State) (ps : List Claim) : (s.meet ps).seq = s.seq := rfl
@[simp] theorem State.meet_request (s : State) (ps : List Claim) : (s.meet ps).request = s.request := rfl
@[simp] theorem State.meet_response (s : State) (ps : List Claim) : (s.meet ps).response = s.response := rfl
@[simp] theorem State.meet_mem (s : State) (ps : List Claim) : (s.meet ps).mem = s.mem := rfl
@[simp] theorem State.meet_pending (s : State) (ps : List Claim) : (s.meet ps).pending = s.pending := rfl
@[simp] theorem State.meet_draws (s : State) (ps : List Claim) : (s.meet ps).draws = s.draws := rfl

@[simp] theorem State.dropOldestOf_phase (s : State) (n : Nat) : (s.dropOldestOf n).phase = s.phase := rfl
@[simp] theorem State.dropOldestOf_defaultLE (s : State) (n : Nat) : (s.dropOldestOf n).defaultLE = s.defaultLE := rfl
@[simp] theorem State.dropOldestOf_seq (s : State) (n : Nat) : (s.dropOldestOf n).seq = s.seq := rfl
@[simp] theorem State.dropOldestOf_request (s : State) (n : Nat) : (s.dropOldestOf n).request = s.request := rfl
@[simp] theorem State.dropOldestOf_response (s : State) (n : Nat) : (s.dropOldestOf n).response = s.response := rfl
@[simp] theorem State.dropOldestOf_mem (s : State) (n : Nat) : (s.dropOldestOf n).mem = s.mem := rfl
@[simp] theorem State.dropOldestOf_pending (s : State) (n : Nat) : (s.dropOldestOf n).pending = s.pending := rfl
@[simp] theorem State.dropOldestOf_draws (s : State) (n : Nat) : (s.dropOldestOf n).draws = s.draws := rfl

@[simp] theorem State.dropOldestOf_inFlight (s : State) (n : Nat) :
    (s.dropOldestOf n).inFlight = s.inFlight.eraseP (fun e => e.agent == n) := rfl

@[simp] theorem State.meet_nil (s : State) : s.meet [] = s := by
  simp [State.meet]

@[simp] theorem State.races_meet (s : State) (ps : List Claim) (q : Claim) : (s.meet ps).races q = s.races q := by
  simp [State.races, State.meet, List.flatMap_map]

/-! ### `beginAccess` and `landAccess` -/

@[simp] theorem State.beginAccess_phase (s : State) (own : List Claim) (n : Nat) (a : AgentAccess) : (s.beginAccess own n a).phase = s.phase := rfl
@[simp] theorem State.beginAccess_defaultLE (s : State) (own : List Claim) (n : Nat) (a : AgentAccess) : (s.beginAccess own n a).defaultLE = s.defaultLE := rfl
@[simp] theorem State.beginAccess_seq (s : State) (own : List Claim) (n : Nat) (a : AgentAccess) : (s.beginAccess own n a).seq = s.seq := rfl
@[simp] theorem State.beginAccess_request (s : State) (own : List Claim) (n : Nat) (a : AgentAccess) : (s.beginAccess own n a).request = s.request := rfl
@[simp] theorem State.beginAccess_response (s : State) (own : List Claim) (n : Nat) (a : AgentAccess) : (s.beginAccess own n a).response = s.response := rfl
@[simp] theorem State.beginAccess_mem (s : State) (own : List Claim) (n : Nat) (a : AgentAccess) : (s.beginAccess own n a).mem = s.mem := rfl
@[simp] theorem State.beginAccess_pending (s : State) (own : List Claim) (n : Nat) (a : AgentAccess) : (s.beginAccess own n a).pending = s.pending := rfl
@[simp] theorem State.beginAccess_draws (s : State) (own : List Claim) (n : Nat) (a : AgentAccess) : (s.beginAccess own n a).draws = s.draws := rfl

@[simp] theorem State.beginAccess_inFlight (s : State) (own : List Claim) (n : Nat) (a : AgentAccess) :
    (s.beginAccess own n a).inFlight =
      (s.meet [a.claim]).inFlight ++
        [{ agent := n, access := a, raced := own.flatMap (a.claim.contested) ++ s.races a.claim }] := rfl

@[simp] theorem State.landAccess_phase (s : State) (e : InFlight) : (s.landAccess e).phase = s.phase := by
  unfold State.landAccess; split
  · rfl
  · split <;> simp

@[simp] theorem State.landAccess_defaultLE (s : State) (e : InFlight) : (s.landAccess e).defaultLE = s.defaultLE := by
  unfold State.landAccess; split
  · rfl
  · split <;> simp

@[simp] theorem State.landAccess_seq (s : State) (e : InFlight) : (s.landAccess e).seq = s.seq := by
  unfold State.landAccess; split
  · rfl
  · split <;> simp

@[simp] theorem State.landAccess_request (s : State) (e : InFlight) : (s.landAccess e).request = s.request := by
  unfold State.landAccess; split
  · rfl
  · split <;> simp

@[simp] theorem State.landAccess_response (s : State) (e : InFlight) : (s.landAccess e).response = s.response := by
  unfold State.landAccess; split
  · rfl
  · split <;> simp

@[simp] theorem State.landAccess_pending (s : State) (e : InFlight) : (s.landAccess e).pending = s.pending := by
  unfold State.landAccess; split
  · rfl
  · split <;> simp

@[simp] theorem State.landAccess_inFlight (s : State) (e : InFlight) : (s.landAccess e).inFlight = s.inFlight := by
  unfold State.landAccess; split
  · rfl
  · split <;> simp

end Sys2Proof.Machine
end

