-- ==== Sys2Proof/Laws/Memory.lean ====
section
/-! SUPPORT. The laws of caller buffers: a read after a write, what a write leaves alone, and that every operation keeps
the canonical form. -/

namespace Sys2Proof.Machine

/-! ### Cells -/

theorem cellAt_dropCell (cs : List Host.Cell) (i j : Nat) :
    cellAt (dropCell cs i) j = if j = i then 0 else cellAt cs j := by
  induction cs with
  | nil => simp [dropCell, cellAt]
  | cons c cs ih =>
    by_cases hc : c.1 = i
    · have hdrop : dropCell (c :: cs) i = dropCell cs i := by simp [dropCell, hc]
      rw [hdrop, ih]
      by_cases hj : j = i
      · simp [hj]
      · have hcj : ¬ c.1 = j := fun h => hj (h.symm.trans hc)
        simp [cellAt, hj, hcj]
    · have hdrop : dropCell (c :: cs) i = c :: dropCell cs i := by simp [dropCell, hc]
      rw [hdrop]
      by_cases hcj : c.1 = j
      · have hj : ¬ j = i := fun h => hc (hcj.trans h)
        simp [cellAt, hcj, hj]
      · simp [cellAt, hcj, ih]

theorem cellAt_insertCell (cs : List Host.Cell) (i j : Nat) (x : Byte) (hi : ∀ c ∈ cs, c.1 ≠ i) :
    cellAt (insertCell cs i x) j = if j = i then x else cellAt cs j := by
  induction cs with
  | nil =>
    by_cases h : j = i
    · simp [insertCell, cellAt, h]
    · simp [insertCell, cellAt, h, Ne.symm h]
  | cons c cs ih =>
    have hc : c.1 ≠ i := hi c (by simp)
    have ih' := ih (fun d hd => hi d (by simp [hd]))
    by_cases hlt : i < c.1
    · by_cases h : j = i
      · simp [insertCell, cellAt, hlt, h]
      · simp [insertCell, cellAt, hlt, h, Ne.symm h]
    · by_cases hcj : c.1 = j
      · have hj : j ≠ i := fun h => hc (hcj.trans h)
        rw [insertCell, if_neg hlt, if_neg hj]
        simp [cellAt, hcj]
      · simp [insertCell, cellAt, hlt, hcj, ih']

theorem mem_dropCell {cs : List Host.Cell} {i : Nat} {c : Host.Cell} (h : c ∈ dropCell cs i) : c ∈ cs ∧ c.1 ≠ i := by
  simpa [dropCell] using h

theorem cellAt_putCell (cs : List Host.Cell) (i j : Nat) (x : Byte) :
    cellAt (putCell cs i x) j = if j = i then x else cellAt cs j := by
  unfold putCell
  by_cases hx : x = 0
  · rw [if_pos hx, cellAt_dropCell, hx]
  · rw [if_neg hx, cellAt_insertCell _ _ _ _ (fun c hc => (mem_dropCell hc).2), cellAt_dropCell]
    by_cases hj : j = i <;> simp [hj]

theorem mem_insertCell {cs : List Host.Cell} {i : Nat} {x : Byte} {c : Host.Cell} (h : c ∈ insertCell cs i x) :
    c = (i, x) ∨ c ∈ cs := by
  induction cs with
  | nil => exact .inl (by simpa [insertCell] using h)
  | cons d cs ih =>
    by_cases hlt : i < d.1
    · rw [insertCell, if_pos hlt] at h
      simpa using h
    · rw [insertCell, if_neg hlt] at h
      rcases List.mem_cons.mp h with rfl | h
      · exact .inr (by simp)
      · exact (ih h).imp_right (fun hc => by simp [hc])

theorem insertCell_rising {cs : List Host.Cell} {i : Nat} {x : Byte}
    (hs : cs.Pairwise (fun a b => a.1 < b.1)) (hi : ∀ c ∈ cs, c.1 ≠ i) :
    (insertCell cs i x).Pairwise (fun a b => a.1 < b.1) := by
  induction cs with
  | nil => simp [insertCell]
  | cons d cs ih =>
    have hd := List.pairwise_cons.mp hs
    by_cases hlt : i < d.1
    · rw [insertCell, if_pos hlt, List.pairwise_cons]
      refine ⟨fun c hc => ?_, hs⟩
      rcases List.mem_cons.mp hc with rfl | hc
      · exact hlt
      · exact Nat.lt_trans hlt (hd.1 c hc)
    · have hdi : d.1 < i := Nat.lt_of_le_of_ne (Nat.not_lt.mp hlt) (hi d (by simp))
      rw [insertCell, if_neg hlt, List.pairwise_cons]
      refine ⟨fun c hc => ?_, ih hd.2 (fun c hc => hi c (by simp [hc]))⟩
      rcases mem_insertCell hc with rfl | hc
      · exact hdi
      · exact hd.1 c hc

theorem putCell_rising {cs : List Host.Cell} {i : Nat} {x : Byte}
    (hs : cs.Pairwise (fun a b => a.1 < b.1)) : (putCell cs i x).Pairwise (fun a b => a.1 < b.1) := by
  have hdrop : (dropCell cs i).Pairwise (fun a b => a.1 < b.1) := hs.filter _
  unfold putCell
  split
  · exact hdrop
  · exact insertCell_rising hdrop (fun c hc => (mem_dropCell hc).2)

theorem mem_putCell {cs : List Host.Cell} {i : Nat} {x : Byte} {c : Host.Cell} (h : c ∈ putCell cs i x) :
    (c = (i, x) ∧ x ≠ 0) ∨ c ∈ cs := by
  unfold putCell at h
  split at h
  · exact .inr (mem_dropCell h).1
  · rename_i hx
    exact (mem_insertCell h).imp (fun hc => ⟨hc, hx⟩) (fun hc => (mem_dropCell hc).1)

/-! ### One byte of a buffer -/

@[simp] theorem Buffer.write_len (b : Buffer) (i : Nat) (x : Byte) : (b.write i x).len = b.len := by
  unfold Buffer.write; split <;> rfl

/-- Read after write, of the byte written and of every other byte. -/
theorem Buffer.read_write (b : Buffer) (i j : Nat) (x : Byte) :
    (b.write i x).read j = if j = i ∧ i < b.len then x else b.read j := by
  unfold Buffer.write Buffer.read
  by_cases hi : i < b.len
  · simp [hi, cellAt_putCell]
  · simp [hi]

theorem Buffer.wf_write {b : Buffer} (hb : b.wf) (i : Nat) (x : Byte) : (b.write i x).wf := by
  unfold Buffer.write
  split
  · rename_i hi
    refine ⟨hb.1, putCell_rising hb.2.1, fun c hc => ?_⟩
    rcases mem_putCell hc with ⟨rfl, hx⟩ | hc
    · exact ⟨hi, hx⟩
    · exact hb.2.2 c hc
  · exact hb

/-! ### Several bytes of a buffer -/

@[simp] theorem Buffer.writeBytes_len (b : Buffer) (a : Nat) (xs : List Byte) : (b.writeBytes a xs).len = b.len := by
  induction xs generalizing b a with
  | nil => rfl
  | cons x xs ih => simp [Buffer.writeBytes, ih]

/-- Every byte after a write of several bytes: those inside the range and the buffer are the bytes written, every other
byte is unchanged. -/
theorem Buffer.read_writeBytes (b : Buffer) (a j : Nat) (xs : List Byte) :
    (b.writeBytes a xs).read j =
      if a ≤ j ∧ j < a + xs.length ∧ j < b.len then xs.getD (j - a) 0 else b.read j := by
  induction xs generalizing b a with
  | nil =>
    have h : ¬ (a ≤ j ∧ j < a + ([] : List Byte).length ∧ j < b.len) := by simp; omega
    rw [if_neg h]; rfl
  | cons x xs ih =>
    rw [Buffer.writeBytes, ih, Buffer.write_len, Buffer.read_write]
    by_cases hja : j = a
    · subst hja
      have h1 : ¬ (j + 1 ≤ j ∧ j < j + 1 + xs.length ∧ j < b.len) := by omega
      rw [if_neg h1]
      by_cases hlt : j < b.len <;> simp [hlt]
    · have hcond : (a + 1 ≤ j ∧ j < a + 1 + xs.length ∧ j < b.len) ↔
          (a ≤ j ∧ j < a + (x :: xs).length ∧ j < b.len) := by
        simp only [List.length_cons]; omega
      by_cases hc : a ≤ j ∧ j < a + (x :: xs).length ∧ j < b.len
      · rw [if_pos (hcond.mpr hc), if_pos hc]
        obtain ⟨d, hd⟩ : ∃ d, j - a = d + 1 := ⟨j - a - 1, by omega⟩
        have hd' : j - (a + 1) = d := by omega
        rw [hd, hd']; rfl
      · rw [if_neg (fun h => hc (hcond.mp h)), if_neg hc]
        simp [hja]

theorem Buffer.wf_writeBytes {b : Buffer} (hb : b.wf) (a : Nat) (xs : List Byte) : (b.writeBytes a xs).wf := by
  induction xs generalizing b a with
  | nil => exact hb
  | cons x xs ih => exact ih (Buffer.wf_write hb a x) (a + 1)

@[simp] theorem Buffer.writePieces_len (b : Buffer) (base : Nat) (ps : List (Nat × List Byte)) :
    (b.writePieces base ps).len = b.len := by
  induction ps generalizing b with
  | nil => rfl
  | cons p ps ih => exact (ih (b.writeBytes (base + p.1) p.2)).trans (Buffer.writeBytes_len ..)

theorem Buffer.writePieces_cons (b : Buffer) (base : Nat) (p : Nat × List Byte) (ps : List (Nat × List Byte)) :
    b.writePieces base (p :: ps) = (b.writeBytes (base + p.1) p.2).writePieces base ps := rfl

@[simp] theorem Buffer.writePieces_nil (b : Buffer) (base : Nat) : b.writePieces base [] = b := rfl

theorem Buffer.wf_writePieces {b : Buffer} (hb : b.wf) (base : Nat) (ps : List (Nat × List Byte)) :
    (b.writePieces base ps).wf := by
  induction ps generalizing b with
  | nil => exact hb
  | cons p ps ih => exact ih (Buffer.wf_writeBytes hb (base + p.1) p.2)

@[simp] theorem Buffer.readBytes_length (b : Buffer) (a n : Nat) : (b.readBytes a n).length = n := by
  simp [Buffer.readBytes]

theorem Buffer.readBytes_getElem (b : Buffer) (a n i : Nat) (h : i < (b.readBytes a n).length) :
    (b.readBytes a n)[i] = b.read (a + i) := by
  simp [Buffer.readBytes]

theorem Buffer.ofBytes_len (xs : List Byte) : (Buffer.ofBytes xs).len = xs.length := by
  simp [Buffer.ofBytes]

theorem Buffer.read_ofBytes (xs : List Byte) (i : Nat) : (Buffer.ofBytes xs).read i = xs.getD i 0 := by
  rw [Buffer.ofBytes, Buffer.read_writeBytes]
  by_cases h : i < xs.length
  · simp [h]
  · have hn : xs.getD i 0 = 0 := by simp [List.getD_eq_getElem?_getD, Nat.not_lt.mp h]
    simp [h, Buffer.read, cellAt]

theorem Buffer.wf_ofBytes {xs : List Byte} (h : xs.length < 2 ^ Config.addrBits) : (Buffer.ofBytes xs).wf :=
  Buffer.wf_writeBytes ⟨h, List.Pairwise.nil, fun _ hc => absurd hc (by simp)⟩ 0 xs

/-! ### Draws -/

@[simp] theorem drawBytes_length (k n : Nat) : (drawBytes k n).length = n := by
  simp [drawBytes]

/-! ### Memory -/

/-- What the operand BUF names: present exactly when it names a buffer of memory. -/
theorem Memory.caller_eq_some {m : Memory} {buf : Option Nat} {k : Nat} {b : Buffer} :
    m.caller buf = some (k, b) ↔ buf = some k ∧ m[k]? = some b := by
  unfold Memory.caller
  cases buf with
  | none => simp
  | some j =>
    cases hj : m[j]? with
    | none =>
      simp only [Option.some.injEq, hj]
      constructor
      · intro h; cases h
      · rintro ⟨rfl, h⟩; rw [hj] at h; cases h
    | some c =>
      simp only [Option.some.injEq, Prod.mk.injEq, hj]
      constructor
      · rintro ⟨rfl, rfl⟩; exact ⟨rfl, hj⟩
      · rintro ⟨rfl, h⟩; rw [hj] at h; exact ⟨rfl, Option.some.inj h⟩

theorem Memory.wf_set {m : Memory} (hm : m.wf) {b : Buffer} (hb : b.wf) (k : Nat) : Memory.wf (m.set k b) := by
  intro c hc
  rcases List.mem_or_eq_of_mem_set hc with h | rfl
  · exact hm c h
  · exact hb

theorem Memory.wf_append {m : Memory} (hm : m.wf) {b : Buffer} (hb : b.wf) : Memory.wf (m ++ [b]) := by
  intro c hc
  rcases List.mem_append.mp hc with h | h
  · exact hm c h
  · rw [List.mem_singleton.mp h]; exact hb

theorem Memory.wf_getElem? {m : Memory} (hm : m.wf) {k : Nat} {b : Buffer} (h : m[k]? = some b) : b.wf :=
  hm b (List.mem_of_getElem? h)

theorem State.reset_mem_wf : State.reset.mem.wf := fun _ hb => absurd hb (by simp [State.reset, State.resetWith])

theorem State.setBuffer_mem_wf {s : State} (hs : s.mem.wf) {b : Buffer} (hb : b.wf) (k : Nat) :
    (s.setBuffer k b).mem.wf :=
  Memory.wf_set hs hb k

theorem State.drawSpan_mem_wf {s : State} (hs : s.mem.wf) (p : Span) : (s.drawSpan p).mem.wf := by
  unfold State.drawSpan
  split
  · exact hs
  · rename_i b hb
    exact Memory.wf_set hs (Buffer.wf_writeBytes (Memory.wf_getElem? hs hb) _ _) _

theorem State.drawSpans_mem_wf {s : State} (hs : s.mem.wf) (ps : List Span) : (s.drawSpans ps).mem.wf := by
  induction ps generalizing s with
  | nil => exact hs
  | cons p ps ih => exact ih (State.drawSpan_mem_wf hs p)

theorem State.landAccess_mem_wf {s : State} (hs : s.mem.wf) (e : InFlight) : (s.landAccess e).mem.wf := by
  unfold State.landAccess
  split
  · exact hs
  · split
    · exact hs
    · rename_i b hb
      exact State.drawSpans_mem_wf
        (State.setBuffer_mem_wf hs (Buffer.wf_writeBytes (Memory.wf_getElem? hs hb) _ _) _) _

/-! ### The lengths of the buffers -/

theorem Memory.lens_set {m : Memory} {k : Nat} {b c : Buffer} (h : m[k]? = some b) (hc : c.len = b.len) :
    (m.set k c).map Buffer.len = m.map Buffer.len := by
  obtain ⟨hk, rfl⟩ := List.getElem?_eq_some_iff.mp h
  rw [List.map_set, hc, ← List.getElem_map Buffer.len (h := by simpa using hk), List.set_getElem_self]

@[simp] theorem State.drawSpan_lens (s : State) (p : Span) :
    (s.drawSpan p).mem.map Buffer.len = s.mem.map Buffer.len := by
  unfold State.drawSpan
  split
  · rfl
  · rename_i b hb
    exact Memory.lens_set hb (Buffer.writeBytes_len ..)

@[simp] theorem State.drawSpans_lens (s : State) (ps : List Span) :
    (s.drawSpans ps).mem.map Buffer.len = s.mem.map Buffer.len := by
  induction ps generalizing s with
  | nil => rfl
  | cons p ps ih => exact (ih (s.drawSpan p)).trans (State.drawSpan_lens s p)

@[simp] theorem State.landAccess_lens (s : State) (e : InFlight) :
    (s.landAccess e).mem.map Buffer.len = s.mem.map Buffer.len := by
  unfold State.landAccess
  split
  · rfl
  · split
    · rfl
    · rename_i b hb
      exact (State.drawSpans_lens ..).trans (Memory.lens_set hb (Buffer.writeBytes_len ..))

/-- Whether the bytes of an access exist depends on the lengths of the buffers alone. -/
theorem AgentAccess.exists_congr {a : AgentAccess} {m m' : Memory} (h : m'.map Buffer.len = m.map Buffer.len) :
    a.exists m' = a.exists m := by
  have hk : (m'[a.span.buf]?).map Buffer.len = (m[a.span.buf]?).map Buffer.len := by
    rw [← List.getElem?_map, ← List.getElem?_map, h]
  unfold AgentAccess.exists
  cases hb : m[a.span.buf]? <;> cases hb' : m'[a.span.buf]? <;> simp_all

/-- One drawn range: the buffers and their lengths stay, and every byte outside the range stays. -/
theorem State.drawSpan_getElem? (s : State) (p : Span) (k : Nat) :
    (s.drawSpan p).mem[k]? =
      (s.mem[k]?).map (fun b =>
        if k = p.buf then
          b.writeBytes p.start (drawBytes s.draws (min (p.start + p.len) b.len - p.start))
        else b) := by
  unfold State.drawSpan
  cases hb : s.mem[p.buf]? with
  | none =>
    dsimp only
    by_cases hk : k = p.buf
    · subst hk; simp [hb]
    · simp [hk]
  | some b =>
    dsimp only
    by_cases hk : k = p.buf
    · subst hk
      obtain ⟨hlt, hget⟩ := List.getElem?_eq_some_iff.mp hb
      simp [hlt, hget]
    · simp [Ne.symm hk, hk]

end Sys2Proof.Machine
end

