-- ==== Sys2Proof/Laws/Operands.lean ====
section
/-! SUPPORT. One spec lemma per operand function: which byte or bit of its result is which byte or bit of its input. -/

namespace Sys2Proof

theorem Width.bytes_pos (w : Width) : 0 < w.bytes := by cases w <;> decide

theorem Width.bytes_le (w : Width) : w.bytes ≤ 32 := by cases w <;> decide

theorem Width.bits_eq (w : Width) : w.bits = 8 * w.bytes := by cases w <;> rfl

namespace Machine

/-! ### Bytes of a value -/

theorem byteAt_getLsbD (v : Value) (k j : Nat) : (byteAt v k).getLsbD j = (decide (j < 8) && v.getLsbD (8 * k + j)) := by
  simp [byteAt]

/-- A value is its 32 bytes. -/
theorem value_eq_of_bytes {u v : Value} (h : ∀ k < 32, byteAt u k = byteAt v k) : u = v := by
  apply BitVec.eq_of_getLsbD_eq
  intro i hi
  have hb := congrArg (fun x => x.getLsbD (i % 8)) (h (i / 8) (by omega))
  have hm : i % 8 < 8 := Nat.mod_lt _ (by decide)
  simpa only [byteAt_getLsbD, hm, decide_true, Bool.true_and, Nat.div_add_mod] using hb

theorem byteAt_zero (k : Nat) : byteAt 0 k = 0 := by
  apply BitVec.eq_of_getLsbD_eq
  intro i _
  simp [byteAt_getLsbD]

theorem byteAt_of_ge (v : Value) {k : Nat} (hk : 32 ≤ k) : byteAt v k = 0 := by
  apply BitVec.eq_of_getLsbD_eq
  intro i _
  rw [byteAt_getLsbD, BitVec.getLsbD_of_ge v (8 * k + i) (by omega)]
  simp

/-! ### packBytes -/

@[simp] theorem packBytes_length (n : Nat) (v : Value) (e : Endian) : (packBytes n v e).length = n := by
  simp [packBytes]

/-- Byte i of an image (40_width_codec.md R65). -/
theorem packBytes_getD (n : Nat) (v : Value) (e : Endian) (i : Nat) :
    (packBytes n v e).getD i 0 =
      if i < n then (match e with | .le => byteAt v i | .be => byteAt v (n - 1 - i)) else 0 := by
  by_cases hi : i < n
  · cases e <;> simp [packBytes, hi]
  · cases e <;> simp [packBytes, hi]

/-! ### unpackBytes -/

/-- Byte j of the pattern a list spells, least significant byte first (40_width_codec.md R66). -/
theorem byteAt_fromLittle (xs : List Byte) (j : Nat) :
    byteAt (fromLittle xs) j = if j < 32 then xs.getD j 0 else 0 := by
  by_cases hj : j < 32
  · rw [if_pos hj]
    induction xs generalizing j with
    | nil => exact byteAt_zero j
    | cons x xs ih =>
      apply BitVec.eq_of_getLsbD_eq
      intro i hi
      rw [byteAt_getLsbD, fromLittle, BitVec.getLsbD_or, BitVec.getLsbD_shiftLeft, BitVec.getLsbD_setWidth]
      cases j with
      | zero =>
        have h1 : 0 + i < 256 := by omega
        simp [hi, show i < 256 by omega]
      | succ j =>
        have ih' := congrArg (fun y => y.getLsbD i) (ih j (by omega))
        simp only [byteAt_getLsbD, hi, decide_true, Bool.true_and] at ih'
        have hx : x.getLsbD (8 * (j + 1) + i) = false := BitVec.getLsbD_of_ge x _ (by omega)
        have h2 : ¬ 8 * (j + 1) + i < 8 := by omega
        have h3 : 8 * (j + 1) + i < 256 := by omega
        have h4 : 8 * (j + 1) + i - 8 = 8 * j + i := by omega
        rw [hx, h4, ih']
        simp [h2, h3, hi]
  · rw [if_neg hj, byteAt_of_ge _ (Nat.not_lt.mp hj)]

/-- Byte j of the pattern a list of at most 32 bytes spells in a byte order (40_width_codec.md R66). -/
theorem byteAt_unpackBytes (xs : List Byte) (e : Endian) (hx : xs.length ≤ 32) (j : Nat) :
    byteAt (unpackBytes xs e) j =
      if j < xs.length then (match e with | .le => xs.getD j 0 | .be => xs.getD (xs.length - 1 - j) 0) else 0 := by
  by_cases hj : j < xs.length
  · have h32 : j < 32 := by omega
    cases e with
    | le => simp [unpackBytes, byteAt_fromLittle, h32, hj]
    | be =>
      have hrev : xs.length - 1 - j < xs.length := by omega
      simp [unpackBytes, byteAt_fromLittle, h32, hj, hrev]
  · cases e <;> simp [unpackBytes, byteAt_fromLittle, hj]

/-! ### placeAt and reconcile -/

@[simp] theorem zeros_length (n : Nat) : (zeros n).length = n := by simp [zeros]

theorem placeAt_length (xs : List Byte) (a : Nat) (ys : List Byte) (h : a + ys.length ≤ xs.length) :
    (placeAt xs a ys).length = xs.length := by
  simp [placeAt]; omega

/-- Byte i after a slice is replaced. -/
theorem placeAt_getD (xs : List Byte) (a : Nat) (ys : List Byte) (h : a + ys.length ≤ xs.length) (i : Nat) :
    (placeAt xs a ys).getD i 0 = if a ≤ i ∧ i < a + ys.length then ys.getD (i - a) 0 else xs.getD i 0 := by
  have ha : (xs.take a).length = a := by simp; omega
  by_cases h1 : i < a
  · have hc : ¬ (a ≤ i ∧ i < a + ys.length) := by omega
    rw [if_neg hc]
    simp [placeAt, List.getElem?_append, h1, show i < xs.length by omega]
  · by_cases h2 : i < a + ys.length
    · rw [if_pos ⟨by omega, h2⟩]
      have h3 : i - a < ys.length := by omega
      simp [placeAt, List.getElem?_append, h1, show min a xs.length = a by omega, h3]
    · rw [if_neg (by omega)]
      have h3 : ¬ i - a < ys.length := by omega
      have h4 : a + ys.length + (i - a - ys.length) = i := by omega
      simp [placeAt, List.getElem?_append, h1, show min a xs.length = a by omega, h3, h4]

theorem reconcile_length (av : List Byte) (m : Nat) (e : Endian) (h : av.length ≤ m) :
    (reconcile av m e).length = m := by
  cases e <;> simp only [reconcile] <;> rw [placeAt_length] <;> simp <;> omega

/-- `RECONCILE(av, m, LE) = av ++ zeros(m-a)` (41_length_reconciliation.md R91). -/
theorem reconcile_le (av : List Byte) (m : Nat) : reconcile av m .le = av ++ zeros (m - av.length) := by
  simp [reconcile, placeAt, zeros]

/-- `RECONCILE(av, m, BE) = zeros(m-a) ++ av` (41_length_reconciliation.md R91). -/
theorem reconcile_be {av : List Byte} {m : Nat} (h : av.length ≤ m) :
    reconcile av m .be = zeros (m - av.length) ++ av := by
  simp [reconcile, placeAt, zeros, Nat.sub_add_cancel h]

/-! ### Limbs -/

theorem limb_getLsbD (k j : Nat) (v : Value) (i : Nat) :
    (limb k j v).getLsbD i = (decide (i < 64) && v.getLsbD (64 * (k - 1 - j) + i)) := by
  simp [limb]

/-- Byte i of a limb is a byte of the value (42_extended_composer.md R97). -/
theorem byteAt_limb (k j : Nat) (v : Value) (i : Nat) :
    byteAt ((limb k j v).setWidth 256) i = if i < 8 then byteAt v (8 * (k - 1 - j) + i) else 0 := by
  apply BitVec.eq_of_getLsbD_eq
  intro l hl
  by_cases hi : i < 8
  · have h1 : 8 * i + l < 64 := by omega
    have h2 : 8 * i + l < 256 := by omega
    have h3 : 64 * (k - 1 - j) + (8 * i + l) = 8 * (8 * (k - 1 - j) + i) + l := by omega
    rw [if_pos hi, byteAt_getLsbD, byteAt_getLsbD, BitVec.getLsbD_setWidth, limb_getLsbD, h3]
    simp only [hl, h1, h2, decide_true, Bool.true_and]
  · have h1 : ¬ 8 * i + l < 64 := by omega
    simp [byteAt_getLsbD, limb_getLsbD, hi, h1]

@[simp] theorem packLimb_length (l : Limb) (e : Endian) : (packLimb l e).length = 8 := by simp [packLimb]

/-! ### The resolver -/

@[simp] theorem resolve_some (s : State) (e : Endian) : s.resolve (some e) = e := rfl

theorem resolve_none (s : State) : s.resolve none = if s.defaultLE then .le else .be := rfl

end Machine

end Sys2Proof
end

