-- ==== Sys2Proof/Laws/Codec.lean ====
section
/-! SUPPORT. What the shared procedures and a step can do, said once: one equation per case of ENC_W, ENCA_W, DEC_W,
EXPT_W and of serving an input, and the inversion of `exec` that later proofs cite instead of unfolding it. -/

namespace Sys2Proof.Machine

/-! ### The 35 meanings are five procedures -/

/-- Every meaning is the procedure of its operation at its width and endianness (30_encoding.md R59). -/
theorem exec_eq (i : Instr) (s : State) :
    exec i s =
      match i.op with
      | .enc => encodeInPlace i.width i.explicit s
      | .enca => encodeFresh i.width i.explicit s
      | .dec => decodeBuffer i.width i.explicit s
      | .expt => exportTrimmed i.width i.explicit s
      | .qend => queryDefault s := by
  cases i <;> rfl

/-! ### ENC_W -/

section
variable {s : State} {r : Request} {w : Width} {x : Option Endian} {k : Nat} {b : Buffer}

theorem encodeInPlace_absent (hr : s.request = some r) (hb : s.mem.caller r.buf = none) :
    encodeInPlace w x s = .next (s.raise .invalidArgument) := by
  simp [encodeInPlace, State.withRequest, hr, hb]

theorem encodeInPlace_outOfRange (hr : s.request = some r) (hb : s.mem.caller r.buf = some (k, b))
    (h : b.len < r.offset.toNat + w.bytes) :
    encodeInPlace w x s = .next (s.raiseOutOfRange k b r.offset.toNat) := by
  simp [encodeInPlace, State.withRequest, hr, hb, h]

theorem encodeInPlace_writes (hr : s.request = some r) (hb : s.mem.caller r.buf = some (k, b))
    (h : r.offset.toNat + w.bytes ≤ b.len) :
    encodeInPlace w x s =
      .next ((s.setBuffer k (b.writePieces r.offset.toNat (pieces w r.value (s.resolve x)))).respond none none) := by
  simp [encodeInPlace, State.withRequest, hr, hb, Nat.not_lt.mpr h]

/-- Everything ENC_W can do when it answers a next state. -/
theorem encodeInPlace_cases {t : State} (h : encodeInPlace w x s = .next t) :
    ∃ r, s.request = some r ∧
      ((s.mem.caller r.buf = none ∧ t = s.raise .invalidArgument) ∨
        ∃ k b, s.mem.caller r.buf = some (k, b) ∧
          ((b.len < r.offset.toNat + w.bytes ∧ t = s.raiseOutOfRange k b r.offset.toNat) ∨
            (r.offset.toNat + w.bytes ≤ b.len ∧
              t = (s.setBuffer k (b.writePieces r.offset.toNat (pieces w r.value (s.resolve x)))).respond
                none none))) := by
  cases hr : s.request with
  | none => simp [encodeInPlace, State.withRequest, hr] at h
  | some r =>
    refine ⟨r, rfl, ?_⟩
    cases hb : s.mem.caller r.buf with
    | none =>
      rw [encodeInPlace_absent hr hb] at h
      exact .inl ⟨rfl, (Host.Outcome.next.inj h).symm⟩
    | some kb =>
      obtain ⟨k, b⟩ := kb
      refine .inr ⟨k, b, rfl, ?_⟩
      by_cases hlt : b.len < r.offset.toNat + w.bytes
      · rw [encodeInPlace_outOfRange hr hb hlt] at h
        exact .inl ⟨hlt, (Host.Outcome.next.inj h).symm⟩
      · rw [encodeInPlace_writes hr hb (Nat.not_lt.mp hlt)] at h
        exact .inr ⟨Nat.not_lt.mp hlt, (Host.Outcome.next.inj h).symm⟩

/-! ### ENCA_W and EXPT_W -/

theorem encodeFresh_answers (hr : s.request = some r) :
    encodeFresh w x s = .next (s.respond none (some (image w r.value (s.resolve x)))) := by
  simp [encodeFresh, State.withRequest, hr]

theorem encodeFresh_cases {t : State} (h : encodeFresh w x s = .next t) :
    ∃ r, s.request = some r ∧ t = s.respond none (some (image w r.value (s.resolve x))) := by
  cases hr : s.request with
  | none => simp [encodeFresh, State.withRequest, hr] at h
  | some r =>
    rw [encodeFresh_answers hr] at h
    exact ⟨r, rfl, (Host.Outcome.next.inj h).symm⟩

theorem exportTrimmed_answers (hr : s.request = some r) :
    exportTrimmed w x s =
      .next (s.respond none (some (trim (image w r.value (s.resolve x)) (s.resolve x)))) := by
  simp [exportTrimmed, State.withRequest, hr]

theorem exportTrimmed_cases {t : State} (h : exportTrimmed w x s = .next t) :
    ∃ r, s.request = some r ∧
      t = s.respond none (some (trim (image w r.value (s.resolve x)) (s.resolve x))) := by
  cases hr : s.request with
  | none => simp [exportTrimmed, State.withRequest, hr] at h
  | some r =>
    rw [exportTrimmed_answers hr] at h
    exact ⟨r, rfl, (Host.Outcome.next.inj h).symm⟩

/-! ### DEC_W -/

theorem decodeBuffer_absent (hr : s.request = some r) (hb : s.mem.caller r.buf = none) :
    decodeBuffer w x s = .next (s.raise .invalidArgument) := by
  simp [decodeBuffer, State.withRequest, hr, hb]

theorem decodeBuffer_empty (hr : s.request = some r) (hb : s.mem.caller r.buf = some (k, b)) (h : b.len = 0) :
    decodeBuffer w x s = .next (s.respond (some 0) none) := by
  simp [decodeBuffer, State.withRequest, hr, hb, h]

theorem decodeBuffer_pastEnd (hr : s.request = some r) (hb : s.mem.caller r.buf = some (k, b)) (h0 : b.len ≠ 0)
    (h : b.len ≤ r.offset.toNat) : decodeBuffer w x s = .next (s.raise .invalidState) := by
  simp [decodeBuffer, State.withRequest, hr, hb, h0, h]

theorem decodeBuffer_reads (hr : s.request = some r) (hb : s.mem.caller r.buf = some (k, b))
    (h : r.offset.toNat < b.len) :
    decodeBuffer w x s =
      .next (s.respond
        (some (readImage w (decodeInput w (s.resolve x) b r.offset.toNat) (s.resolve x))) none) := by
  have h0 : b.len ≠ 0 := by omega
  simp [decodeBuffer, State.withRequest, hr, hb, h0, Nat.not_le.mpr h]

/-- Everything DEC_W can do when it answers a next state (40_width_codec.md R69). -/
theorem decodeBuffer_cases {t : State} (h : decodeBuffer w x s = .next t) :
    ∃ r, s.request = some r ∧
      ((s.mem.caller r.buf = none ∧ t = s.raise .invalidArgument) ∨
        ∃ k b, s.mem.caller r.buf = some (k, b) ∧
          ((b.len = 0 ∧ t = s.respond (some 0) none) ∨
            (b.len ≠ 0 ∧ b.len ≤ r.offset.toNat ∧ t = s.raise .invalidState) ∨
              (r.offset.toNat < b.len ∧
                t = s.respond
                  (some (readImage w (decodeInput w (s.resolve x) b r.offset.toNat) (s.resolve x))) none))) := by
  cases hr : s.request with
  | none => simp [decodeBuffer, State.withRequest, hr] at h
  | some r =>
    refine ⟨r, rfl, ?_⟩
    cases hb : s.mem.caller r.buf with
    | none =>
      rw [decodeBuffer_absent hr hb] at h
      exact .inl ⟨rfl, (Host.Outcome.next.inj h).symm⟩
    | some kb =>
      obtain ⟨k, b⟩ := kb
      refine .inr ⟨k, b, rfl, ?_⟩
      by_cases h0 : b.len = 0
      · rw [decodeBuffer_empty hr hb h0] at h
        exact .inl ⟨h0, (Host.Outcome.next.inj h).symm⟩
      · by_cases hle : b.len ≤ r.offset.toNat
        · rw [decodeBuffer_pastEnd hr hb h0 hle] at h
          exact .inr (.inl ⟨h0, hle, (Host.Outcome.next.inj h).symm⟩)
        · rw [decodeBuffer_reads hr hb (Nat.not_le.mp hle)] at h
          exact .inr (.inr ⟨Nat.not_le.mp hle, (Host.Outcome.next.inj h).symm⟩)

end

/-- The input of a decode always has exactly n bytes (41_length_reconciliation.md R92). -/
theorem decodeInput_length (w : Width) (e : Endian) (b : Buffer) (offset : Nat) :
    (decodeInput w e b offset).length = w.bytes := by
  unfold decodeInput
  split
  · exact Buffer.readBytes_length ..
  · exact reconcile_length _ _ _ (by rw [Buffer.readBytes_length]; omega)

/-! ### Serving an input -/

theorem runCommand_illegal {r : Request} {e : DecodeError} (h : decode r.cmd = .error e) (s : State) :
    runCommand r s = .next ((s.latch r).raise .illegalCommand) := by
  simp [runCommand, h]

theorem runCommand_legal {r : Request} {i : Instr} (h : decode r.cmd = .ok i) (s : State) :
    runCommand r s = exec i (s.latch r) := by
  simp [runCommand, h]

@[simp] theorem andThen_next (t : State) (f : State → Outcome) : andThen (.next t) f = f t := rfl

/-- Going on gives a next state exactly when both parts do. -/
theorem andThen_eq_next {o : Outcome} {f : State → Outcome} {u : State} :
    andThen o f = .next u ↔ ∃ t, o = .next t ∧ f t = .next u := by
  cases o with
  | next t => simp
  | fault e => simp [andThen]
  | refused x => simp [andThen]

/-- Everything an event of another agent leaves unchanged. -/
theorem agentEvent_keeps {own : List Claim} {e : AgentEvent} {s t : State} (h : agentEvent own e s = .next t) :
    t.phase = s.phase ∧ t.defaultLE = s.defaultLE ∧ t.seq = s.seq ∧ t.request = s.request ∧
      t.response = s.response ∧ t.pending = s.pending ∧ t.mem.map Buffer.len = s.mem.map Buffer.len ∧
      (s.mem.wf → t.mem.wf) := by
  cases e with
  | begins n a =>
    simp only [agentEvent] at h
    split at h
    · cases h; simp
    · cases h
  | returns n =>
    simp only [agentEvent] at h
    split at h
    · cases h; simp
    · cases h; simpa using fun hs => State.landAccess_mem_wf hs _
  | isCut n =>
    simp only [agentEvent] at h
    split at h
    · cases h; simp
    · cases h; simpa using fun hs => State.drawSpan_mem_wf hs _

/-- The same of several events. -/
theorem agentEvents_keeps {own : List Claim} {es : List AgentEvent} {s t : State}
    (h : agentEvents own es s = .next t) :
    t.phase = s.phase ∧ t.defaultLE = s.defaultLE ∧ t.seq = s.seq ∧ t.request = s.request ∧
      t.response = s.response ∧ t.pending = s.pending ∧ t.mem.map Buffer.len = s.mem.map Buffer.len ∧
      (s.mem.wf → t.mem.wf) := by
  induction es generalizing s with
  | nil => cases h; simp
  | cons e es ih =>
    obtain ⟨u, hu, ht⟩ := andThen_eq_next.mp h
    obtain ⟨a₁, a₂, a₃, a₄, a₅, a₆, a₇, a₈⟩ := agentEvent_keeps hu
    obtain ⟨b₁, b₂, b₃, b₄, b₅, b₆, b₇, b₈⟩ := ih ht
    exact ⟨b₁.trans a₁, b₂.trans a₂, b₃.trans a₃, b₄.trans a₄, b₅.trans a₅, b₆.trans a₆, b₇.trans a₇, b₈ ∘ a₈⟩

theorem begunIn_cons_subset (e : AgentEvent) (es : List AgentEvent) : begunIn es ⊆ begunIn (e :: es) := by
  intro a ha
  cases e with
  | begins n b => exact List.mem_cons_of_mem b ha
  | returns n => exact ha
  | isCut n => exact ha

/-- Events about accesses to existing bytes are never refused. -/
theorem agentEvents_answers (own : List Claim) {es : List AgentEvent} {s : State}
    (h : ∀ a ∈ begunIn es, a.exists s.mem = true) : ∃ t, agentEvents own es s = .next t := by
  induction es generalizing s with
  | nil => exact ⟨s, rfl⟩
  | cons e es ih =>
    obtain ⟨u, hu⟩ : ∃ u, agentEvent own e s = .next u := by
      cases e with
      | begins n a => exact ⟨_, if_pos (h a (List.mem_cons_self ..))⟩
      | returns n => cases ho : s.oldestOf n <;> simp [agentEvent, ho]
      | isCut n => cases ho : s.oldestOf n <;> simp [agentEvent, ho]
    have hl := (agentEvent_keeps hu).2.2.2.2.2.2.1
    obtain ⟨t, ht⟩ := ih (s := u) fun a hm =>
      (AgentAccess.exists_congr hl).trans (h a (begunIn_cons_subset e es hm))
    exact ⟨t, andThen_eq_next.mpr ⟨u, hu, ht⟩⟩

/-- A command beside accesses in flight that share no byte with its span is just the command. -/
theorem serveCommand_alone {r : Request} {s : State}
    (h : ∀ p ∈ ownClaim s.mem r, ∀ e ∈ s.inFlight, p.contested e.access.claim = [] ∧ e.access.claim.contested p = []) :
    serveCommand r [] s = runCommand r s := by
  have hm : s.meet (ownClaim s.mem r).toList = s := by
    cases hp : ownClaim s.mem r with
    | none => exact State.meet_nil s
    | some p =>
      have he : s.inFlight.map (fun e => { e with raced := e.raced ++ [p].flatMap e.access.claim.contested }) =
          s.inFlight := by
        refine (List.map_congr_left fun e he => ?_).trans (List.map_id _)
        simp [(h p hp e he).2]
      show ({ s with inFlight := _ } : State) = s
      rw [Option.toList_some, he]
  have hr : s.commandRaces (ownClaim s.mem r).toList [] = [] := by
    cases hp : ownClaim s.mem r with
    | none => rfl
    | some p =>
      simp only [State.commandRaces, Option.toList_some, List.flatMap_cons, List.flatMap_nil, List.append_nil,
        State.races, begunIn, List.filterMap_nil, List.flatMap_eq_nil_iff]
      exact fun e he => (h p hp e he).1
  unfold serveCommand whileInProgress
  dsimp only
  rw [hm, hr]
  simp only [agentEvents, andThen_next, State.drawSpans_nil]
  cases runCommand r s <;> rfl

/-- A command with no access of another agent in flight and none beginning is just the command. -/
theorem serveCommand_noneInFlight {r : Request} {s : State} (h : s.inFlight = []) :
    serveCommand r [] s = runCommand r s :=
  serveCommand_alone (by rw [h]; simp)

theorem step_resetting {s : State} (h : s.phase = .resetting) : step s = .next s.finishReset := by
  simp [step, advance, h]

theorem step_idle {s : State} (h : s.phase = .running) (hp : s.pending = []) : step s = .next s := by
  simp [step, advance, h, hp]

theorem step_serves {s : State} {input : HostInput} {rest : List HostInput} (h : s.phase = .running)
    (hp : s.pending = input :: rest) : step s = serve input { s with pending := rest } := by
  simp [step, advance, h, hp]

/-- Everything a step can be. -/
theorem step_cases (s : State) :
    (s.phase = .resetting ∧ step s = .next s.finishReset) ∨
      (s.phase = .running ∧ s.pending = [] ∧ step s = .next s) ∨
        ∃ input rest, s.phase = .running ∧ s.pending = input :: rest ∧
          step s = serve input { s with pending := rest } := by
  by_cases h : s.phase = .resetting
  · exact .inl ⟨h, step_resetting h⟩
  · have hrun : s.phase = .running := by
      cases hp : s.phase with
      | resetting => exact absurd hp h
      | running => rfl
    rcases hp : s.pending with _ | ⟨input, rest⟩
    · exact .inr (.inl ⟨hrun, rfl, step_idle hrun hp⟩)
    · exact .inr (.inr ⟨input, rest, hrun, rfl, step_serves hrun hp⟩)

end Sys2Proof.Machine
end

