-- ==== Sys2Proof/Laws/PerInstr.lean ====
section
/-! SUPPORT. The per-instruction family `OpcodeRow`: the word of every command is the one its row of the opcode table
(30_encoding.md R59, spec/opcode_table.json) matches under its mask, and the command is well formed (R55). -/

namespace Sys2Proof

/-- The match and mask of a command's row (30_encoding.md R59). -/
def Laws.OpcodeRow.row : Instr → CmdWord × CmdWord
  | .encU16 _ => (0x1000, 0xFF3F)
  | .encS16 _ => (0x1100, 0xFF3F)
  | .encU32 _ => (0x1200, 0xFF3F)
  | .encS32 _ => (0x1300, 0xFF3F)
  | .encU64 _ => (0x1400, 0xFF3F)
  | .encS64 _ => (0x1500, 0xFF3F)
  | .encU128 _ => (0x1600, 0xFF3F)
  | .encS128 _ => (0x1700, 0xFF3F)
  | .encU256 _ => (0x1800, 0xFF3F)
  | .encS256 _ => (0x1900, 0xFF3F)
  | .encaU16 _ => (0x2000, 0xFF3F)
  | .encaS16 _ => (0x2100, 0xFF3F)
  | .encaU32 _ => (0x2200, 0xFF3F)
  | .encaS32 _ => (0x2300, 0xFF3F)
  | .encaU64 _ => (0x2400, 0xFF3F)
  | .encaS64 _ => (0x2500, 0xFF3F)
  | .encaU128 _ => (0x2600, 0xFF3F)
  | .encaS128 _ => (0x2700, 0xFF3F)
  | .encaU256 _ => (0x2800, 0xFF3F)
  | .encaS256 _ => (0x2900, 0xFF3F)
  | .decU16 _ => (0x3000, 0xFF3F)
  | .decS16 _ => (0x3100, 0xFF3F)
  | .decU32 _ => (0x3200, 0xFF3F)
  | .decS32 _ => (0x3300, 0xFF3F)
  | .decU64 _ => (0x3400, 0xFF3F)
  | .decS64 _ => (0x3500, 0xFF3F)
  | .decU128 _ => (0x3600, 0xFF3F)
  | .decS128 _ => (0x3700, 0xFF3F)
  | .decU256 _ => (0x3800, 0xFF3F)
  | .decS256 _ => (0x3900, 0xFF3F)
  | .exptU128 _ => (0x4600, 0xFF3F)
  | .exptS128 _ => (0x4700, 0xFF3F)
  | .exptU256 _ => (0x4800, 0xFF3F)
  | .exptS256 _ => (0x4900, 0xFF3F)
  | .qend => (0x5000, 0xFFFF)

/-- The word of `i` matches its row, and `i` is well formed. -/
def Laws.OpcodeRow.Statement (i : Instr) : Prop :=
  encode i &&& (Laws.OpcodeRow.row i).2 = (Laws.OpcodeRow.row i).1 ∧ i.wf = true

theorem Laws.OpcodeRow.encU16 (explicit : Option Endian) : Laws.OpcodeRow.Statement (.encU16 explicit) := by
  rcases explicit with _ | _ | _ <;> exact ⟨by decide, by decide⟩

theorem Laws.OpcodeRow.encS16 (explicit : Option Endian) : Laws.OpcodeRow.Statement (.encS16 explicit) := by
  rcases explicit with _ | _ | _ <;> exact ⟨by decide, by decide⟩

theorem Laws.OpcodeRow.encU32 (explicit : Option Endian) : Laws.OpcodeRow.Statement (.encU32 explicit) := by
  rcases explicit with _ | _ | _ <;> exact ⟨by decide, by decide⟩

theorem Laws.OpcodeRow.encS32 (explicit : Option Endian) : Laws.OpcodeRow.Statement (.encS32 explicit) := by
  rcases explicit with _ | _ | _ <;> exact ⟨by decide, by decide⟩

theorem Laws.OpcodeRow.encU64 (explicit : Option Endian) : Laws.OpcodeRow.Statement (.encU64 explicit) := by
  rcases explicit with _ | _ | _ <;> exact ⟨by decide, by decide⟩

theorem Laws.OpcodeRow.encS64 (explicit : Option Endian) : Laws.OpcodeRow.Statement (.encS64 explicit) := by
  rcases explicit with _ | _ | _ <;> exact ⟨by decide, by decide⟩

theorem Laws.OpcodeRow.encU128 (explicit : Option Endian) : Laws.OpcodeRow.Statement (.encU128 explicit) := by
  rcases explicit with _ | _ | _ <;> exact ⟨by decide, by decide⟩

theorem Laws.OpcodeRow.encS128 (explicit : Option Endian) : Laws.OpcodeRow.Statement (.encS128 explicit) := by
  rcases explicit with _ | _ | _ <;> exact ⟨by decide, by decide⟩

theorem Laws.OpcodeRow.encU256 (explicit : Option Endian) : Laws.OpcodeRow.Statement (.encU256 explicit) := by
  rcases explicit with _ | _ | _ <;> exact ⟨by decide, by decide⟩

theorem Laws.OpcodeRow.encS256 (explicit : Option Endian) : Laws.OpcodeRow.Statement (.encS256 explicit) := by
  rcases explicit with _ | _ | _ <;> exact ⟨by decide, by decide⟩

theorem Laws.OpcodeRow.encaU16 (explicit : Option Endian) : Laws.OpcodeRow.Statement (.encaU16 explicit) := by
  rcases explicit with _ | _ | _ <;> exact ⟨by decide, by decide⟩

theorem Laws.OpcodeRow.encaS16 (explicit : Option Endian) : Laws.OpcodeRow.Statement (.encaS16 explicit) := by
  rcases explicit with _ | _ | _ <;> exact ⟨by decide, by decide⟩

theorem Laws.OpcodeRow.encaU32 (explicit : Option Endian) : Laws.OpcodeRow.Statement (.encaU32 explicit) := by
  rcases explicit with _ | _ | _ <;> exact ⟨by decide, by decide⟩

theorem Laws.OpcodeRow.encaS32 (explicit : Option Endian) : Laws.OpcodeRow.Statement (.encaS32 explicit) := by
  rcases explicit with _ | _ | _ <;> exact ⟨by decide, by decide⟩

theorem Laws.OpcodeRow.encaU64 (explicit : Option Endian) : Laws.OpcodeRow.Statement (.encaU64 explicit) := by
  rcases explicit with _ | _ | _ <;> exact ⟨by decide, by decide⟩

theorem Laws.OpcodeRow.encaS64 (explicit : Option Endian) : Laws.OpcodeRow.Statement (.encaS64 explicit) := by
  rcases explicit with _ | _ | _ <;> exact ⟨by decide, by decide⟩

theorem Laws.OpcodeRow.encaU128 (explicit : Option Endian) : Laws.OpcodeRow.Statement (.encaU128 explicit) := by
  rcases explicit with _ | _ | _ <;> exact ⟨by decide, by decide⟩

theorem Laws.OpcodeRow.encaS128 (explicit : Option Endian) : Laws.OpcodeRow.Statement (.encaS128 explicit) := by
  rcases explicit with _ | _ | _ <;> exact ⟨by decide, by decide⟩

theorem Laws.OpcodeRow.encaU256 (explicit : Option Endian) : Laws.OpcodeRow.Statement (.encaU256 explicit) := by
  rcases explicit with _ | _ | _ <;> exact ⟨by decide, by decide⟩

theorem Laws.OpcodeRow.encaS256 (explicit : Option Endian) : Laws.OpcodeRow.Statement (.encaS256 explicit) := by
  rcases explicit with _ | _ | _ <;> exact ⟨by decide, by decide⟩

theorem Laws.OpcodeRow.decU16 (explicit : Option Endian) : Laws.OpcodeRow.Statement (.decU16 explicit) := by
  rcases explicit with _ | _ | _ <;> exact ⟨by decide, by decide⟩

theorem Laws.OpcodeRow.decS16 (explicit : Option Endian) : Laws.OpcodeRow.Statement (.decS16 explicit) := by
  rcases explicit with _ | _ | _ <;> exact ⟨by decide, by decide⟩

theorem Laws.OpcodeRow.decU32 (explicit : Option Endian) : Laws.OpcodeRow.Statement (.decU32 explicit) := by
  rcases explicit with _ | _ | _ <;> exact ⟨by decide, by decide⟩

theorem Laws.OpcodeRow.decS32 (explicit : Option Endian) : Laws.OpcodeRow.Statement (.decS32 explicit) := by
  rcases explicit with _ | _ | _ <;> exact ⟨by decide, by decide⟩

theorem Laws.OpcodeRow.decU64 (explicit : Option Endian) : Laws.OpcodeRow.Statement (.decU64 explicit) := by
  rcases explicit with _ | _ | _ <;> exact ⟨by decide, by decide⟩

theorem Laws.OpcodeRow.decS64 (explicit : Option Endian) : Laws.OpcodeRow.Statement (.decS64 explicit) := by
  rcases explicit with _ | _ | _ <;> exact ⟨by decide, by decide⟩

theorem Laws.OpcodeRow.decU128 (explicit : Option Endian) : Laws.OpcodeRow.Statement (.decU128 explicit) := by
  rcases explicit with _ | _ | _ <;> exact ⟨by decide, by decide⟩

theorem Laws.OpcodeRow.decS128 (explicit : Option Endian) : Laws.OpcodeRow.Statement (.decS128 explicit) := by
  rcases explicit with _ | _ | _ <;> exact ⟨by decide, by decide⟩

theorem Laws.OpcodeRow.decU256 (explicit : Option Endian) : Laws.OpcodeRow.Statement (.decU256 explicit) := by
  rcases explicit with _ | _ | _ <;> exact ⟨by decide, by decide⟩

theorem Laws.OpcodeRow.decS256 (explicit : Option Endian) : Laws.OpcodeRow.Statement (.decS256 explicit) := by
  rcases explicit with _ | _ | _ <;> exact ⟨by decide, by decide⟩

theorem Laws.OpcodeRow.exptU128 (explicit : Option Endian) : Laws.OpcodeRow.Statement (.exptU128 explicit) := by
  rcases explicit with _ | _ | _ <;> exact ⟨by decide, by decide⟩

theorem Laws.OpcodeRow.exptS128 (explicit : Option Endian) : Laws.OpcodeRow.Statement (.exptS128 explicit) := by
  rcases explicit with _ | _ | _ <;> exact ⟨by decide, by decide⟩

theorem Laws.OpcodeRow.exptU256 (explicit : Option Endian) : Laws.OpcodeRow.Statement (.exptU256 explicit) := by
  rcases explicit with _ | _ | _ <;> exact ⟨by decide, by decide⟩

theorem Laws.OpcodeRow.exptS256 (explicit : Option Endian) : Laws.OpcodeRow.Statement (.exptS256 explicit) := by
  rcases explicit with _ | _ | _ <;> exact ⟨by decide, by decide⟩

theorem Laws.OpcodeRow.qend : Laws.OpcodeRow.Statement .qend := ⟨by decide, by decide⟩

end Sys2Proof
end

