-- ==== Sys2Proof/Laws/Run.lean ====
section
/-! SUPPORT. What a run is, step by step (70_reset_and_hazards.md R160). -/

namespace Sys2Proof.Machine

@[simp] theorem putResponsesFirst_next (ps qs : List Response) (t : State) :
    putResponsesFirst ps (.next (t, qs)) = .next (t, ps ++ qs) := rfl

theorem putResponsesFirst_eq_next {ps qs : List Response} {o : RunOutcome} {u : State} :
    putResponsesFirst ps o = .next (u, qs) ↔ ∃ rs, o = .next (u, rs) ∧ qs = ps ++ rs := by
  rcases o with ⟨t, rs⟩ | e | x
  · simp only [putResponsesFirst_next, Host.Outcome.next.injEq, Prod.mk.injEq]
    constructor
    · rintro ⟨rfl, rfl⟩
      exact ⟨rs, ⟨rfl, rfl⟩, rfl⟩
    · rintro ⟨_, ⟨rfl, rfl⟩, rfl⟩
      exact ⟨rfl, rfl⟩
  · simp [putResponsesFirst]
  · simp [putResponsesFirst]

@[simp] theorem runSteps_zero (s : State) : runSteps 0 s = .next (s, []) := rfl

theorem runSteps_succ {s t : State} (n : Nat) (h : step s = .next t) :
    runSteps (n + 1) s = putResponsesFirst (s.returned t) (runSteps n t) := by
  simp only [runSteps, h]

/-- A run that goes on goes through the states of `steps`. -/
theorem steps_of_runSteps {n : Nat} {s u : State} {ps : List Response} (h : runSteps n s = .next (u, ps)) :
    steps n s = .next u := by
  induction n generalizing s ps with
  | zero => cases h; rfl
  | succ n ih =>
    cases hs : step s with
    | fault e => simp [runSteps, hs] at h
    | refused x => simp [runSteps, hs] at h
    | next t =>
      rw [runSteps_succ n hs, putResponsesFirst_eq_next] at h
      obtain ⟨rs, hr, -⟩ := h
      simpa [steps, hs, andThen] using ih hr

/-- A step that serves a command returns its response. -/
theorem State.returned_command {s t : State} {r : Request} {during : List AgentEvent} {rest : List HostInput}
    (h : s.phase = .running) (hp : s.pending = .command r during :: rest) :
    s.returned t = t.response.toList := by
  simp [State.returned, h, hp, HostInput.isAnswered]

/-- A run of commands alone is as long as the sequence. -/
theorem stepsToLastResponse_commands (rs : List Request) :
    stepsToLastResponse (rs.map (fun r => .command r [])) = rs.length := by
  induction rs with
  | nil => rfl
  | cons r rs ih =>
    simp only [List.map_cons, stepsToLastResponse, ih, HostInput.isAnswered, HostInput.stepCount, true_or, if_true,
      List.length_cons]
    omega

end Sys2Proof.Machine
end

