-- ==== Sys2Proof/Tests/Slice0.lean ====
section
/-! SUPPORT. Tests of the model, each from a vector of 95_test_vectors.md or a field table of 30_encoding.md, and for
every statement with hypotheses a witness that meets them together. -/

namespace Sys2Proof.Tests

open Sys2Proof.Machine Sys2Proof.Claims

/-! ### Helpers -/

/-- A request. -/
def requestOf (w : CmdWord) (v : Value) (offset : Nat) (buf : Option Nat) : Request :=
  { cmd := w, value := v, offset := BitVec.ofNat 32 offset, buf := buf }

/-- DEFAULT_LE `le`, these caller buffers, and these inputs pending. -/
def pendingState (le : Bool) (bufs : List (List Byte)) (inputs : List HostInput) : State :=
  { State.resetWith le with mem := bufs.map Buffer.ofBytes, pending := inputs }

/-- One command pending. -/
def ready (le : Bool) (bufs : List (List Byte)) (r : Request) : State :=
  pendingState le bufs [.command r []]

/-- The same state with the request latched, as a meaning finds it. -/
def held (le : Bool) (bufs : List (List Byte)) (r : Request) : State :=
  { pendingState le bufs [] with request := some r }

/-- The next state of an outcome. -/
def nextOf (o : Outcome) : Option State :=
  match o with
  | .next t => some t
  | .fault _ => none
  | .refused _ => none

/-- Whether an outcome is a refusal. -/
def refuses (o : Outcome) : Bool :=
  match o with
  | .next _ => false
  | .fault _ => false
  | .refused _ => true

/-- The buffers and the response after an outcome. -/
def seen (o : Outcome) : Option (List (List Byte) × Option Response) :=
  (nextOf o).map (fun t => (t.mem.map Buffer.toBytes, t.response))

/-- The response after an outcome, where bytes of the buffers are draws. -/
def answer (o : Outcome) : Option Response :=
  (nextOf o).bind (fun t => t.response)

/-- One step of DEFAULT_LE `le` with one command pending. -/
def run (le : Bool) (bufs : List (List Byte)) (r : Request) : Outcome :=
  step (ready le bufs r)

/-- An assembler line. -/
def line (i : Instr) (buf offset : Option Nat) (v : Option AsmValue) : AsmLine :=
  { instr := i, buf := buf, offset := offset, value := v }

/-- Four AA bytes. -/
def fourAA : List Byte := [0xAA, 0xAA, 0xAA, 0xAA]

/-- ENC.U16 of 0x1234 at offset 1, BE: the request most witnesses use. -/
def encRequest : Request := requestOf 0x1080 0x1234 1 (some 0)

/-- That request pending, over four AA bytes with the default BE. -/
def encReady : State := ready false [fourAA] encRequest

/-- The same, after an earlier command. -/
def encReadyLater : State := { encReady with seq := 3, response := some okAlone }

/-- That request latched. -/
def encHeld : State := held false [fourAA] encRequest

/-- Two accesses that overlap it and each other in time, the second ending at BUF_LEN and lasting past the command. -/
def twoAccesses : List AgentEvent := [.begins 1 (.writes 0 1 [7, 8]), .begins 2 (.reads 0 0 4), .returns 1]

/-- That request pending with those accesses, and a reset after it. -/
def encRaced : State := pendingState false [fourAA] [.command encRequest twoAccesses, .reset]

/-- That request pending, while a write to byte 3, past its span, is in flight. -/
def encBeside : State := { encReady with inFlight := [{ agent := 1, access := .writes 0 3 [7], raced := [] }] }

/-- The bytes at these indexes of the first buffer, after a number of steps. -/
def bytesAfter (n : Nat) (s : State) (js : List Nat) : Option (List Byte) :=
  (nextOf (steps n s)).bind (fun t => (t.mem[0]?).map (fun b => js.map b.read))

/-- The bytes 01 to 0A. -/
def oneToTen : List Byte := [1, 2, 3, 4, 5, 6, 7, 8, 9, 10]

/-! ### Well-formed command words (30_encoding.md R55): an ill-formed word for each check -/

theorem test_wf_accepts :
    Instr.wf (.encU32 (some .be)) = true ∧ Instr.wf .qend = true ∧
      (Fields.ofWord 0x4980).legal = true := by
  decide

/-- V-E8. -/
theorem test_wf_refuses_reserved_bits :
    (Fields.ofWord 0x1201).reservedBitsClear = false ∧ (Fields.ofWord 0x1201).legal = false := by
  decide

/-- V-E6. -/
theorem test_wf_refuses_endian_without_select :
    (Fields.ofWord 0x1040).endianSelectOk = false ∧ (Fields.ofWord 0x1040).legal = false := by
  decide

/-- V-E5, V-E11. -/
theorem test_wf_refuses_reserved_op :
    (Fields.ofWord 0x0000).opOk = false ∧ (Fields.ofWord 0x0000).legal = false ∧
      (Fields.ofWord 0x6000).legal = false ∧ (Fields.ofWord 0xF000).legal = false := by
  decide

/-- V-E7, V-E9, V-E10. -/
theorem test_wf_refuses_columns :
    (Fields.ofWord 0x3A00).columnsOk = false ∧ (Fields.ofWord 0x4400).columnsOk = false ∧
      (Fields.ofWord 0x5100).columnsOk = false ∧ (Fields.ofWord 0x5080).columnsOk = false ∧
      (Fields.ofWord 0x5200).columnsOk = false := by
  decide

/-- V-E7, V-E9, V-E10. -/
theorem test_wf_refuses_columns_as_illegal :
    (Fields.ofWord 0x3A00).legal = false ∧ (Fields.ofWord 0x4400).legal = false ∧
      (Fields.ofWord 0x5100).legal = false ∧ (Fields.ofWord 0x5080).legal = false ∧ (Fields.ofWord 0x5200).legal =
        false := by
  decide

/-! ### Decoding: every command by a word written out from the field table, OP WID S ESEL ELE RSV -/

/-- 30_encoding.md R48 to R51, R59. -/
theorem test_decode_enc :
    decode 0b0001_000_0_0_0_000000 = .ok (.encU16 none) ∧
      decode 0b0001_000_1_1_0_000000 = .ok (.encS16 (some .be)) ∧
      decode 0b0001_001_0_1_1_000000 = .ok (.encU32 (some .le)) ∧
      decode 0b0001_001_1_0_0_000000 = .ok (.encS32 none) ∧
      decode 0b0001_010_0_1_0_000000 = .ok (.encU64 (some .be)) ∧
      decode 0b0001_010_1_1_1_000000 = .ok (.encS64 (some .le)) ∧
      decode 0b0001_011_0_0_0_000000 = .ok (.encU128 none) ∧
      decode 0b0001_011_1_1_0_000000 = .ok (.encS128 (some .be)) ∧
      decode 0b0001_100_0_1_1_000000 = .ok (.encU256 (some .le)) ∧
      decode 0b0001_100_1_0_0_000000 = .ok (.encS256 none) := by
  decide

/-- 30_encoding.md R48 to R51, R59. -/
theorem test_decode_enca :
    decode 0b0010_000_0_1_0_000000 = .ok (.encaU16 (some .be)) ∧
      decode 0b0010_000_1_1_1_000000 = .ok (.encaS16 (some .le)) ∧
      decode 0b0010_001_0_0_0_000000 = .ok (.encaU32 none) ∧
      decode 0b0010_001_1_1_0_000000 = .ok (.encaS32 (some .be)) ∧
      decode 0b0010_010_0_1_1_000000 = .ok (.encaU64 (some .le)) ∧
      decode 0b0010_010_1_0_0_000000 = .ok (.encaS64 none) ∧
      decode 0b0010_011_0_1_0_000000 = .ok (.encaU128 (some .be)) ∧
      decode 0b0010_011_1_1_1_000000 = .ok (.encaS128 (some .le)) ∧
      decode 0b0010_100_0_0_0_000000 = .ok (.encaU256 none) ∧
      decode 0b0010_100_1_1_0_000000 = .ok (.encaS256 (some .be)) := by
  decide

/-- 30_encoding.md R48 to R51, R59. -/
theorem test_decode_dec :
    decode 0b0011_000_0_1_1_000000 = .ok (.decU16 (some .le)) ∧
      decode 0b0011_000_1_0_0_000000 = .ok (.decS16 none) ∧
      decode 0b0011_001_0_1_0_000000 = .ok (.decU32 (some .be)) ∧
      decode 0b0011_001_1_1_1_000000 = .ok (.decS32 (some .le)) ∧
      decode 0b0011_010_0_0_0_000000 = .ok (.decU64 none) ∧
      decode 0b0011_010_1_1_0_000000 = .ok (.decS64 (some .be)) ∧
      decode 0b0011_011_0_1_1_000000 = .ok (.decU128 (some .le)) ∧
      decode 0b0011_011_1_0_0_000000 = .ok (.decS128 none) ∧
      decode 0b0011_100_0_1_0_000000 = .ok (.decU256 (some .be)) ∧
      decode 0b0011_100_1_1_1_000000 = .ok (.decS256 (some .le)) := by
  decide

/-- 30_encoding.md R48 to R51, R59. -/
theorem test_decode_expt :
    decode 0b0100_011_0_0_0_000000 = .ok (.exptU128 none) ∧
      decode 0b0100_011_1_1_0_000000 = .ok (.exptS128 (some .be)) ∧
      decode 0b0100_100_0_1_1_000000 = .ok (.exptU256 (some .le)) ∧
      decode 0b0100_100_1_0_0_000000 = .ok (.exptS256 none) := by
  decide

/-- 30_encoding.md R59. -/
theorem test_decode_qend :
    decode 0b0101_000_0_0_0_000000 = .ok .qend := by
  decide

/-- 30_encoding.md R51. -/
theorem test_decode_three_forms :
    decode 0b0001_000_0_0_0_000000 = .ok (.encU16 none) ∧
      decode 0b0001_000_0_1_0_000000 = .ok (.encU16 (some .be)) ∧
      decode 0b0001_000_0_1_1_000000 = .ok (.encU16 (some .le)) := by
  decide

/-- V-E5 to V-E11. -/
theorem test_decode_rejects :
    decode 0x0000 = .error .reservedOp ∧ decode 0x1040 = .error .endianWithoutSelect ∧
      decode 0x3A00 = .error .reservedWidth ∧ decode 0x1201 = .error .reservedBits ∧
      decode 0x4400 = .error .exportWidth ∧ decode 0x5100 = .error .queryFields ∧
      decode 0x5080 = .error .queryFields ∧ decode 0x5200 = .error .queryFields ∧
      decode 0x6000 = .error .reservedOp ∧ decode 0xF000 = .error .reservedOp := by
  decide

/-- V-E1 to V-E4. -/
theorem test_encode_words :
    encode (.encU32 (some .be)) = 0x1280 ∧ encode (.encS32 (some .le)) = 0x13C0 ∧
      encode (.decS256 none) = 0x3900 ∧ encode .qend = 0x5000 := by
  decide

theorem test_table_word :
    decodeTableWord 16 0x1280 = some (.encU32 (some .be)) ∧ decodeTableWord 16 0x3A00 = none ∧
      decodeTableWord 32 0x1280 = none := by
  decide

/-- The very next step after withFetchWord runs the word, from State.reset. -/
theorem test_fetch_word_runs :
    (nextOf (step (State.reset.withFetchWord 16 0x5000))).map (fun t => (t.seq, t.pending)) = some (1, []) ∧
      answer (step (State.reset.withFetchWord 16 0x1000)) = some (errorAlone .invalidArgument) ∧
      answer (step (State.reset.withFetchWord 16 0x2080)) = some (okOut [0, 0]) := by
  decide

/-! ### ENC (95_test_vectors.md, sections 2.2, 2.5) -/

/-- V-W1, V-W2. -/
theorem test_enc_u16 :
    seen (run false [fourAA] (requestOf 0x10C0 0x1234 1 (some 0))) =
        some ([[0xAA, 0x34, 0x12, 0xAA]], some okAlone) ∧
      seen (run false [fourAA] (requestOf 0x1080 0x1234 1 (some 0))) =
        some ([[0xAA, 0x12, 0x34, 0xAA]], some okAlone) := by
  decide

/-- V-W5 (the span ends at BUF_LEN), V-W10 (VALUE above W is ignored). -/
theorem test_enc_u16_corners :
    seen (run false [fourAA] (requestOf 0x10C0 0xBEEF 2 (some 0))) =
        some ([[0xAA, 0xAA, 0xEF, 0xBE]], some okAlone) ∧
      seen (run false [[0, 0]] (requestOf 0x10C0 0x12345 0 (some 0))) = some ([[0x45, 0x23]], some okAlone) := by
  decide

/-- V-W3. -/
theorem test_enc_s32 :
    seen (run false [[0, 0, 0, 0, 0, 0]] (requestOf 0x1380 (BitVec.ofInt 256 (-2)) 2 (some 0))) =
        some ([[0, 0, 0xFF, 0xFF, 0xFF, 0xFE]], some okAlone) := by
  decide

/-- P1, step 0: the default is big-endian. -/
theorem test_enc_u32 :
    seen (run false [[0xAA, 0xAA, 0xAA, 0xAA, 0xAA, 0xAA, 0xAA, 0xAA]] (requestOf 0x1200 0x11223344 0 (some 0))) =
        some ([[0x11, 0x22, 0x33, 0x44, 0xAA, 0xAA, 0xAA, 0xAA]], some okAlone) := by
  decide

/-- V-L1: -32768, both orders. -/
theorem test_enc_s16 :
    seen (run false [[9, 9]] (requestOf 0x1180 (BitVec.ofInt 256 (-32768)) 0 (some 0))) =
        some ([[0x80, 0]], some okAlone) ∧
      seen (run false [[9, 9]] (requestOf 0x11C0 (BitVec.ofInt 256 (-32768)) 0 (some 0))) =
        some ([[0, 0x80]], some okAlone) := by
  decide

/-- V-W4. -/
theorem test_enc_u64 :
    seen (run false [zeros 8] (requestOf 0x14C0 0x0102030405060708 0 (some 0))) =
        some ([[8, 7, 6, 5, 4, 3, 2, 1]], some okAlone) := by
  decide

/-- V-L1: -2^63, BE. -/
theorem test_enc_s64 :
    seen (run true [zeros 8] (requestOf 0x1580 0x8000000000000000 0 (some 0))) =
        some ([0x80 :: zeros 7], some okAlone) := by
  decide

/-- W3, W4. -/
theorem test_enc_u128 :
    seen (run false [zeros 16] (requestOf 0x16C0 (joinLimbs [1, 0]) 0 (some 0))) =
        some ([zeros 8 ++ [1] ++ zeros 7], some okAlone) ∧
      seen (run false [zeros 16] (requestOf 0x1680 (joinLimbs [1, 0]) 0 (some 0))) =
        some ([zeros 7 ++ [1] ++ zeros 8], some okAlone) := by
  decide

set_option maxRecDepth 4000 in
/-- V-C3. -/
theorem test_enc_s128 :
    seen (run false [zeros 20] (requestOf 0x1780 (BitVec.ofInt 256 (-1)) 2 (some 0))) =
        some ([[0, 0] ++ List.replicate 16 0xFF ++ [0, 0]], some okAlone) := by
  decide

set_option maxRecDepth 4000 in
/-- V-C1. -/
theorem test_enc_u256_be :
    seen (run true [zeros 32] (requestOf 0x1880 (joinLimbs [1, 2, 3, 4]) 0 (some 0))) =
        some ([zeros 7 ++ [1] ++ zeros 7 ++ [2] ++ zeros 7 ++ [3] ++ zeros 7 ++ [4]], some okAlone) := by
  decide

set_option maxRecDepth 4000 in
/-- V-C2. -/
theorem test_enc_u256_le :
    seen (run false [zeros 32] (requestOf 0x18C0 (joinLimbs [1, 2, 3, 4]) 0 (some 0))) =
        some ([[4] ++ zeros 7 ++ [3] ++ zeros 7 ++ [2] ++ zeros 7 ++ [1] ++ zeros 7], some okAlone) := by
  decide

set_option maxRecDepth 4000 in
/-- V-L1: S min, LE. -/
theorem test_enc_s256 :
    seen (run false [zeros 32] (requestOf 0x19C0 (joinLimbs [0x8000000000000000, 0, 0, 0]) 0 (some 0))) =
        some ([zeros 31 ++ [0x80]], some okAlone) := by
  decide

set_option maxRecDepth 4000 in
/-- V-W6, V-W8, V-C11: the status. V-W7: no byte can change. -/
theorem test_enc_out_of_range :
    answer (run false [fourAA] (requestOf 0x10C0 1 3 (some 0))) = some (errorAlone .outOfRange) ∧
      answer (run false [[]] (requestOf 0x1000 1 0 (some 0))) = some (errorAlone .outOfRange) ∧
      answer (run true [zeros 31] (requestOf 0x1800 1 0 (some 0))) = some (errorAlone .outOfRange) ∧
      seen (run false [fourAA] (requestOf 0x1200 1 5 (some 0))) =
        some ([fourAA], some (errorAlone .outOfRange)) := by
  decide

/-- V-W6: one draw, BUF_LEN unchanged. -/
theorem test_enc_out_of_range_draws :
    (nextOf (run false [fourAA] (requestOf 0x10C0 1 3 (some 0)))).map (fun t => (t.mem.map Buffer.len, t.draws)) =
      some ([4], 1) := by
  decide

/-- V-W9, V-P3. -/
theorem test_enc_absent :
    seen (run false [] (requestOf 0x1000 1 0 none)) = some ([], some (errorAlone .invalidArgument)) ∧
      seen (run false [] (requestOf 0x1200 1 0 none)) = some ([], some (errorAlone .invalidArgument)) := by
  decide

/-! ### ENCA (sections 2.3, 2.5) -/

/-- V-A1. -/
theorem test_enca_u16 :
    answer (run true [] (requestOf 0x20C0 0xBEEF 0 none)) = some (okOut [0xEF, 0xBE]) := by
  decide

/-- V-A2. -/
theorem test_enca_s16 :
    answer (run true [] (requestOf 0x2180 (BitVec.ofInt 256 (-32768)) 0 none)) = some (okOut [0x80, 0]) := by
  decide

/-- V-A3. -/
theorem test_enca_u32 :
    answer (run true [] (requestOf 0x2280 0xDEADBEEF 0 none)) = some (okOut [0xDE, 0xAD, 0xBE, 0xEF]) := by
  decide

/-- V-A4. -/
theorem test_enca_s32 :
    answer (run false [] (requestOf 0x23C0 (BitVec.ofInt 256 (-2)) 0 none)) =
        some (okOut [0xFE, 0xFF, 0xFF, 0xFF]) := by
  decide

/-- V-A5. -/
theorem test_enca_u64 :
    answer (run true [] (requestOf 0x2480 1 0 none)) = some (okOut (zeros 7 ++ [1])) := by
  decide

/-- V-A6. -/
theorem test_enca_s64 :
    answer (run false [] (requestOf 0x25C0 0x8000000000000000 0 none)) = some (okOut (zeros 7 ++ [0x80])) := by
  decide

/-- V-C4. -/
theorem test_enca_u128 :
    answer (run true [] (requestOf 0x2680 (joinLimbs [0x0102030405060708, 0x090A0B0C0D0E0F10]) 0 none)) =
        some (okOut [1, 2, 3, 4, 5, 6, 7, 8, 9, 10, 11, 12, 13, 14, 15, 16]) := by
  decide

/-- V-L1: S min. -/
theorem test_enca_s128 :
    answer (run false [] (requestOf 0x27C0 (joinLimbs [0x8000000000000000, 0]) 0 none)) =
        some (okOut (zeros 15 ++ [0x80])) := by
  decide

set_option maxRecDepth 4000 in
/-- V-L1: 1. -/
theorem test_enca_u256 :
    answer (run true [] (requestOf 0x2880 1 0 none)) = some (okOut (zeros 31 ++ [1])) := by
  decide

set_option maxRecDepth 4000 in
/-- V-L1: S min. -/
theorem test_enca_s256 :
    answer (run true [] (requestOf 0x2980 (joinLimbs [0x8000000000000000, 0, 0, 0]) 0 none)) =
        some (okOut (0x80 :: zeros 31)) := by
  decide

/-- V-Q1, V-Q2, V-Q3, V-A7 (OFFSET and BUF are not read). -/
theorem test_enca_default :
    answer (run true [] (requestOf 0x2000 0x0102 0 none)) = some (okOut [2, 1]) ∧
      answer (run false [] (requestOf 0x2000 0x0102 9 none)) = some (okOut [1, 2]) ∧
      answer (run true [] (requestOf 0x2080 0x0102 0 none)) = some (okOut [1, 2]) := by
  decide

/-- V-C5. -/
theorem test_enca_u128_le :
    answer (run false [] (requestOf 0x26C0 (joinLimbs [0x0102030405060708, 0x090A0B0C0D0E0F10]) 0 none)) =
        some (okOut [16, 15, 14, 13, 12, 11, 10, 9, 8, 7, 6, 5, 4, 3, 2, 1]) := by
  decide

/-! ### DEC (sections 1, 2.4, 2.5) -/

/-- V-D1, V-D2. -/
theorem test_dec_u16 :
    seen (run false [[0x34, 0x12]] (requestOf 0x30C0 0 0 (some 0))) =
        some ([[0x34, 0x12]], some (okResult 0x1234)) ∧
      seen (run true [[0x34, 0x12]] (requestOf 0x3080 0 0 (some 0))) =
        some ([[0x34, 0x12]], some (okResult 0x3412)) := by
  decide

/-- V-D3, V-D4. -/
theorem test_dec_s16 :
    seen (run false [[0xFE, 0xFF]] (requestOf 0x31C0 0 0 (some 0))) =
        some ([[0xFE, 0xFF]], some (okResult 0xFFFE)) ∧
      seen (run false [[0xFF]] (requestOf 0x31C0 0 0 (some 0))) = some ([[0xFF]], some (okResult 0x00FF)) := by
  decide

/-- V-D6, V-D7. -/
theorem test_dec_u32 :
    seen (run false [[0xAA, 0xBB, 0xCC]] (requestOf 0x32C0 0 1 (some 0))) =
        some ([[0xAA, 0xBB, 0xCC]], some (okResult 0xCCBB)) ∧
      seen (run true [[0xAA, 0xBB, 0xCC]] (requestOf 0x3280 0 1 (some 0))) =
        some ([[0xAA, 0xBB, 0xCC]], some (okResult 0xBBCC)) := by
  decide

/-- W1, W2. -/
theorem test_dec_u32_worked :
    seen (run false [[1, 2]] (requestOf 0x32C0 0 0 (some 0))) = some ([[1, 2]], some (okResult 513)) ∧
      seen (run true [[1, 2]] (requestOf 0x3280 0 0 (some 0))) = some ([[1, 2]], some (okResult 258)) := by
  decide

/-- V-D5. -/
theorem test_dec_s32 :
    seen (run false [[0xFF, 0xFF]] (requestOf 0x3300 0 0 (some 0))) =
        some ([[0xFF, 0xFF]], some (okResult 0xFFFF)) ∧
      seen (run true [[0xFF, 0xFF]] (requestOf 0x3300 0 0 (some 0))) =
        some ([[0xFF, 0xFF]], some (okResult 0xFFFF)) := by
  decide

/-- V-D12, V-D13. -/
theorem test_dec_u64 :
    seen (run false [[1, 2, 3, 4, 5, 6, 7]] (requestOf 0x34C0 0 0 (some 0))) =
        some ([[1, 2, 3, 4, 5, 6, 7]], some (okResult 0x0007060504030201)) ∧
      seen (run true [[1, 2, 3, 4, 5, 6, 7]] (requestOf 0x3480 0 0 (some 0))) =
        some ([[1, 2, 3, 4, 5, 6, 7]], some (okResult 0x0001020304050607)) := by
  decide

/-- V-D11. -/
theorem test_dec_u64_full :
    seen (run false [[8, 7, 6, 5, 4, 3, 2, 1]] (requestOf 0x34C0 0 0 (some 0))) =
        some ([[8, 7, 6, 5, 4, 3, 2, 1]], some (okResult 0x0102030405060708)) := by
  decide

/-- V-D14, V-D15. -/
theorem test_dec_s64 :
    seen (run true [0x80 :: zeros 7] (requestOf 0x3580 0 0 (some 0))) =
        some ([0x80 :: zeros 7], some (okResult 0x8000000000000000)) ∧
      seen (run false [[0xFF, 0xFF, 0xFF, 0xFF]] (requestOf 0x3500 0 0 (some 0))) =
        some ([[0xFF, 0xFF, 0xFF, 0xFF]], some (okResult 0xFFFFFFFF)) := by
  decide

/-- V-C6, V-C7. -/
theorem test_dec_u128 :
    seen (run false [oneToTen] (requestOf 0x36C0 0 0 (some 0))) =
        some ([oneToTen], some (okResult (joinLimbs [0x0A09, 0x0807060504030201]))) ∧
      seen (run true [oneToTen] (requestOf 0x3680 0 0 (some 0))) =
        some ([oneToTen], some (okResult (joinLimbs [0x0102, 0x030405060708090A]))) := by
  decide

/-- V-C9. -/
theorem test_dec_s128 :
    seen (run true [List.replicate 8 0xFF] (requestOf 0x3700 0 0 (some 0))) =
        some ([List.replicate 8 0xFF], some (okResult 0xFFFFFFFFFFFFFFFF)) := by
  decide

/-- V-C8. -/
theorem test_dec_u256 :
    seen (run false [[1, 2, 3, 4]] (requestOf 0x38C0 0 0 (some 0))) =
        some ([[1, 2, 3, 4]], some (okResult 0x04030201)) ∧
      seen (run true [[1, 2, 3, 4]] (requestOf 0x3880 0 0 (some 0))) =
        some ([[1, 2, 3, 4]], some (okResult 0x01020304)) := by
  decide

set_option maxRecDepth 4000 in
/-- V-L1: S min, LE. -/
theorem test_dec_s256 :
    seen (run true [zeros 31 ++ [0x80]] (requestOf 0x39C0 0 0 (some 0))) =
        some ([zeros 31 ++ [0x80]], some (okResult (joinLimbs [0x8000000000000000, 0, 0, 0]))) := by
  decide

set_option maxRecDepth 4000 in
/-- V-C12. -/
theorem test_dec_u128_at_offset :
    seen (run false [[0xAA, 0xAA] ++ zeros 8 ++ [1] ++ zeros 7] (requestOf 0x36C0 0 2 (some 0))) =
        some ([[0xAA, 0xAA] ++ zeros 8 ++ [1] ++ zeros 7], some (okResult 0x10000000000000000)) := by
  decide

/-- V-D8, V-D10, V-C10, V-P2, V-P5. -/
theorem test_dec_errors :
    seen (run false [[0xAA, 0xBB, 0xCC]] (requestOf 0x3200 0 3 (some 0))) =
        some ([[0xAA, 0xBB, 0xCC]], some (errorAlone .invalidState)) ∧
      seen (run false [] (requestOf 0x3000 0 0 none)) = some ([], some (errorAlone .invalidArgument)) ∧
      seen (run false [[0xAA]] (requestOf 0x3900 0 1 (some 0))) =
        some ([[0xAA]], some (errorAlone .invalidState)) ∧
      seen (run false [] (requestOf 0x3200 0 7 none)) = some ([], some (errorAlone .invalidArgument)) ∧
      seen (run false [[0]] (requestOf 0x3200 0 9 (some 0))) = some ([[0]], some (errorAlone .invalidState)) := by
  decide

/-- V-D9, V-P4: an empty buffer wins over the offset. -/
theorem test_dec_empty :
    seen (run false [[]] (requestOf 0x3500 0 5 (some 0))) = some ([[]], some (okResult 0)) ∧
      seen (run false [[]] (requestOf 0x3200 0 9 (some 0))) = some ([[]], some (okResult 0)) := by
  decide

/-- V-D3, V-D4, V-D14; 00_scope.md R4. -/
theorem test_signed_reading :
    resultReading (.decS16 none) 0xFFFE = -2 ∧ resultReading (.decS16 none) 0x00FF = 255 ∧
      resultReading (.decU16 none) 0xFFFE = 65534 ∧ resultReading (.decS64 none) 0x8000000000000000 =
        -9223372036854775808 := by
  decide

/-! ### EXPT (section 2.6) -/

set_option maxRecDepth 4000 in
/-- V-X1, V-X2, V-X3. -/
theorem test_expt_u128 :
    answer (run false [] (requestOf 0x46C0 0x100 0 none)) = some (okOut [0, 1]) ∧
      answer (run false [] (requestOf 0x4680 0x100 0 none)) = some (okOut [1, 0]) ∧
      answer (run false [] (requestOf 0x4600 0 0 none)) = some (okOut [0]) := by
  decide

set_option maxRecDepth 4000 in
/-- V-X4, V-X5. -/
theorem test_expt_s128 :
    answer (run false [] (requestOf 0x4780 (BitVec.ofInt 256 (-1)) 0 none)) =
        some (okOut (List.replicate 16 0xFF)) ∧
      answer (run false [] (requestOf 0x47C0 128 0 none)) = some (okOut [0x80]) := by
  decide

set_option maxRecDepth 4000 in
/-- V-X6, V-X7. -/
theorem test_expt_u256 :
    answer (run false [] (requestOf 0x4880 (joinLimbs [1, 0, 0, 0]) 0 none)) = some (okOut (1 :: zeros 24)) ∧
      answer (run false [] (requestOf 0x48C0 (joinLimbs [1, 0, 0, 0]) 0 none)) =
        some (okOut (zeros 24 ++ [1])) := by
  decide

set_option maxRecDepth 4000 in
/-- V-X8. -/
theorem test_expt_s256 :
    answer (run false [] (requestOf 0x4980 (joinLimbs [0x8000000000000000, 0, 0, 0]) 0 none)) =
        some (okOut (0x80 :: zeros 31)) := by
  decide

/-- V-X9, V-X5: decoding the trimmed image gives the value back. -/
theorem test_dec_of_expt_out :
    seen (run false [[0, 1]] (requestOf 0x36C0 0 0 (some 0))) = some ([[0, 1]], some (okResult 0x100)) ∧
      seen (run false [[0x80]] (requestOf 0x37C0 0 0 (some 0))) = some ([[0x80]], some (okResult 128)) := by
  decide

/-! ### QEND (section 2.7), illegal words (section 2.8) -/

/-- V-Q4, V-Q5. -/
theorem test_qend :
    answer (run true [] (requestOf 0x5000 7 3 none)) = some (okResult 1) ∧
      answer (run false [] (requestOf 0x5000 7 3 none)) = some (okResult 0) := by
  decide

/-- V-P1; P3, steps 6 and 7. -/
theorem test_illegal_word :
    seen (run false [fourAA] (requestOf 0x1201 0 0 none)) =
        some ([fourAA], some (errorAlone .illegalCommand)) ∧
      seen (run false [fourAA] (requestOf 0x3A00 0 0 (some 0))) =
        some ([fourAA], some (errorAlone .illegalCommand)) ∧
      seen (run false [fourAA] (requestOf 0x1040 0 0 (some 0))) =
        some ([fourAA], some (errorAlone .illegalCommand)) := by
  decide

/-! ### The host port -/

/-- 10_state.md R25. -/
theorem test_latches_hold_no_value :
    State.reset.readStatus = .error (.latchHoldsNoValue .status) ∧
      State.reset.readResult = .error (.latchHoldsNoValue .result) ∧ State.reset.readOut =
        .error (.latchHoldsNoValue .out) := by
  decide

/-- 70_reset_and_hazards.md R148, R150, R151. -/
theorem test_reset_in_the_middle :
    (nextOf (step { pendingState true [] [.reset, .command (requestOf 0x5000 0 0 none) []] with seq := 4 })).map
        (fun t => (t.phase, t.seq, t.pending.length)) = some (.resetting, 0, 1) := by
  decide

/-- 20_memory.md R42. -/
theorem test_other_agent_writes :
    (nextOf (steps 2 (pendingState true [fourAA] [.agent (.begins 1 (.writes 0 1 [5, 6])), .agent (.returns 1)]))).map
        (fun t => (t.mem.map Buffer.toBytes, t.inFlight)) = some ([[0xAA, 5, 6, 0xAA]], []) := by
  decide

/-- 20_memory.md R28. -/
theorem test_refusals :
    refuses (step (pendingState true [fourAA] [.agent (.begins 1 (.writes 0 3 [5, 6]))])) = true ∧
      refuses (step (pendingState true [fourAA] [.agent (.begins 1 (.reads 1 0 1))])) = true ∧
      refuses (step (pendingState true [fourAA] [.agent (.begins 1 (.reads 0 4 0))])) = false := by
  decide

/-- 10_state.md R15, 70_reset_and_hazards.md R153, R157. -/
theorem test_provide_and_keep :
    (nextOf (step (pendingState true [[]] [.provide [1, 0, 2]]))).map (fun t => t.mem.map Buffer.toBytes) =
      some [[], [1, 0, 2]] ∧
      (nextOf (step { pendingState true [] [.keepOut] with response := some (okOut [3, 4]) })).map
        (fun t => t.mem.map Buffer.toBytes) = some [[3, 4]] := by
  decide

/-- 20_memory.md R40: byte 1 is contested, drawn when the write returns, before the command and after it. -/
theorem test_race_draws :
    (nextOf (step (pendingState false [fourAA]
      [.command (requestOf 0x1080 0x1234 0 (some 0)) [.begins 1 (.writes 0 1 [7, 8]), .returns 1]]))).map
        (fun t => (t.response, t.mem.map Buffer.len, t.draws)) = some (some okAlone, [4], 3) := by
  decide

/-- 70_reset_and_hazards.md R155: a write that lasts over two commands contests byte 1 with both. -/
theorem test_access_over_two_commands :
    (nextOf (steps 3 (pendingState false [fourAA] [.agent (.begins 1 (.writes 0 1 [7, 8])),
        .command (requestOf 0x1080 0x1234 0 (some 0)) [], .command (requestOf 0x1080 0x5678 0 (some 0)) []]))).map
          (fun t => t.inFlight.map InFlight.raced) =
        some [[{ buf := 0, start := 1, len := 1 }, { buf := 0, start := 1, len := 1 }]] := by
  decide

/-- 20_memory.md R42: the second access begins after the first has returned, during a command and without one. -/
theorem test_ordered_accesses :
    bytesAfter 1 (pendingState false [fourAA] [.command (requestOf 0x5000 0 0 none)
        [.begins 1 (.writes 0 0 [7, 7]), .returns 1, .begins 2 (.writes 0 1 [8, 8]), .returns 2]]) [0, 1, 2, 3] =
          some [7, 8, 8, 0xAA] ∧
      bytesAfter 4 (pendingState false [fourAA] [.agent (.begins 1 (.writes 0 0 [7, 7])), .agent (.returns 1),
        .agent (.begins 1 (.writes 0 1 [8, 8])), .agent (.returns 1)]) [0, 1, 2, 3] = some [7, 8, 8, 0xAA] := by
  decide

/-- 20_memory.md R40: two other agents race while this instance runs no command; byte 1 is drawn at each return. -/
theorem test_agents_race :
    (nextOf (steps 4 (pendingState false [fourAA]
      [.agent (.begins 1 (.writes 0 0 [7, 7])), .agent (.begins 2 (.writes 0 1 [8, 8])),
        .agent (.returns 1), .agent (.returns 2)]))).map (fun t => (t.draws, t.inFlight)) = some (2, []) := by
  decide

/-- 70_reset_and_hazards.md R152 for another instance. -/
theorem test_cut_access :
    (nextOf (steps 2 (pendingState false [fourAA] [.agent (.begins 1 (.reads 0 1 2)), .agent (.isCut 1)]))).map
      (fun t => (t.draws, t.inFlight)) = some (2, []) := by
  decide

/-- 20_memory.md R40: two other agents race during a QEND; byte 1 is drawn at each return. -/
theorem test_agents_race_during_a_command :
    (nextOf (step (pendingState false [fourAA] [.command (requestOf 0x5000 0 0 none)
        [.begins 1 (.writes 0 0 [7, 7]), .begins 2 (.writes 0 1 [8, 8]), .returns 1, .returns 2]]))).map
          (fun t => (t.draws, t.inFlight)) = some (2, []) := by
  decide

/-- Writing 00 removes the cell; an index past the end is no byte. -/
theorem test_canonical_write :
    (Buffer.ofBytes [1, 0, 2]).cells = [(0, 1), (2, 2)] ∧ ((Buffer.ofBytes [1, 0, 2]).write 2 0).cells = [(0, 1)] ∧
      ((Buffer.ofBytes [1, 0, 2]).write 3 9) = Buffer.ofBytes [1, 0, 2] := by
  decide

/-- V-W3, V-D10; 30_encoding.md R61. -/
theorem test_assemble :
    assemble (line (.encS32 (some .be)) (some 0) (some 2) (some (.literal (-2)))) =
        some (requestOf 0x1380 0xFFFFFFFE 2 (some 0)) ∧
      assemble (line (.decU16 none) none none none) = some (requestOf 0x3000 0 0 none) := by
  decide

/-- W3, V-A1, V-D6, V-Q4, V-X6: the forms of 30_encoding.md R61. -/
theorem test_assemble_other_forms :
    (assemble (line (.encU128 none) (some 0) (some 4) (some (.pair 1 0)))).map
        (fun r => (r.cmd, r.offset, r.value)) = some (0x1600, 4, 0x10000000000000000) ∧
      assemble (line (.encaU16 (some .le)) none none (some (.literal 0xBEEF))) =
        some (requestOf 0x20C0 0xBEEF 0 none) ∧
      assemble (line (.decU32 none) (some 0) (some 1) none) = some (requestOf 0x3200 0 1 (some 0)) ∧
      assemble (line .qend none none none) = some (requestOf 0x5000 0 0 none) ∧
      (assemble (line (.exptU256 (some .be)) none none (some (.quad 1 0 0 2)))).map
        (fun r => (r.cmd, r.value)) = some (0x4880, joinLimbs [1, 0, 0, 2]) := by
  decide

/-- 70_reset_and_hazards.md R157: absent, not a fault, once a command has answered. -/
theorem test_absent_out :
    ({ State.resetWith true with response := some okAlone } : State).readOut = .ok none ∧
      ({ State.resetWith true with response := some (okResult 5) } : State).readResult = .ok (some 5) ∧
      ({ State.resetWith true with response := some (errorAlone .outOfRange) } : State).readStatus = .ok 3 := by
  decide

/-! ### Runs (70_reset_and_hazards.md R160) -/

/-- An ENC and a DEC of the bytes it wrote. -/
def runPending : State :=
  pendingState false [fourAA]
    [.command (requestOf 0x1080 0x1234 1 (some 0)) [], .command (requestOf 0x3080 0 1 (some 0)) []]

/-- DEFAULT_LE, the bytes of the buffers and the responses at the end of a run. -/
def endOf (o : Host.Outcome RunEnd Fault Refusal) : Option (Bool × List (List Byte) × List Response) :=
  match o with
  | .next e => some (e.defaultLE, e.mem.map Buffer.toBytes, e.responses)
  | .fault _ => none
  | .refused _ => none

/-- R160: the responses of both commands, though the latches hold the second only; R65, R66 for the bytes. -/
theorem test_run_keeps_every_response :
    endOf runPending.runToEnd = some (false, [[0xAA, 0x12, 0x34, 0xAA]], [okAlone, okResult 0x1234]) := by
  decide

/-- R160: a buffer provided between two commands is there; the input behind the last command is not part of the run.
  -/
theorem test_run_ends_with_the_last_command :
    endOf (pendingState true [] [.command (requestOf 0x5001 0 0 none) [], .provide [1, 2],
        .command (requestOf 0x5000 0 0 none) [], .keepOut]).runToEnd =
        some (true, [[1, 2]], [errorAlone .illegalCommand, okResult 1]) := by
  decide

/-- 70_reset_and_hazards.md R151: held commands run when reset is done. -/
theorem test_run_of_held_commands :
    (match ({ runPending with phase := .resetting } : State).runToEnd with
        | .next e => e.responses
        | .fault _ => []
        | .refused _ => []).length = 2 ∧ ({ State.resetWith true with phase := .resetting } : State).runLength =
          0 := by
  decide

/-! ### Witnesses: for every statement with hypotheses, a state and operands that meet them together -/

theorem witness_DecodeAndEncodeAreInverse :
    decode 0x13C0 = .ok (.encS32 (some .le)) := by
  decide

theorem witness_LegalWordsAreTheTableOfLegalWords :
    decode 0x4980 = .ok (.exptS256 (some .be)) ∧
      (Fields.ofWord 0x4980).legal = true ∧
      (Fields.ofWord 0x4A00).legal = false := by
  decide

/-- The premise `runsAlone` is witnessed by encBeside_runsAlone. -/
theorem witness_StepRunsTheDecodedCommand :
    encReady.phase = .running ∧
      encReady.pending = [.command encRequest []] ∧
      decode encRequest.cmd = .ok (.encU16 (some .be)) := by
  decide

theorem witness_IllegalWordHasNoOtherEffect :
    (ready true [fourAA] (requestOf 0x1201 0 0 none)).phase = .running ∧
      (ready true [fourAA] (requestOf 0x1201 0 0 none)).pending = [.command (requestOf 0x1201 0 0 none) []] ∧
      (Fields.ofWord (requestOf 0x1201 0 0 none).cmd).legal = false := by
  decide

/-- Two overlapping accesses, the second ending at BUF_LEN. -/
theorem witness_EveryAcceptedCommandCompletes :
    encRaced.phase = .running ∧
      encRaced.pending = [.command encRequest twoAccesses, .reset] ∧
      beginInBuffers twoAccesses encRaced.mem ∧
      begunIn twoAccesses = [.writes 0 1 [7, 8], .reads 0 0 4] := by
  decide

theorem witness_InputsAreServedInIssueOrder :
    encRaced.phase = .running ∧
      (nextOf (step encRaced)).isSome = true ∧
      (nextOf (step (pendingState false [] [.provide [1], .keepOut]))).isSome = true ∧
      (nextOf (step (pendingState false [] [.cutByReset encRequest []]))).isSome = true := by
  decide

theorem witness_IdleStepChangesNothing :
    (State.resetWith true).phase = .running ∧
      (State.resetWith true).pending = [] := by
  decide

/-- Each status, at the offsets where two clauses meet. -/
theorem witness_StatusFollowsTheOrderOfChecks :
    encReady.phase = .running ∧
      expectedStatus encReady.mem encRequest = .ok ∧
      expectedStatus [Buffer.ofBytes fourAA] (requestOf 0x1080 0 3 (some 0)) = .outOfRange ∧
      expectedStatus [Buffer.ofBytes fourAA] (requestOf 0x1080 0 2 (some 0)) = .ok ∧
      expectedStatus [Buffer.ofBytes fourAA] (requestOf 0x3080 0 4 (some 0)) = .invalidState ∧
      expectedStatus [Buffer.ofBytes fourAA] (requestOf 0x3080 0 3 (some 0)) = .ok ∧
      expectedStatus [Buffer.ofBytes []] (requestOf 0x3080 0 4 (some 0)) = .ok ∧
      expectedStatus [] (requestOf 0x3080 0 4 none) = .invalidArgument ∧
      expectedStatus [] (requestOf 0x3081 0 4 none) = .illegalCommand ∧
      expectedStatus [] (requestOf 0x2080 0 4 none) = .ok := by
  decide

theorem witness_ErrorReturnsNothingAndWritesNothing :
    (requestOf 0x1080 0 3 (some 0)).buf = some 0 ∧
      ¬ ((requestOf 0x1080 0 3 (some 0)).offset.toNat ≤ 2 ∧ 2 < (Buffer.ofBytes fourAA).len) ∧
      answer (step (ready false [fourAA] (requestOf 0x3080 0 4 (some 0)))) = some (errorAlone .invalidState) ∧
      answer (step (ready false [fourAA] (requestOf 0x1080 0 3 (some 0)))) = some (errorAlone .outOfRange) ∧
      (ready false [fourAA] (requestOf 0x3080 0 4 (some 0))).phase = .running := by
  decide

theorem witness_OutcomeDependsOnDefaultAndRequestAlone :
    encReady.phase = .running ∧
      encReadyLater.phase = .running ∧
      encReady.pending = [.command encRequest []] ∧
      encReadyLater.pending = [.command encRequest []] ∧
      encReady.mem.caller encRequest.buf = encReadyLater.mem.caller encRequest.buf ∧
      encReady.defaultLE = encReadyLater.defaultLE ∧
      (nextOf (step encReady)).isSome = true ∧
      encReady ≠ encReadyLater := by
  decide

/-- An ENC and a DEC, pending and held; for each clause its hypotheses. -/
theorem witness_ResponseReplacesTheOneBeforeAndARunKeepsEach :
    encReady.phase = .running ∧
      encReady.pending = [.command encRequest []] ∧
      runPending.phase = .running ∧
      runPending.inFlight = [] ∧
      runPending.pending = [requestOf 0x1080 0x1234 1 (some 0), requestOf 0x3080 0 1 (some 0)].map
        (fun r => .command r []) ∧
      ({ runPending with phase := .resetting } : State).phase = .resetting ∧
      ({ runPending with phase := .resetting } : State).pending =
        [requestOf 0x1080 0x1234 1 (some 0), requestOf 0x3080 0 1 (some 0)].map (fun r => .command r []) ∧
      [requestOf 0x1080 0x1234 1 (some 0), requestOf 0x3080 0 1 (some 0)] ≠ [] := by
  decide

theorem witness_CommandsAreHeldUntilDefaultIsLoaded :
    ({ encReady with phase := .resetting } : State).phase = .resetting := by
  decide

theorem witness_ResetEmptiesTheLatches :
    (pendingState true [fourAA] [.reset]).phase = .running ∧
      (pendingState true [fourAA] [.reset]).pending = [.reset] := by
  decide

/-- The span is cut by the end of the buffer; an absent buffer and a name with no buffer; QEND for the clause of a
  command with no span. -/
theorem witness_CutCommandLeavesOnlyDraws :
    (pendingState true [fourAA] [.cutByReset (requestOf 0x3080 0 3 (some 0)) []]).phase = .running ∧
      (pendingState true [fourAA] [.cutByReset (requestOf 0x3080 0 3 (some 0)) []]).pending =
        [.cutByReset (requestOf 0x3080 0 3 (some 0)) []] ∧
      beginInBuffers [] (pendingState true [fourAA] []).mem ∧
      beginInBuffers [.begins 1 (.writes 0 3 [7]), .isCut 1] (pendingState true [fourAA] []).mem ∧
      decode (requestOf 0x3080 0 3 (some 0)).cmd = .ok (.decU16 (some .be)) ∧
      (requestOf 0x3080 0 3 (some 0)).buf = some 0 ∧
      (pendingState true [fourAA] []).mem[0]? = some (Buffer.ofBytes fourAA) ∧
      (pendingState true [fourAA] []).mem.caller (requestOf 0x3080 0 3 none).buf = none ∧
      (pendingState true [fourAA] []).mem.caller (requestOf 0x3080 0 3 (some 1)).buf = none ∧
      decode 0x5000 = .ok .qend ∧
      (Instr.op .qend ≠ .enc ∧ Instr.op .qend ≠ .dec) := by
  decide

theorem witness_NothingWritesTheDefaultWhileRunning :
    encReady.phase = .running ∧
      (nextOf (step encReady)).isSome = true := by
  decide

theorem witness_ResolvedEndianFollowsTheWord :
    decode 0x1000 = .ok (.encU16 none) ∧
      Instr.op (.encU16 none) ≠ .qend ∧
      decode 0x1080 = .ok (.encU16 (some .be)) ∧
      decode 0x10C0 = .ok (.encU16 (some .le)) := by
  decide

theorem witness_ExplicitEndianIgnoresTheDefault :
    Instr.explicit (.encU16 (some .be)) = some .be ∧
      (nextOf (exec (.encU16 (some .be)) encHeld)).isSome = true := by
  decide

theorem witness_QueryReturnsTheDefault :
    (0x5100 : CmdWord).extractLsb' 12 4 = 5 ∧
      (0x5100 : CmdWord) ≠ 0x5000 := by
  decide

theorem witness_NarrowEncWritesItsSpan :
    (held false [zeros 9] (requestOf 0x1080 0x1234 1 (some 0))).request = some (requestOf 0x1080 0x1234 1 (some 0)) ∧
      (requestOf 0x1080 0x1234 1 (some 0)).buf = some 0 ∧
      (held false [zeros 9] (requestOf 0x1080 0x1234 1 (some 0))).mem[0]? = some (Buffer.ofBytes (zeros 9)) ∧
      (.encS64 (some .be), 8) ∈ encNarrow (some .be) ∧
      (requestOf 0x1080 0x1234 1 (some 0)).offset.toNat + 8 ≤ (Buffer.ofBytes (zeros 9)).len := by
  decide

set_option maxRecDepth 2000 in
theorem witness_WideEncWritesItsSpan :
    (held false [zeros 33] (requestOf 0x1080 0x1234 1 (some 0))).request = some (requestOf 0x1080 0x1234 1 (some 0)) ∧
      (requestOf 0x1080 0x1234 1 (some 0)).buf = some 0 ∧
      (held false [zeros 33] (requestOf 0x1080 0x1234 1 (some 0))).mem[0]? = some (Buffer.ofBytes (zeros 33)) ∧
      (.encS256 none, 32) ∈ encWide none ∧
      (requestOf 0x1080 0x1234 1 (some 0)).offset.toNat + 32 ≤ (Buffer.ofBytes (zeros 33)).len := by
  decide

set_option maxRecDepth 2000 in
theorem witness_LimbPlacementOf128 :
    (held true [zeros 17] (requestOf 0x1080 0x1234 1 (some 0))).request = some (requestOf 0x1080 0x1234 1 (some 0)) ∧
      (requestOf 0x1080 0x1234 1 (some 0)).buf = some 0 ∧
      (held true [zeros 17] (requestOf 0x1080 0x1234 1 (some 0))).mem[0]? = some (Buffer.ofBytes (zeros 17)) ∧
      Instr.encS128 none ∈ [Instr.encU128 none, Instr.encS128 none] ∧
      (requestOf 0x1080 0x1234 1 (some 0)).offset.toNat + 16 ≤ (Buffer.ofBytes (zeros 17)).len ∧
      orderUsed (held true [zeros 17] (requestOf 0x1080 0x1234 1 (some 0))) none = .le ∧
      orderUsed (held false [] (requestOf 0x1080 0x1234 1 (some 0))) none = .be := by
  decide

set_option maxRecDepth 2000 in
theorem witness_LimbPlacementOf256 :
    (held true [zeros 33] (requestOf 0x1080 0x1234 1 (some 0))).request = some (requestOf 0x1080 0x1234 1 (some 0)) ∧
      (requestOf 0x1080 0x1234 1 (some 0)).buf = some 0 ∧
      (held true [zeros 33] (requestOf 0x1080 0x1234 1 (some 0))).mem[0]? = some (Buffer.ofBytes (zeros 33)) ∧
      Instr.encS256 none ∈ [Instr.encU256 none, Instr.encS256 none] ∧
      (requestOf 0x1080 0x1234 1 (some 0)).offset.toNat + 32 ≤ (Buffer.ofBytes (zeros 33)).len ∧
      orderUsed (held true [zeros 33] (requestOf 0x1080 0x1234 1 (some 0))) none = .le ∧
      orderUsed (held false [] (requestOf 0x1080 0x1234 1 (some 0))) none = .be := by
  decide

theorem witness_OutOfRangeEncLeavesDraws :
    (held false [zeros 4] (requestOf 0x1080 0x1234 3 (some 0))).request = some (requestOf 0x1080 0x1234 3 (some 0)) ∧
      (requestOf 0x1080 0x1234 3 (some 0)).buf = some 0 ∧
      (held false [zeros 4] (requestOf 0x1080 0x1234 3 (some 0))).mem[0]? = some (Buffer.ofBytes (zeros 4)) ∧
      (.encU16 none, 2) ∈ encAll none ∧
      (Buffer.ofBytes (zeros 4)).len < (requestOf 0x1080 0x1234 3 (some 0)).offset.toNat + 2 ∧
      (held false [zeros 4] (requestOf 0x1080 0x1234 5 (some 0))).request =
        some (requestOf 0x1080 0x1234 5 (some 0)) ∧
      (requestOf 0x1080 0x1234 5 (some 0)).buf = some 0 ∧
      (held false [zeros 4] (requestOf 0x1080 0x1234 5 (some 0))).mem[0]? = some (Buffer.ofBytes (zeros 4)) ∧
      (.encU16 none, 2) ∈ encAll none ∧
      (Buffer.ofBytes (zeros 4)).len < (requestOf 0x1080 0x1234 5 (some 0)).offset.toNat + 2 := by
  decide

set_option maxRecDepth 2000 in
theorem witness_AbsentBufferRaisesInvalidArgument :
    (held false [] (requestOf 0x1080 0 5 none)).request = some (requestOf 0x1080 0 5 none) ∧
      (requestOf 0x1080 0 5 none).buf = none ∧
      (Instr.decS256 none, 32) ∈ encAll none ++ decAll none ∧
      (Instr.encU16 none, 2) ∈ encAll none ++ decAll none ∧
      Instr.op (.encaU16 none) = .enca ∧
      (nextOf (exec (.encaU16 none) encHeld)).isSome = true ∧
      Instr.op (.exptU128 none) = .expt ∧
      (answer (exec (.exptU128 none) encHeld)).isSome = true := by
  decide

theorem witness_UnprovidedNameIsAnAbsentBuffer :
    (held false [fourAA] (requestOf 0x1080 0 5 (some 1))).request = some (requestOf 0x1080 0 5 (some 1)) ∧
      (requestOf 0x1080 0 5 (some 1)).buf = some 1 ∧
      (held false [fourAA] (requestOf 0x1080 0 5 (some 1))).mem[1]? = none ∧
      (Instr.decS256 none, 32) ∈ encAll none ++ decAll none := by
  decide

theorem witness_RepeatedEncWritesTheSameBytes :
    encHeld.mem.wf ∧
      encHeld.request = some encRequest ∧
      encRequest.buf = some 0 ∧
      encHeld.mem[0]? = some (Buffer.ofBytes fourAA) ∧
      (Instr.encU16 none, 2) ∈ encAll none ∧
      encRequest.offset.toNat + 2 ≤ (Buffer.ofBytes fourAA).len ∧
      ((nextOf (exec (.encU16 none) encHeld)).bind (fun t => nextOf (exec (.encU16 none) t))).isSome = true := by
  decide

theorem witness_OnlyEncTouchesBuffers :
    Instr.op (.decU16 none) ≠ .enc ∧
      (nextOf (exec (.decU16 none) encHeld)).isSome = true := by
  decide

theorem witness_FrameOfEveryCommand :
    (nextOf (exec (.encU16 none) (held false [fourAA, [1]] encRequest))).map (fun t => t.mem.map Buffer.toBytes) =
        some [[0xAA, 0x12, 0x34, 0xAA], [1]] ∧
      (0 : Nat) < encRequest.offset.toNat ∧
      encRequest.offset.toNat + Width.bytes .w16 ≤ (Buffer.ofBytes fourAA).len ∧
      encRequest.offset.toNat + Width.bytes .w16 ≤ 3 ∧
      Instr.op (.decU16 none) ≠ .enc ∧
      (nextOf (exec (.decU16 none) encHeld)).isSome = true ∧
      encRequest.buf ≠ some 1 := by
  decide

theorem witness_NarrowEncaReturnsTheImage :
    encHeld.request = some encRequest ∧
      (Instr.encaS64 none, 8) ∈ encaNarrow none := by
  decide

theorem witness_WideEncaReturnsTheImage :
    encHeld.request = some encRequest ∧
      (Instr.encaS256 none, 32) ∈ encaWide none := by
  decide

theorem witness_FullDecReturnsThePattern :
    (held false [zeros 4] (requestOf 0x1080 0x1234 2 (some 0))).request = some (requestOf 0x1080 0x1234 2 (some 0)) ∧
      (requestOf 0x1080 0x1234 2 (some 0)).buf = some 0 ∧
      (held false [zeros 4] (requestOf 0x1080 0x1234 2 (some 0))).mem[0]? = some (Buffer.ofBytes (zeros 4)) ∧
      (.decU16 none, 2) ∈ decAll none ∧
      (requestOf 0x1080 0x1234 2 (some 0)).offset.toNat + 2 ≤ (Buffer.ofBytes (zeros 4)).len := by
  decide

theorem witness_ShortDecZeroExtends :
    (held false [zeros 4] (requestOf 0x1080 0x1234 3 (some 0))).request = some (requestOf 0x1080 0x1234 3 (some 0)) ∧
      (requestOf 0x1080 0x1234 3 (some 0)).buf = some 0 ∧
      (held false [zeros 4] (requestOf 0x1080 0x1234 3 (some 0))).mem[0]? = some (Buffer.ofBytes (zeros 4)) ∧
      (.decU16 none, 2) ∈ decAll none ∧
      (requestOf 0x1080 0x1234 3 (some 0)).offset.toNat < (Buffer.ofBytes (zeros 4)).len ∧
        (Buffer.ofBytes (zeros 4)).len < (requestOf 0x1080 0x1234 3 (some 0)).offset.toNat + 2 ∧
      (held false [zeros 4] (requestOf 0x1080 0x1234 0 (some 0))).request =
        some (requestOf 0x1080 0x1234 0 (some 0)) ∧
      (requestOf 0x1080 0x1234 0 (some 0)).buf = some 0 ∧
      (held false [zeros 4] (requestOf 0x1080 0x1234 0 (some 0))).mem[0]? = some (Buffer.ofBytes (zeros 4)) ∧
      (.decS256 none, 32) ∈ decAll none ∧
      (requestOf 0x1080 0x1234 0 (some 0)).offset.toNat < (Buffer.ofBytes (zeros 4)).len ∧
        (Buffer.ofBytes (zeros 4)).len < (requestOf 0x1080 0x1234 0 (some 0)).offset.toNat + 32 := by
  decide

theorem witness_EmptyDecReturnsZero :
    (held false [zeros 0] (requestOf 0x1080 0x1234 7 (some 0))).request = some (requestOf 0x1080 0x1234 7 (some 0)) ∧
      (requestOf 0x1080 0x1234 7 (some 0)).buf = some 0 ∧
      (held false [zeros 0] (requestOf 0x1080 0x1234 7 (some 0))).mem[0]? = some (Buffer.ofBytes (zeros 0)) ∧
      (.decU16 none, 2) ∈ decAll none ∧
      (Buffer.ofBytes (zeros 0)).len = 0 := by
  decide

theorem witness_DecPastTheEndRaisesInvalidState :
    (held false [zeros 4] (requestOf 0x1080 0x1234 4 (some 0))).request = some (requestOf 0x1080 0x1234 4 (some 0)) ∧
      (requestOf 0x1080 0x1234 4 (some 0)).buf = some 0 ∧
      (held false [zeros 4] (requestOf 0x1080 0x1234 4 (some 0))).mem[0]? = some (Buffer.ofBytes (zeros 4)) ∧
      (.decU16 none, 2) ∈ decAll none ∧
      (Buffer.ofBytes (zeros 4)).len ≠ 0 ∧
        (Buffer.ofBytes (zeros 4)).len ≤ (requestOf 0x1080 0x1234 4 (some 0)).offset.toNat := by
  decide

/-- The other clauses of DecPastTheEndRaisesInvalidState. -/
theorem witness_EncNeverRaisesInvalidState :
    Instr.op (.encU16 none) = .enc ∧
      (answer (exec (.encU16 none) encHeld)).isSome = true ∧
      (Instr.encU16 none, 2) ∈ encAll none ∧
      (Buffer.ofBytes fourAA).len ≤ (requestOf 0x1080 0 4 (some 0)).offset.toNat := by
  decide

theorem witness_ShortDecIsNeverNegative :
    (held false [[0, 0, 0, 0xFF]] (requestOf 0x3180 0 3 (some 0))).request = some (requestOf 0x3180 0 3 (some 0)) ∧
      (requestOf 0x3180 0 3 (some 0)).buf = some 0 ∧
      (held false [[0, 0, 0, 0xFF]] (requestOf 0x3180 0 3 (some 0))).mem[0]? = some (Buffer.ofBytes [0, 0, 0, 0xFF]) ∧
      (Instr.decS16 none, 2) ∈ decAll none ∧
      (requestOf 0x3180 0 3 (some 0)).offset.toNat < (Buffer.ofBytes [0, 0, 0, 0xFF]).len ∧
      (Buffer.ofBytes [0, 0, 0, 0xFF]).len < (requestOf 0x3180 0 3 (some 0)).offset.toNat + 2 ∧
      answer (exec (.decS16 none) (held false [[0, 0, 0, 0xFF]] (requestOf 0x3180 0 3 (some 0)))) =
        some (okResult 0xFF) := by
  decide

theorem witness_ReconcileKeepsTheValue :
    0 < ([1, 2] : List Byte).length ∧
      ([1, 2] : List Byte).length < 4 ∧
      4 ≤ 32 := by
  decide

theorem witness_ExptStripsTheZerosOfTheHighEnd :
    encHeld.request = some encRequest ∧
      (Instr.exptS256 none, 32) ∈ exptAll none ∧
      orderUsed encHeld none = .be ∧
      orderUsed (held true [] encRequest) none = .le := by
  decide

theorem witness_TrimMeetsItsContract :
    ([0, 0, 1, 0] : List Byte).length ≤ 32 ∧
      trim [0, 0, 1, 0] .be = [1, 0] ∧
      trim [0, 0] .be = [0] ∧
      trim [] .le = [] := by
  decide

theorem witness_ComposerEqualsTheFlatCodec :
    (Width.w128 = .w128 ∨ Width.w128 = .w256) ∧
      (zeros 16).length = Width.bytes .w128 := by
  decide

theorem witness_LittleImageIsTheReverseOfBig :
    encHeld.request = some encRequest ∧
      ((Instr.encaU16 (some .le), 2), (Instr.encaU16 (some .be), 2)) ∈
        (encaNarrow (some .le) ++ encaWide (some .le)).zip (encaNarrow (some .be) ++ encaWide (some .be)) := by
  decide

theorem witness_DecAfterEncReturnsTheValue :
    encHeld.request = some encRequest ∧
      encRequest.buf = some 0 ∧
      encHeld.mem[0]? = some (Buffer.ofBytes fourAA) ∧
      encRequest.offset.toNat + 2 ≤ (Buffer.ofBytes fourAA).len ∧
      (nextOf (exec (.encU16 none) encHeld)).map (fun t => t.mem) =
        some (held true [[0xAA, 0x12, 0x34, 0xAA]] (requestOf 0x3080 0 1 (some 0))).mem ∧
      (held true [[0xAA, 0x12, 0x34, 0xAA]] (requestOf 0x3080 0 1 (some 0))).request =
        some (requestOf 0x3080 0 1 (some 0)) ∧
      (requestOf 0x3080 0 1 (some 0)).offset = encRequest.offset ∧
      orderUsed (held true [[0xAA, 0x12, 0x34, 0xAA]] (requestOf 0x3080 0 1 (some 0))) (some .be) =
        orderUsed encHeld none := by
  decide

theorem witness_DecOfEncaOutReturnsTheValue :
    encHeld.request = some encRequest ∧
      answer (exec (.encaU16 none) encHeld) = some (okOut [0x12, 0x34]) ∧
      (held true [[0x12, 0x34]] (requestOf 0x3080 0 0 (some 0))).request = some (requestOf 0x3080 0 0 (some 0)) ∧
      (requestOf 0x3080 0 0 (some 0)).buf = some 0 ∧
      (held true [[0x12, 0x34]] (requestOf 0x3080 0 0 (some 0))).mem[0]? = some (Buffer.ofBytes [0x12, 0x34]) ∧
      (Buffer.ofBytes [0x12, 0x34]).toBytes = [0x12, 0x34] ∧
      (requestOf 0x3080 0 0 (some 0)).offset.toNat = 0 ∧
      orderUsed (held true [[0x12, 0x34]] (requestOf 0x3080 0 0 (some 0))) (some .be) = orderUsed encHeld none := by
  decide

set_option maxRecDepth 2000 in
theorem witness_DecOfExptOutReturnsTheValue :
    encHeld.request = some encRequest ∧
      answer (exec (.exptU128 none) encHeld) = some (okOut [0x12, 0x34]) ∧
      (held true [[0x12, 0x34]] (requestOf 0x3080 0 0 (some 0))).request = some (requestOf 0x3080 0 0 (some 0)) ∧
      (requestOf 0x3080 0 0 (some 0)).buf = some 0 ∧
      (held true [[0x12, 0x34]] (requestOf 0x3080 0 0 (some 0))).mem[0]? = some (Buffer.ofBytes [0x12, 0x34]) ∧
      (requestOf 0x3080 0 0 (some 0)).offset.toNat = 0 ∧
      orderUsed (held true [[0x12, 0x34]] (requestOf 0x3080 0 0 (some 0))) (some .be) = orderUsed encHeld none := by
  decide

theorem witness_NarrowDecSeesAPartOfAWideEnc :
    (held false [fourAA] (requestOf 0x1280 0x12345678 0 (some 0))).request =
      some (requestOf 0x1280 0x12345678 0 (some 0)) ∧
      (requestOf 0x1280 0x12345678 0 (some 0)).buf = some 0 ∧
      (held false [fourAA] (requestOf 0x1280 0x12345678 0 (some 0))).mem[0]? = some (Buffer.ofBytes fourAA) ∧
      (Instr.encU32 none, 4) ∈ encAll none ∧
      (Instr.decU16 none, 2) ∈ decAll none ∧
      (requestOf 0x1280 0x12345678 0 (some 0)).offset.toNat + 4 ≤ (Buffer.ofBytes fourAA).len ∧
      (nextOf (exec (.encU32 none) (held false [fourAA] (requestOf 0x1280 0x12345678 0 (some 0))))).map
        (fun t => t.mem) = some (held false [[0x12, 0x34, 0x56, 0x78]] (requestOf 0x3080 0 0 (some 0))).mem ∧
      (requestOf 0x3080 0 0 (some 0)).offset = (requestOf 0x1280 0x12345678 0 (some 0)).offset ∧
      orderUsed (held false [[0x12, 0x34, 0x56, 0x78]] (requestOf 0x3080 0 0 (some 0))) none =
        orderUsed (held false [fourAA] (requestOf 0x1280 0x12345678 0 (some 0))) none ∧
      answer (exec (.decU16 none) (held false [[0x12, 0x34, 0x56, 0x78]] (requestOf 0x3080 0 0 (some 0)))) =
        some (okResult 0x1234) ∧
      orderUsed (held true [] (requestOf 0x1280 0x12345678 0 (some 0))) none = .le := by
  decide

theorem witness_SignednessChangesNoBit :
    (Instr.decU16 none, Instr.decS16 none) ∈ signednessPairs none := by
  decide

/-- Reset meets the invariant. -/
theorem test_reset_invariant : State.reset.Inv where
  memory := by decide
  default := fun _ => rfl
  response := by intro p h; cases h
  reset := by intro h; cases h

theorem witness_ResetMeetsTheInvariant : State.reset.Inv := test_reset_invariant

/-- A state with a buffer and a command pending meets the invariant, and its step answers. -/
theorem witness_StepKeepsTheInvariant :
    ({ State.reset with mem := [Buffer.ofBytes fourAA], pending :=
      [.command (requestOf 0x1080 0x1234 1 (some 0)) []] } : State).Inv ∧
      (nextOf (step { State.reset with mem := [Buffer.ofBytes fourAA], pending :=
        [.command (requestOf 0x1080 0x1234 1 (some 0)) []] })).isSome = true where
  left :=
    { memory := by decide
      default := fun _ => rfl
      response := by intro p h; cases h
      reset := by intro h; cases h }
  right := by decide

/-- A state that is being reset meets the invariant, and its step answers. -/
theorem witness_StepKeepsTheInvariant_resetting :
    (State.reset.applyReset).Inv ∧ (nextOf (step State.reset.applyReset)).isSome = true where
  left :=
    { memory := by decide
      default := by intro h; cases h
      response := by intro p h; cases h
      reset := fun _ => ⟨rfl, rfl, rfl⟩ }
  right := by decide

theorem witness_CanonicalBuffersAreEqualWhenTheyReadAlike :
    (Buffer.ofBytes [1, 0, 2]).wf ∧
      (Buffer.writeBytes (Buffer.ofBytes [1, 7, 2]) 1 [0]).wf ∧
      (Buffer.ofBytes [1, 0, 2]).len = (Buffer.writeBytes (Buffer.ofBytes [1, 7, 2]) 1 [0]).len ∧
      ∀ i < (Buffer.ofBytes [1, 0, 2]).len, (Buffer.ofBytes [1, 0, 2]).read i =
        (Buffer.writeBytes (Buffer.ofBytes [1, 7, 2]) 1 [0]).read i := by
  decide

/-- The span of that request touches neither byte 3 nor byte 0. -/
theorem encRequest_disjointFrom {a : AgentAccess} (h : 3 ≤ a.span.start ∨ a.span.start + a.span.len ≤ 1) :
    disjointFrom encRequest a := by
  intro i hd _ _
  have he : decode encRequest.cmd = .ok (.encU16 (some .be)) := by decide
  rw [he] at hd
  cases hd
  exact h.symm

/-- A write in flight to disjoint bytes leaves the command alone. -/
theorem encBeside_runsAlone : runsAlone encBeside encRequest ∧ runsAlone encReady encRequest ∧
    encBeside.pending = [.command encRequest []] ∧ encBeside.inFlight.length = 1 :=
  ⟨fun e he => by
      rw [List.mem_singleton.mp he]
      exact encRequest_disjointFrom (.inl (by decide)),
    fun e he => absurd he (by simp [encReady, ready, pendingState, State.resetWith]), rfl, rfl⟩

/-- A write just past the end of the span of the command, in each of the four ways to overlap it. -/
theorem witness_DisjointAccessesDoNotAffectEachOther :
    (∀ p ∈ overlaps encRequest 1 (.writes 0 3 [7]), (pendingState false [fourAA] p).pending = p ++ [] ∧
        (pendingState false [fourAA] p).phase = .running ∧ (pendingState false [fourAA] p).inFlight = []) ∧
      AgentAccess.exists (.writes 0 3 [7]) (pendingState false [fourAA] []).mem = true ∧
      disjointFrom encRequest (.writes 0 3 [7]) :=
  ⟨by decide, by decide, encRequest_disjointFrom (.inl (by decide))⟩

/-- A read just before the span, and a read that touches the span in another buffer. -/
theorem witness_DisjointAccessesDoNotAffectEachOther_reads :
    (∀ p ∈ overlaps encRequest 1 (.reads 0 0 1), (pendingState false [fourAA] p).pending = p ++ []) ∧
      AgentAccess.exists (.reads 0 0 1) (pendingState false [fourAA] []).mem = true ∧
      disjointFrom encRequest (.reads 0 0 1) ∧ writtenAt (.reads 0 0 1) 0 0 = none ∧
      AgentAccess.exists (.reads 1 0 4) (pendingState false [fourAA, fourAA] []).mem = true ∧
      disjointFrom encRequest (.reads 1 0 4) :=
  ⟨by decide, by decide, encRequest_disjointFrom (.inr (by decide)), rfl, by decide,
    fun _ _ _ h => absurd h (by decide)⟩

/-- Byte 1 is shared, byte 0 is the command's, byte 2 the access's, byte 3 nobody's. -/
theorem witness_RacedEncLeavesDraws :
    (∀ p ∈ overlaps (requestOf 0x1080 0x1234 0 (some 0)) 1 (.writes 0 1 [7, 8]),
      (pendingState false [fourAA] p).pending = p ++ [] ∧ (pendingState false [fourAA] p).phase = .running ∧
      (pendingState false [fourAA] p).inFlight = [] ∧
          (pendingState false [fourAA] p).mem[0]? = some (Buffer.ofBytes fourAA)) ∧
      decode (requestOf 0x1080 0x1234 0 (some 0)).cmd = .ok (.encU16 (some .be)) ∧
      (requestOf 0x1080 0x1234 0 (some 0)).buf = some 0 ∧
      (AgentAccess.span (.writes 0 1 [7, 8])).buf = 0 ∧
      (AgentAccess.span (.writes 0 1 [7, 8])).start + (AgentAccess.span (.writes 0 1 [7, 8])).len ≤
        (Buffer.ofBytes fourAA).len ∧
      Instr.op (.encU16 (some .be)) = .enc ∧
      (requestOf 0x1080 0x1234 0 (some 0)).offset.toNat + Width.bytes .w16 ≤ (Buffer.ofBytes fourAA).len ∧
      writtenAt (.writes 0 1 [7, 8]) 0 2 = some 8 ∧
      writtenAt (.writes 0 1 [7, 8]) 0 3 = none := by
  decide

/-- The span ends one byte past the buffer. -/
theorem witness_RacedEncLeavesDraws_outOfRange :
    (∀ p ∈ overlaps (requestOf 0x1080 0x1234 3 (some 0)) 1 (.writes 0 1 [7, 8]),
      (pendingState false [fourAA] p).pending = p ++ [] ∧ (pendingState false [fourAA] p).phase = .running ∧
      (pendingState false [fourAA] p).inFlight = [] ∧
          (pendingState false [fourAA] p).mem[0]? = some (Buffer.ofBytes fourAA)) ∧
      decode (requestOf 0x1080 0x1234 3 (some 0)).cmd = .ok (.encU16 (some .be)) ∧
      (requestOf 0x1080 0x1234 3 (some 0)).buf = some 0 ∧
      (AgentAccess.span (.writes 0 1 [7, 8])).buf = 0 ∧
      (AgentAccess.span (.writes 0 1 [7, 8])).start + (AgentAccess.span (.writes 0 1 [7, 8])).len ≤
        (Buffer.ofBytes fourAA).len ∧
      Instr.op (.encU16 (some .be)) = .enc ∧
      (Buffer.ofBytes fourAA).len < (requestOf 0x1080 0x1234 3 (some 0)).offset.toNat + Width.bytes .w16 := by
  decide

/-- A read that overlaps the span in part: byte 2 is inside the read and outside the span. -/
theorem witness_RacedEncLeavesDraws_reads :
    (∀ p ∈ overlaps (requestOf 0x1080 0x1234 0 (some 0)) 1 (.reads 0 1 2), (pendingState false [fourAA] p).pending =
      p ++ [] ∧ (pendingState false [fourAA] p).phase = .running ∧ (pendingState false [fourAA] p).inFlight = [] ∧
          (pendingState false [fourAA] p).mem[0]? = some (Buffer.ofBytes fourAA)) ∧
      decode (requestOf 0x1080 0x1234 0 (some 0)).cmd = .ok (.encU16 (some .be)) ∧
      (requestOf 0x1080 0x1234 0 (some 0)).buf = some 0 ∧
      (AgentAccess.span (.reads 0 1 2)).buf = 0 ∧
      (AgentAccess.span (.reads 0 1 2)).start + (AgentAccess.span (.reads 0 1 2)).len ≤ (Buffer.ofBytes fourAA).len ∧
      Instr.op (.encU16 (some .be)) = .enc ∧
      writtenAt (.reads 0 1 2) 0 2 = none := by
  decide

/-- Byte 1 is shared, byte 0 is not, byte 2 is inside the write and outside the span. -/
theorem witness_RacedDecReadsDraws :
    (∀ p ∈ overlaps (requestOf 0x3080 0 0 (some 0)) 1 (.writes 0 1 [7, 8]),
      (pendingState false [fourAA] p).pending = p ++ [] ∧ (pendingState false [fourAA] p).phase = .running ∧
      (pendingState false [fourAA] p).inFlight = [] ∧
          (pendingState false [fourAA] p).mem[0]? = some (Buffer.ofBytes fourAA)) ∧
      decode (requestOf 0x3080 0 0 (some 0)).cmd = .ok (.decU16 (some .be)) ∧
      (requestOf 0x3080 0 0 (some 0)).buf = some 0 ∧
      (AgentAccess.span (.writes 0 1 [7, 8])).buf = 0 ∧
      (AgentAccess.span (.writes 0 1 [7, 8])).start + (AgentAccess.span (.writes 0 1 [7, 8])).len ≤
        (Buffer.ofBytes fourAA).len ∧
      Instr.op (.decU16 (some .be)) = .dec ∧
      AgentAccess.isWrite (.writes 0 1 [7, 8]) = true ∧
      (requestOf 0x3080 0 0 (some 0)).offset.toNat < (Buffer.ofBytes fourAA).len := by
  decide

/-- A short DEC: byte 2 is shared, byte 3 is not. -/
theorem witness_RacedDecReadsDraws_short :
    (∀ p ∈ overlaps (requestOf 0x3280 0 2 (some 0)) 1 (.writes 0 1 [7, 8]),
      (pendingState false [fourAA] p).pending = p ++ [] ∧ (pendingState false [fourAA] p).phase = .running ∧
      (pendingState false [fourAA] p).inFlight = [] ∧
          (pendingState false [fourAA] p).mem[0]? = some (Buffer.ofBytes fourAA)) ∧
      decode (requestOf 0x3280 0 2 (some 0)).cmd = .ok (.decU32 (some .be)) ∧
      (requestOf 0x3280 0 2 (some 0)).buf = some 0 ∧
      (AgentAccess.span (.writes 0 1 [7, 8])).buf = 0 ∧
      (AgentAccess.span (.writes 0 1 [7, 8])).start + (AgentAccess.span (.writes 0 1 [7, 8])).len ≤
        (Buffer.ofBytes fourAA).len ∧
      Instr.op (.decU32 (some .be)) = .dec ∧
      AgentAccess.isWrite (.writes 0 1 [7, 8]) = true ∧
      (requestOf 0x3280 0 2 (some 0)).offset.toNat < (Buffer.ofBytes fourAA).len ∧
      (Buffer.ofBytes fourAA).len < (requestOf 0x3280 0 2 (some 0)).offset.toNat + Width.bytes .w32 := by
  decide

/-- A read that shares byte 1 with the span. -/
theorem witness_RacedDecReadsDraws_reads :
    (∀ p ∈ overlaps (requestOf 0x3080 0 0 (some 0)) 1 (.reads 0 1 2), (pendingState false [fourAA] p).pending =
      p ++ [] ∧ (pendingState false [fourAA] p).phase = .running ∧ (pendingState false [fourAA] p).inFlight = [] ∧
          (pendingState false [fourAA] p).mem[0]? = some (Buffer.ofBytes fourAA)) ∧
      decode (requestOf 0x3080 0 0 (some 0)).cmd = .ok (.decU16 (some .be)) ∧
      (requestOf 0x3080 0 0 (some 0)).buf = some 0 ∧
      (AgentAccess.span (.reads 0 1 2)).buf = 0 ∧
      (AgentAccess.span (.reads 0 1 2)).start + (AgentAccess.span (.reads 0 1 2)).len ≤ (Buffer.ofBytes fourAA).len ∧
      Instr.op (.decU16 (some .be)) = .dec ∧
      AgentAccess.isWrite (.reads 0 1 2) = false ∧
      (requestOf 0x3080 0 0 (some 0)).offset.toNat < (Buffer.ofBytes fourAA).len := by
  decide

/-- Byte 2 is shared by the two writes, byte 3 is not; a command with no span,
  and a byte outside the span of one that has one; a read that is cut off, up to the last byte,
  in each of the four ways. -/
theorem witness_AgentAccessesLandInOrderOrRace :
    (pendingState false [fourAA] [.agent (.begins 1 (.writes 0 2 [7, 8])), .agent (.returns 1)]).phase = .running ∧
      (pendingState false [fourAA] [.agent (.begins 1 (.writes 0 2 [7, 8])), .agent (.returns 1)]).inFlight = [] ∧
      AgentAccess.exists (.writes 0 2 [7, 8])
        (pendingState false [fourAA] [.agent (.begins 1 (.writes 0 2 [7, 8])), .agent (.returns 1)]).mem = true ∧
      AgentAccess.exists (.reads 0 4 0)
        (pendingState false [fourAA] [.agent (.begins 1 (.writes 0 2 [7, 8])), .agent (.returns 1)]).mem = true ∧
      AgentAccess.exists (.writes 0 1 [5, 6])
        (pendingState false [fourAA] [.agent (.begins 1 (.writes 0 2 [7, 8])), .agent (.returns 1)]).mem = true ∧
      (1 : Nat) ≠ 2 ∧
      touches (.writes 0 2 [7, 8]) 0 2 ∧ touches (.writes 0 1 [5, 6]) 0 2 ∧
        AgentAccess.isWrite (.writes 0 2 [7, 8]) = true ∧
      writtenAt (.writes 0 2 [7, 8]) 0 3 = some 8 ∧ ¬ touches (.writes 0 1 [5, 6]) 0 3 ∧
      decode 0x5000 = .ok .qend ∧
      ¬ (encRequest.offset.toNat ≤ 3 ∧ 3 < encRequest.offset.toNat + Width.bytes .w16) ∧
      (pendingState false [fourAA] [.agent (.begins 1 (.writes 0 2 [7, 8])), .agent (.isCut 1)]).pending =
        [.agent (.begins 1 (.writes 0 2 [7, 8])), .agent (.isCut 1)] ∧
      overlapsAndIsCut encRequest 1 (.reads 0 1 3) ≠ [] ∧
      AgentAccess.exists (.reads 0 1 3) (pendingState false [fourAA] []).mem = true ∧
      touches (.reads 0 1 3) 0 3 ∧ ¬ touches (.reads 0 1 3) 0 0 ∧
      (∀ p ∈ overlapsAndIsCut encRequest 1 (.reads 0 1 3),
        (nextOf (steps p.length (pendingState false [fourAA] p))).isSome = true) ∧
      (nextOf (step (pendingState false [fourAA] [.command encRequest
        [.begins 1 (.writes 0 2 [7, 8]), .begins 2 (.writes 0 1 [5, 6]), .returns 2, .returns 1]]))).isSome =
          true := by
  decide

/-- Both clauses: a short list, and lists of 2^32 bytes or more. -/
theorem witness_ProvidedBufferHoldsItsBytes :
    (∀ xs : List Byte, (pendingState false [] [.provide xs]).phase = .running ∧
        (pendingState false [] [.provide xs]).pending = [.provide xs]) ∧
      ([1, 2] : List Byte).length < 2 ^ 32 ∧ ∃ n, 2 ^ 32 ≤ (zeros n).length :=
  ⟨fun _ => ⟨rfl, rfl⟩, by decide, 4294967296, by rw [zeros_length]; decide⟩

theorem witness_KeptOutIsACopy :
    ({ pendingState false [] [.keepOut] with response := some (okOut [3, 4]) } : State).phase = .running ∧
      ({ pendingState false [] [.keepOut] with response := some (okOut [3, 4]) } : State).pending = [.keepOut] ∧
      ({ pendingState false [] [.keepOut] with response := some (okOut [3, 4]) } : State).response =
        some (okOut [3, 4]) ∧
      (okOut [3, 4]).out = some [3, 4] ∧
      ([3, 4] : List Byte).length < 2 ^ 32 ∧
      ({ pendingState false [] [.keepOut] with response := some okAlone } : State).response = some okAlone ∧
      okAlone.out = none ∧
      (pendingState false [] [.keepOut]).response = none := by
  decide

/-- A line for each form of the value, the largest offset and the first one past it. -/
theorem witness_LiteralIsReadModuloTheWidth :
    ((line (.encU128 none) (some 0) (some (2 ^ 32 - 1)) (some (.pair 1 0))).offset).getD 0 < 2 ^ 32 ∧
      ((line (.encS32 (some .be)) (some 0) (some 2) (some (.literal (-2)))).offset).getD 0 < 2 ^ 32 ∧
      ((line (.encaU256 none) none none (some (.quad 1 2 3 4))).offset).getD 0 < 2 ^ 32 ∧
      ((line .qend none none none).offset).getD 0 < 2 ^ 32 ∧
      2 ^ 32 ≤ ((line (.decU32 none) (some 0) (some (2 ^ 32)) none).offset).getD 0 := by
  decide

end Sys2Proof.Tests
end

section
/-! PROOFS. The integer readings of a pattern (00_scope.md R4): O49. -/

namespace Sys2Proof

theorem Width.bits_pos (w : Width) : 0 < w.bits := by
  have := w.bits_eq
  have := w.bytes_pos
  omega

namespace Machine

theorem unsignedReading_eq_toNat (w : Width) (v : Value) :
    unsignedReading w v = (v.setWidth w.bits).toNat :=
  (BitVec.toNat_setWidth w.bits v).symm

/-- The bit that the signed reading weighs negatively is the sign bit of the W-bit pattern; this needs W > 0. -/
theorem msb_setWidth_bits (w : Width) (v : Value) :
    (v.setWidth w.bits).msb = v.getLsbD (w.bits - 1) := by
  simp [BitVec.msb_setWidth, w.bits_pos]

theorem signedReading_eq_toInt (w : Width) (v : Value) :
    signedReading w v = (v.setWidth w.bits).toInt := by
  rw [signedReading, unsignedReading_eq_toNat, BitVec.toInt_eq_msb_cond, msb_setWidth_bits]
  split
  case isTrue => rw [Nat.cast_pow, Nat.cast_ofNat]
  case isFalse => rw [sub_zero]

/-- Settles O49: the model's readings are Lean's `toInt` and `toNat` of the low W bits. -/
theorem signedReadingIsTwosComplement : Obligations.SignedReadingIsTwosComplement :=
  fun w v => ⟨signedReading_eq_toInt w v, unsignedReading_eq_toNat w v⟩

end Machine

end Sys2Proof
end

section
/-! PROOFS. What the answers of a command are made of: how long an image and its trim are, and how large a RESULT
is (10_state.md R18, R19). -/

namespace Sys2Proof

/-- The composer's limbs are exactly the bits of its widths (42_extended_composer.md R97). -/
theorem Width.limbs_bits {w : Width} (h : w.limbs ≠ 0) : 64 * w.limbs = w.bits := by
  cases w with
  | w16 | w32 | w64 => exact absurd rfl h
  | w128 | w256 => rfl

theorem Width.limbs_bytes_le (w : Width) : 8 * w.limbs ≤ w.bytes := by
  cases w <;> decide

namespace Machine

/-! ### How large a pattern is -/

/-- Shifting a pattern up by the width of the word that is put below it. -/
theorem toNat_shiftLeft_or_lt {v : Value} {n m : Nat} (y : BitVec m) (hv : v.toNat < 2 ^ n) :
    ((v <<< m) ||| y.setWidth 256).toNat < 2 ^ (n + m) := by
  rw [BitVec.toNat_or, BitVec.toNat_shiftLeft, Nat.shiftLeft_eq, BitVec.toNat_setWidth]
  apply Nat.or_lt_two_pow
  · calc v.toNat * 2 ^ m % 2 ^ 256 ≤ v.toNat * 2 ^ m := Nat.mod_le _ _
      _ < 2 ^ n * 2 ^ m := Nat.mul_lt_mul_of_pos_right hv (Nat.two_pow_pos m)
      _ = 2 ^ (n + m) := (pow_add 2 n m).symm
  · calc y.toNat % 2 ^ 256 ≤ y.toNat := Nat.mod_le _ _
      _ < 2 ^ m := y.isLt
      _ ≤ 2 ^ (n + m) := Nat.pow_le_pow_right (by decide) (Nat.le_add_left m n)

theorem fromLittle_toNat_lt (xs : List Byte) : (fromLittle xs).toNat < 2 ^ (8 * xs.length) := by
  induction xs with
  | nil => simp [fromLittle]
  | cons x xs ih => exact toNat_shiftLeft_or_lt x ih

theorem unpackBytes_toNat_lt (xs : List Byte) (e : Endian) : (unpackBytes xs e).toNat < 2 ^ (8 * xs.length) := by
  cases e with
  | le => exact fromLittle_toNat_lt xs
  | be => simpa [unpackBytes] using fromLittle_toNat_lt xs.reverse

theorem joinLimbs_concat (ls : List Limb) (l : Limb) :
    joinLimbs (ls ++ [l]) = (joinLimbs ls <<< 64) ||| l.setWidth 256 := by
  simp [joinLimbs]

theorem joinLimbs_toNat_lt (ls : List Limb) : (joinLimbs ls).toNat < 2 ^ (64 * ls.length) := by
  induction ls using List.reverseRecOn with
  | nil => simp [joinLimbs]
  | append_singleton ls l ih =>
    rw [joinLimbs_concat, List.length_append, List.length_singleton]
    exact toNat_shiftLeft_or_lt l ih

theorem readImage_toNat_lt {w : Width} {xs : List Byte} (hxs : xs.length = w.bytes) (e : Endian) :
    (readImage w xs e).toNat < 2 ^ w.bits := by
  unfold readImage
  split
  · rw [w.bits_eq, ← hxs]
    exact unpackBytes_toNat_lt xs e
  · rename_i hw
    rw [← Width.limbs_bits hw]
    simpa using joinLimbs_toNat_lt
      ((List.range w.limbs).map fun j => unpackLimb ((xs.drop (slot j w.limbs e)).take 8) e)

/-! ### How long an image and its trim are -/

theorem slot_add_le {j k : Nat} (h : j < k) (e : Endian) : slot j k e + 8 ≤ 8 * k := by
  cases e <;> simp only [slot] <;> omega

/-- Every piece of an encode lies inside the span (20_memory.md R33). -/
theorem pieces_inside {w : Width} {v : Value} {e : Endian} {p : Nat × List Byte} (h : p ∈ pieces w v e) :
    p.1 + p.2.length ≤ w.bytes := by
  unfold pieces at h
  split at h
  · rw [List.mem_singleton.mp h]
    simp
  · obtain ⟨j, hj, rfl⟩ := List.mem_map.mp h
    simpa using (slot_add_le (List.mem_range.mp hj) e).trans w.limbs_bytes_le

theorem foldl_placeAt_length {out : List Byte} {ps : List (Nat × List Byte)}
    (h : ∀ p ∈ ps, p.1 + p.2.length ≤ out.length) :
    (ps.foldl (fun out p => placeAt out p.1 p.2) out).length = out.length := by
  induction ps generalizing out with
  | nil => rfl
  | cons p ps ih =>
    obtain ⟨hp, hps⟩ := List.forall_mem_cons.mp h
    have hlen : (placeAt out p.1 p.2).length = out.length := placeAt_length out p.1 p.2 hp
    rw [List.foldl_cons, ih (by rwa [hlen]), hlen]

@[simp] theorem image_length (w : Width) (v : Value) (e : Endian) : (image w v e).length = w.bytes := by
  rw [image, foldl_placeAt_length fun p hp => by simpa using pieces_inside hp, zeros_length]

/-- A trimmed image is never longer than the image, and keeps at least one byte of it (TRIM_ZERO_KEEP,
42_extended_composer.md R119). -/
theorem trim_length_bounds {xs : List Byte} (h : 0 < xs.length) (e : Endian) :
    1 ≤ (trim xs e).length ∧ (trim xs e).length ≤ xs.length := by
  have hz : ∀ ys : List Byte, (ys.takeWhile (fun b => b == 0)).length ≤ ys.length :=
    fun ys => (List.takeWhile_sublist _).length_le
  cases e with
  | be =>
    have := hz xs
    simp only [trim, trimWith, Config.trimZeroKeep, List.length_drop]
    split <;> omega
  | le =>
    have := hz xs.reverse
    simp only [trim, trimWith, Config.trimZeroKeep, List.length_drop, List.length_reverse] at this ⊢
    split <;> omega

end Machine

end Sys2Proof
end

section
/-! PROOFS. What a command can do, said once: the inversion of `exec` over all 35 commands, and the frame it gives
(10_state.md R10, R11, R21; 20_memory.md R33, R34): O31. -/

namespace Sys2Proof.Machine

/-! ### Bytes beside the pieces that are written -/

theorem Buffer.read_writePieces_outside {b : Buffer} {base j : Nat} {ps : List (Nat × List Byte)}
    (h : ∀ p ∈ ps, ¬ (base + p.1 ≤ j ∧ j < base + p.1 + p.2.length)) :
    (b.writePieces base ps).read j = b.read j := by
  induction ps generalizing b with
  | nil => rfl
  | cons p ps ih =>
    obtain ⟨hp, hps⟩ := List.forall_mem_cons.mp h
    rw [Buffer.writePieces_cons, ih hps, Buffer.read_writeBytes, if_neg fun hc => hp ⟨hc.1, hc.2.1⟩]

theorem Buffer.read_writePieces_below {b : Buffer} {base j : Nat} {ps : List (Nat × List Byte)} (h : j < base) :
    (b.writePieces base ps).read j = b.read j :=
  Buffer.read_writePieces_outside fun p _ hc => by omega

theorem Buffer.read_writePieces_above {b : Buffer} {base j n : Nat} {ps : List (Nat × List Byte)}
    (hps : ∀ p ∈ ps, p.1 + p.2.length ≤ n) (h : base + n ≤ j) :
    (b.writePieces base ps).read j = b.read j :=
  Buffer.read_writePieces_outside fun p hp hc => by
    have := hps p hp
    omega

/-! ### The inversion of `exec` -/

/-- OutOfRange is a write of draws from OFFSET to the end of the buffer (60_exceptions.md R135). -/
theorem State.raiseOutOfRange_eq {s : State} {k : Nat} {b : Buffer} (hb : s.mem[k]? = some b) (offset : Nat) :
    s.raiseOutOfRange k b offset =
      { s with
        mem := s.mem.set k (b.writePieces offset [(0, drawBytes s.draws (b.len - offset))])
        response := some { status := .outOfRange, result := none, out := none }
        seq := s.seq + 1
        draws := s.draws + (b.len - offset) } := by
  have hn : min (offset + (b.len - offset)) b.len - offset = b.len - offset := by omega
  simp [State.raiseOutOfRange, State.drawSpan, State.raise, hb, hn, Buffer.writePieces_cons]

/-- Everything a command can do when it answers a next state: it gives a response that fits it, and only ENC writes,
pieces of its own caller buffer from OFFSET on, which stay inside the span when the span is in range. -/
theorem exec_cases {i : Instr} {s t : State} (h : exec i s = .next t) :
    ∃ p, p.fits i ∧
      (t = { s with response := some p, seq := s.seq + 1 } ∨
        i.op = .enc ∧ ∃ r k b ps d, s.request = some r ∧ s.mem.caller r.buf = some (k, b) ∧
          (r.offset.toNat + i.width.bytes ≤ b.len → ∀ q ∈ ps, q.1 + q.2.length ≤ i.width.bytes) ∧
          t = { s with
            mem := s.mem.set k (b.writePieces r.offset.toNat ps)
            response := some p
            seq := s.seq + 1
            draws := d }) := by
  rw [exec_eq] at h
  cases hop : i.op <;> simp only [hop] at h
  case enc =>
    obtain ⟨r, hr, ⟨-, rfl⟩ | ⟨k, b, hb, ⟨hlt, rfl⟩ | ⟨-, rfl⟩⟩⟩ := encodeInPlace_cases h
    · exact ⟨_, by simp [Response.fits, hop], .inl rfl⟩
    · exact ⟨_, by simp [Response.fits, hop], .inr ⟨rfl, r, k, b, _, _, hr, hb,
        fun hle => absurd hlt (Nat.not_lt.mpr hle), State.raiseOutOfRange_eq (Memory.caller_eq_some.mp hb).2 _⟩⟩
    · exact ⟨_, by simp [Response.fits, hop], .inr ⟨rfl, r, k, b, _, _, hr, hb, fun _ _ => pieces_inside, rfl⟩⟩
  case enca =>
    obtain ⟨r, -, rfl⟩ := encodeFresh_cases h
    exact ⟨_, by simp [Response.fits, hop], .inl rfl⟩
  case dec =>
    obtain ⟨r, -, ⟨-, rfl⟩ | ⟨k, b, -, ⟨-, rfl⟩ | ⟨-, -, rfl⟩ | ⟨-, rfl⟩⟩⟩ := decodeBuffer_cases h
    · exact ⟨_, by simp [Response.fits, hop], .inl rfl⟩
    · exact ⟨_, by simp [Response.fits, hop], .inl rfl⟩
    · exact ⟨_, by simp [Response.fits, hop], .inl rfl⟩
    · exact ⟨_, by simp [Response.fits, hop, readImage_toNat_lt (decodeInput_length ..)], .inl rfl⟩
  case expt =>
    obtain ⟨r, -, rfl⟩ := exportTrimmed_cases h
    have hlen := trim_length_bounds (xs := image i.width r.value (s.resolve i.explicit))
      (by simpa using i.width.bytes_pos) (s.resolve i.explicit)
    rw [image_length] at hlen
    exact ⟨_, by simpa [Response.fits, hop] using hlen, .inl rfl⟩
  case qend =>
    cases h
    exact ⟨_, by cases hd : s.defaultLE <;> simp [Response.fits, hop], .inl rfl⟩

/-! ### The frame of every command -/

/-- What a command never changes (10_state.md R10, R11, R21). -/
theorem exec_keeps {i : Instr} {s t : State} (h : exec i s = .next t) :
    t.defaultLE = s.defaultLE ∧ t.request = s.request ∧ t.pending = s.pending ∧ t.phase = s.phase ∧
      t.inFlight = s.inFlight ∧ t.seq = s.seq + 1 := by
  obtain ⟨p, -, rfl | ⟨-, r, k, b, ps, d, -, -, -, rfl⟩⟩ := exec_cases h <;> exact ⟨rfl, rfl, rfl, rfl, rfl, rfl⟩

theorem exec_response_fits {i : Instr} {s t : State} (h : exec i s = .next t) :
    ∃ p, t.response = some p ∧ p.fits i := by
  obtain ⟨p, hp, rfl | ⟨-, r, k, b, ps, d, -, -, -, rfl⟩⟩ := exec_cases h <;> exact ⟨p, rfl, hp⟩

/-- Which bytes of memory a command can change: none unless it is an ENC, and an ENC those of its caller buffer from
OFFSET on, or in its span alone when that is in range (20_memory.md R33, R34). -/
theorem exec_mem_cases {i : Instr} {s t : State} (h : exec i s = .next t) :
    t.mem = s.mem ∨
      i.op = .enc ∧ ∃ r k b ps, s.request = some r ∧ s.mem.caller r.buf = some (k, b) ∧
        (r.offset.toNat + i.width.bytes ≤ b.len → ∀ q ∈ ps, q.1 + q.2.length ≤ i.width.bytes) ∧
        t.mem = s.mem.set k (b.writePieces r.offset.toNat ps) := by
  obtain ⟨p, -, rfl | ⟨hop, r, k, b, ps, d, hr, hb, hps, rfl⟩⟩ := exec_cases h
  · exact .inl rfl
  · exact .inr ⟨hop, r, k, b, ps, hr, hb, hps, rfl⟩

theorem exec_mem_length {i : Instr} {s t : State} (h : exec i s = .next t) : t.mem.length = s.mem.length := by
  obtain hm | ⟨-, r, k, b, ps, -, -, -, hm⟩ := exec_mem_cases h
  · rw [hm]
  · rw [hm, List.length_set]

theorem exec_mem_of_not_enc {i : Instr} {s t : State} (h : exec i s = .next t) (hop : i.op ≠ .enc) :
    t.mem = s.mem :=
  (exec_mem_cases h).resolve_right fun hc => hop hc.1

theorem exec_mem_wf {i : Instr} {s t : State} (h : exec i s = .next t) (hs : s.mem.wf) : t.mem.wf := by
  obtain hm | ⟨-, r, k, b, ps, -, hb, -, hm⟩ := exec_mem_cases h
  · rwa [hm]
  · rw [hm]
    exact Memory.wf_set hs (Buffer.wf_writePieces (Memory.wf_getElem? hs (Memory.caller_eq_some.mp hb).2) _ _) k

/-- One caller buffer across a command: unchanged, or the buffer the request names with pieces written from OFFSET
on. -/
theorem exec_buffer_cases {i : Instr} {s t : State} (h : exec i s = .next t) {k : Nat} {b b' : Buffer}
    (hb : s.mem[k]? = some b) (hb' : t.mem[k]? = some b') :
    b' = b ∨
      ∃ r ps, s.request = some r ∧ r.buf = some k ∧
        (r.offset.toNat + i.width.bytes ≤ b.len → ∀ q ∈ ps, q.1 + q.2.length ≤ i.width.bytes) ∧
        b' = b.writePieces r.offset.toNat ps := by
  obtain hm | ⟨-, r, k₀, b₀, ps, hr, hcall, hps, hm⟩ := exec_mem_cases h
  · rw [hm] at hb'
    exact .inl (Option.some.inj (hb'.symm.trans hb))
  · obtain ⟨hbuf, hb₀⟩ := Memory.caller_eq_some.mp hcall
    by_cases hk : k₀ = k
    · subst hk
      obtain rfl : b₀ = b := Option.some.inj (hb₀.symm.trans hb)
      rw [hm, List.getElem?_set_self (List.getElem?_eq_some_iff.mp hb).1] at hb'
      exact .inr ⟨r, ps, hr, hbuf, hps, (Option.some.inj hb').symm⟩
    · rw [hm, List.getElem?_set_ne hk] at hb'
      exact .inl (Option.some.inj (hb'.symm.trans hb))

/-- The frame of one caller buffer. -/
theorem exec_buffer_frame {i : Instr} {s t : State} (h : exec i s = .next t) {k : Nat} {b b' : Buffer}
    (hb : s.mem[k]? = some b) (hb' : t.mem[k]? = some b') :
    b'.len = b.len ∧
      ((∀ r, s.request = some r → r.buf ≠ some k) → b' = b) ∧
      (∀ r j, s.request = some r → j < r.offset.toNat → b'.read j = b.read j) ∧
      ∀ r j, s.request = some r → r.offset.toNat + i.width.bytes ≤ b.len →
        r.offset.toNat + i.width.bytes ≤ j → b'.read j = b.read j := by
  obtain rfl | ⟨r, ps, hr, hbuf, hps, rfl⟩ := exec_buffer_cases h hb hb'
  · exact ⟨rfl, fun _ => rfl, fun _ _ _ _ => rfl, fun _ _ _ _ _ => rfl⟩
  · simp only [hr, Option.some.injEq]
    refine ⟨Buffer.writePieces_len .., fun hne => absurd hbuf (hne r rfl), ?_, ?_⟩
    · rintro _ j rfl hj
      exact Buffer.read_writePieces_below hj
    · rintro _ j rfl hin hj
      exact Buffer.read_writePieces_above (hps hin) hj

/-- Settles O31, from the inversion of `exec`. -/
theorem frameOfEveryCommand : Obligations.FrameOfEveryCommand := by
  intro i s t h
  obtain ⟨hdef, hreq, hpend, hphase, hflight, hseq⟩ := exec_keeps h
  obtain ⟨p, hp, -⟩ := exec_response_fits h
  exact ⟨hdef, hreq, hpend, hphase, hflight, hseq, by rw [hp]; rfl, exec_mem_length h, exec_mem_of_not_enc h,
    fun _ _ _ => exec_buffer_frame h⟩

end Sys2Proof.Machine
end

section
/-! PROOFS. What every step keeps: DEFAULT_LE while commands are accepted (10_state.md R10, 43_endianness_resolver.md
R129) and the invariant of the machine (10_state.md R15, R27; 70_reset_and_hazards.md R149, R150): O18, O51, O52. -/

namespace Sys2Proof.Machine

/-! ### Serving a command -/

/-- Everything serving a command can do when it answers a next state: other agents' events happen, then the command
runs, and the bytes it contests are drawn before and after. -/
theorem serveCommand_cases {r : Request} {during : List AgentEvent} {s t : State}
    (h : serveCommand r during s = .next t) :
    ∃ u v, whileInProgress r during s = .next u ∧
      runCommand r (u.drawSpans (s.commandRaces (ownClaim s.mem r).toList during)) = .next v ∧
      t = v.drawSpans (s.commandRaces (ownClaim s.mem r).toList during) := by
  obtain ⟨u, hu, h⟩ := andThen_eq_next.mp h
  obtain ⟨v, hv, h⟩ := andThen_eq_next.mp h
  exact ⟨u, v, hu, hv, (Host.Outcome.next.inj h).symm⟩

/-- Everything a command cut off by reset can do when it answers a next state. -/
theorem cutCommand_cases {r : Request} {during : List AgentEvent} {s t : State}
    (h : cutCommand r during s = .next t) :
    ∃ u, whileInProgress r during s = .next u ∧
      t = (u.drawSpans ((ownClaim s.mem r).toList.map (fun p => p.span))).applyReset := by
  obtain ⟨u, hu, h⟩ := andThen_eq_next.mp h
  exact ⟨u, hu, (Host.Outcome.next.inj h).symm⟩

/-- What other agents' events beside a command keep. -/
theorem whileInProgress_keeps {r : Request} {during : List AgentEvent} {s u : State}
    (h : whileInProgress r during s = .next u) :
    u.phase = s.phase ∧ u.defaultLE = s.defaultLE ∧ (s.mem.wf → u.mem.wf) := by
  obtain ⟨hphase, hdef, -, -, -, -, -, hmem⟩ := agentEvents_keeps h
  exact ⟨hphase, hdef, hmem⟩

theorem provideBuffer_cases {xs : List Byte} {s t : State} (h : provideBuffer xs s = .next t) :
    xs.length < 2 ^ Config.addrBits ∧ t = { s with mem := s.mem ++ [Buffer.ofBytes xs] } := by
  unfold provideBuffer at h
  split at h
  · rename_i hlt
    exact ⟨hlt, (Host.Outcome.next.inj h).symm⟩
  · cases h

/-- The host's copy of OUT changes nothing, or provides a buffer. -/
theorem keepOut_cases {s t : State} (h : keepOut s = .next t) : t = s ∨ ∃ xs, provideBuffer xs s = .next t := by
  unfold keepOut at h
  split at h
  · cases h
  · exact .inl (Host.Outcome.next.inj h).symm
  · exact .inr ⟨_, h⟩

/-- Running a command latches its request and answers it, as its decoded word says. -/
theorem runCommand_answers {r : Request} {s t : State} (h : runCommand r s = .next t) :
    t.phase = s.phase ∧ t.defaultLE = s.defaultLE ∧ (s.mem.wf → t.mem.wf) ∧ t.answersItsRequest := by
  cases hd : decode r.cmd with
  | error e =>
    rw [runCommand_illegal hd] at h
    cases h
    exact ⟨rfl, rfl, id, fun p hp => ⟨r, rfl, by rw [hd]; exact (Option.some.inj hp).symm⟩⟩
  | ok i =>
    rw [runCommand_legal hd] at h
    obtain ⟨hdef, hreq, -, hphase, -, -⟩ := exec_keeps h
    obtain ⟨q, hq, hfits⟩ := exec_response_fits h
    refine ⟨hphase, hdef, fun hwf => exec_mem_wf h hwf, fun p hp => ⟨r, hreq, ?_⟩⟩
    obtain rfl : q = p := Option.some.inj (hq.symm.trans hp)
    rw [hd]
    exact hfits

/-! ### DEFAULT_LE -/

theorem serveCommand_defaultLE {r : Request} {during : List AgentEvent} {s t : State}
    (h : serveCommand r during s = .next t) : t.defaultLE = s.defaultLE := by
  obtain ⟨u, v, hu, hv, rfl⟩ := serveCommand_cases h
  obtain ⟨-, hdu, -⟩ := whileInProgress_keeps hu
  obtain ⟨-, hdv, -⟩ := runCommand_answers hv
  simpa [hdu] using hdv

theorem cutCommand_defaultLE {r : Request} {during : List AgentEvent} {s t : State}
    (h : cutCommand r during s = .next t) : t.defaultLE = s.defaultLE := by
  obtain ⟨u, hu, rfl⟩ := cutCommand_cases h
  obtain ⟨-, hdu, -⟩ := whileInProgress_keeps hu
  simpa using hdu

theorem provideBuffer_defaultLE {xs : List Byte} {s t : State} (h : provideBuffer xs s = .next t) :
    t.defaultLE = s.defaultLE := by
  obtain ⟨-, rfl⟩ := provideBuffer_cases h
  rfl

theorem serve_defaultLE {input : HostInput} {s t : State} (h : serve input s = .next t) :
    t.defaultLE = s.defaultLE := by
  cases input with
  | command r during => exact serveCommand_defaultLE h
  | agent e => exact (agentEvent_keeps h).2.1
  | provide xs => exact provideBuffer_defaultLE h
  | keepOut =>
    obtain rfl | ⟨xs, hxs⟩ := keepOut_cases h
    · rfl
    · exact provideBuffer_defaultLE hxs
  | reset => cases h; rfl
  | cutByReset r during => exact cutCommand_defaultLE h

/-- Settles O18, input by input. -/
theorem nothingWritesTheDefaultWhileRunning : Obligations.NothingWritesTheDefaultWhileRunning := by
  intro s t hrun h
  rcases step_cases s with ⟨hres, -⟩ | ⟨-, -, hs⟩ | ⟨input, rest, -, -, hs⟩
  · rw [hrun] at hres
    cases hres
  · rw [hs] at h
    cases h
    rfl
  · exact serve_defaultLE (s := { s with pending := rest }) (hs.symm.trans h)

/-! ### The invariant -/

/-- A state with the same latches, `seq`, phase and default, and with memory in canonical form, meets the invariant
too: the invariant reads nothing else. -/
theorem State.Inv.of_same {s t : State} (hs : s.Inv) (hphase : t.phase = s.phase)
    (hdef : t.defaultLE = s.defaultLE) (hseq : t.seq = s.seq) (hreq : t.request = s.request)
    (hresp : t.response = s.response) (hmem : t.mem.wf) : t.Inv where
  memory := hmem
  default := by rw [hphase, hdef]; exact hs.default
  response := by unfold State.answersItsRequest; rw [hreq, hresp]; exact hs.response
  reset := by rw [hphase, hreq, hresp, hseq]; exact hs.reset

/-- A running state whose response answers its request. -/
theorem State.Inv.of_running {s : State} (hrun : s.phase = .running) (hmem : s.mem.wf)
    (hdef : s.defaultLE = Config.hostDefaultLE) (hresp : s.answersItsRequest) : s.Inv where
  memory := hmem
  default := fun _ => hdef
  response := hresp
  reset := fun h => absurd (hrun.symm.trans h) (by decide)

theorem State.answersItsRequest_of_none {s : State} (h : s.response = none) : s.answersItsRequest :=
  fun p hp => absurd (h.symm.trans hp) (by simp)

theorem State.reset_inv : State.reset.Inv :=
  .of_running rfl State.reset_mem_wf rfl (State.answersItsRequest_of_none rfl)

theorem State.Inv.issue {s : State} (hs : s.Inv) (input : HostInput) : (s.issue input).Inv :=
  hs.of_same rfl rfl rfl rfl rfl hs.memory

/-- Settles O52. -/
theorem resetMeetsTheInvariant : Obligations.ResetMeetsTheInvariant :=
  ⟨State.reset_inv, fun _ input hs => hs.issue input⟩

theorem State.applyReset_inv {s : State} (hs : s.mem.wf) : s.applyReset.Inv where
  memory := hs
  default := fun h => absurd h (by simp)
  response := State.answersItsRequest_of_none rfl
  reset := fun _ => ⟨rfl, rfl, rfl⟩

/-- The end of reset: the latches are empty, and DEFAULT_LE is loaded (70_reset_and_hazards.md R149, R150). -/
theorem State.Inv.finishReset {s : State} (hs : s.Inv) (h : s.phase = .resetting) : s.finishReset.Inv :=
  .of_running rfl hs.memory rfl (State.answersItsRequest_of_none (hs.reset h).2.1)

theorem agentEvent_inv {own : List Claim} {e : AgentEvent} {s t : State} (hs : s.Inv)
    (h : agentEvent own e s = .next t) : t.Inv := by
  obtain ⟨hphase, hdef, hseq, hreq, hresp, -, -, hmem⟩ := agentEvent_keeps h
  exact hs.of_same hphase hdef hseq hreq hresp (hmem hs.memory)

theorem provideBuffer_inv {xs : List Byte} {s t : State} (hs : s.Inv) (h : provideBuffer xs s = .next t) :
    t.Inv := by
  obtain ⟨hlt, rfl⟩ := provideBuffer_cases h
  exact hs.of_same rfl rfl rfl rfl rfl (Memory.wf_append hs.memory (Buffer.wf_ofBytes hlt))

theorem keepOut_inv {s t : State} (hs : s.Inv) (h : keepOut s = .next t) : t.Inv := by
  obtain rfl | ⟨xs, hxs⟩ := keepOut_cases h
  · exact hs
  · exact provideBuffer_inv hs hxs

theorem runCommand_inv {r : Request} {s t : State} (hrun : s.phase = .running) (hmem : s.mem.wf)
    (hdef : s.defaultLE = Config.hostDefaultLE) (h : runCommand r s = .next t) : t.Inv := by
  obtain ⟨hphase, hdef', hmem', hresp⟩ := runCommand_answers h
  exact .of_running (hphase.trans hrun) (hmem' hmem) (hdef'.trans hdef) hresp

theorem State.Inv.drawSpans {s : State} (hs : s.Inv) (ps : List Span) : (s.drawSpans ps).Inv :=
  hs.of_same (by simp) (by simp) (by simp) (by simp) (by simp) (State.drawSpans_mem_wf hs.memory ps)

theorem serveCommand_inv {r : Request} {during : List AgentEvent} {s t : State} (hs : s.Inv)
    (hrun : s.phase = .running) (h : serveCommand r during s = .next t) : t.Inv := by
  obtain ⟨u, v, hu, hv, rfl⟩ := serveCommand_cases h
  obtain ⟨hphase, hdef, hmem⟩ := whileInProgress_keeps hu
  have hvInv : v.Inv := runCommand_inv (by simpa [hphase] using hrun)
    (State.drawSpans_mem_wf (hmem hs.memory) _) (by simpa [hdef] using hs.default hrun) hv
  exact hvInv.drawSpans _

theorem cutCommand_inv {r : Request} {during : List AgentEvent} {s t : State} (hs : s.Inv)
    (h : cutCommand r during s = .next t) : t.Inv := by
  obtain ⟨u, hu, rfl⟩ := cutCommand_cases h
  obtain ⟨-, -, hmem⟩ := whileInProgress_keeps hu
  exact State.applyReset_inv (State.drawSpans_mem_wf (hmem hs.memory) _)

theorem serve_inv {input : HostInput} {s t : State} (hs : s.Inv) (hrun : s.phase = .running)
    (h : serve input s = .next t) : t.Inv := by
  cases input with
  | command r during => exact serveCommand_inv hs hrun h
  | agent e => exact agentEvent_inv hs h
  | provide xs => exact provideBuffer_inv hs h
  | keepOut => exact keepOut_inv hs h
  | reset => cases h; exact State.applyReset_inv hs.memory
  | cutByReset r during => exact cutCommand_inv hs h

/-- Settles O51: the end of reset, the idle step, and every input keep the invariant. -/
theorem stepKeepsTheInvariant : Obligations.StepKeepsTheInvariant := by
  intro s t hs h
  rcases step_cases s with ⟨hres, hstep⟩ | ⟨-, -, hstep⟩ | ⟨input, rest, hrun, -, hstep⟩
  · rw [hstep] at h
    cases h
    exact hs.finishReset hres
  · rw [hstep] at h
    cases h
    exact hs
  · have hs' : ({ s with pending := rest } : State).Inv := hs.of_same rfl rfl rfl rfl rfl hs.memory
    exact serve_inv hs' hrun (hstep.symm.trans h)

end Sys2Proof.Machine
end

section
/-! PROOFS. A command that runs alone: the step is its meaning, and its outcome is a function of DEFAULT_LE and the
request (10_state.md R11, R27; 20_memory.md R38, R41): O5, O12, O28. -/

namespace Sys2Proof.Machine

open Sys2Proof.Claims

/-! ### A command with no access on its span -/

theorem overlap_eq_none {p q : Span}
    (h : p.buf = q.buf → p.start + p.len ≤ q.start ∨ q.start + q.len ≤ p.start) : p.overlap q = none := by
  unfold Span.overlap
  refine if_neg fun ⟨hbuf, hlt⟩ => ?_
  have := h hbuf
  omega

theorem contested_eq_nil {p q : Claim}
    (h : p.span.buf = q.span.buf →
      p.span.start + p.span.len ≤ q.span.start ∨ q.span.start + q.span.len ≤ p.span.start) :
    p.contested q = [] := by
  simp [Claim.contested, overlap_eq_none h]

/-- What a command claims lies in its span of the buffer its request names (20_memory.md R29). -/
theorem ownClaim_cases {m : Memory} {r : Request} {p : Claim} (h : ownClaim m r = some p) :
    ∃ i, decode r.cmd = .ok i ∧ (i.op = .enc ∨ i.op = .dec) ∧ r.buf = some p.span.buf ∧
      p.span.start = r.offset.toNat ∧ p.span.len ≤ i.width.bytes := by
  unfold ownClaim at h
  split at h
  · cases h
  · rename_i i hi
    split at h
    · rename_i hop
      split at h
      · cases h
      · rename_i k b hb
        obtain rfl := Option.some.inj h
        exact ⟨i, hi, hop, (Memory.caller_eq_some.mp hb).1, rfl, by dsimp only; omega⟩
    · cases h

/-- An access disjoint from the span contests nothing with the command, in either direction. -/
theorem contested_of_disjointFrom {m : Memory} {r : Request} {p : Claim} {a : AgentAccess}
    (hp : ownClaim m r = some p) (ha : disjointFrom r a) :
    p.contested a.claim = [] ∧ a.claim.contested p = [] := by
  obtain ⟨i, hi, hop, hbuf, hstart, hlen⟩ := ownClaim_cases hp
  have hdisj (hk : p.span.buf = a.span.buf) :
      a.span.start + a.span.len ≤ p.span.start ∨ p.span.start + p.span.len ≤ a.span.start := by
    have hspan := ha i hi hop (hk ▸ hbuf)
    omega
  exact ⟨contested_eq_nil fun hk => (hdisj hk).symm, contested_eq_nil fun hk => hdisj hk.symm⟩

/-- The step on a command that runs alone. -/
theorem step_alone {s : State} {r : Request} {rest : List HostInput} (hrun : s.phase = .running)
    (hpend : s.pending = .command r [] :: rest) (halone : runsAlone s r) :
    step s = runCommand r { s with pending := rest } :=
  (step_serves hrun hpend).trans
    (serveCommand_alone fun _ hp e he => contested_of_disjointFrom hp (halone e he))

/-- Settles O5. -/
theorem stepRunsTheDecodedCommand : Obligations.StepRunsTheDecodedCommand := by
  intro s r rest i hrun hpend halone hdec
  rw [step_alone hrun hpend halone, runCommand_legal hdec]
  rfl

/-! ### A name without a buffer -/

theorem op_of_mem_encAll {x : Option Endian} {p : Instr × Nat} (h : p ∈ encAll x) : p.1.op = .enc := by
  have hall : ∀ q ∈ encAll x, q.1.op = .enc := by simp [encAll, encNarrow, encWide, Instr.op, Instr.parts]
  exact hall p h

theorem op_of_mem_decAll {x : Option Endian} {p : Instr × Nat} (h : p ∈ decAll x) : p.1.op = .dec := by
  have hall : ∀ q ∈ decAll x, q.1.op = .dec := by simp [decAll, Instr.op, Instr.parts]
  exact hall p h

theorem Memory.caller_eq_none {m : Memory} {k : Nat} (h : m[k]? = none) : m.caller (some k) = none := by
  simp [Memory.caller, h]

/-- ENC and DEC on an absent buffer (60_exceptions.md R133). -/
theorem exec_absent {i : Instr} {s : State} {r : Request} (hop : i.op = .enc ∨ i.op = .dec)
    (hr : s.request = some r) (hb : s.mem.caller r.buf = none) : exec i s = .next (s.raise .invalidArgument) := by
  rw [exec_eq]
  rcases hop with hop | hop <;> simp only [hop]
  · exact encodeInPlace_absent hr hb
  · exact decodeBuffer_absent hr hb

/-- Settles O28. -/
theorem unprovidedNameIsAnAbsentBuffer : Obligations.UnprovidedNameIsAnAbsentBuffer := by
  intro s r k x hr hk hnone p hp
  exact exec_absent ((List.mem_append.mp hp).imp op_of_mem_encAll op_of_mem_decAll) hr
    (hk ▸ Memory.caller_eq_none hnone)

/-! ### The outcome is a function of DEFAULT_LE and the request -/

/-- Two states with the request `r` latched that agree on DEFAULT_LE and on the caller buffer `r` names: all a command
reads (10_state.md R27). -/
structure SameOperands (s₁ s₂ : State) (r : Request) : Prop where
  request₁ : s₁.request = some r
  request₂ : s₂.request = some r
  default  : s₁.defaultLE = s₂.defaultLE
  caller   : s₁.mem.caller r.buf = s₂.mem.caller r.buf

/-- Two outcomes of the request `r` from the states `s₁` and `s₂`: the same response, and the same caller buffer
afterwards, for an OutOfRange when its draws carry the same numbers. -/
def SameOutcome (s₁ s₂ t₁ t₂ : State) (r : Request) : Prop :=
  t₂.response = t₁.response ∧
    (s₁.draws = s₂.draws ∨ (∀ p, t₁.response = some p → p.status ≠ .outOfRange) →
      t₂.mem.caller r.buf = t₁.mem.caller r.buf)

theorem resolve_congr {s₁ s₂ : State} (h : s₁.defaultLE = s₂.defaultLE) (x : Option Endian) :
    s₁.resolve x = s₂.resolve x := by
  simp [State.resolve, h]

theorem Memory.caller_set {m : Memory} {buf : Option Nat} {k : Nat} {b : Buffer} (h : m.caller buf = some (k, b))
    (b' : Buffer) : Memory.caller (m.set k b') buf = some (k, b') := by
  obtain ⟨rfl, hb⟩ := Memory.caller_eq_some.mp h
  exact Memory.caller_eq_some.mpr ⟨rfl, List.getElem?_set_self (List.getElem?_eq_some_iff.mp hb).1⟩

section
variable {s₁ s₂ t₁ : State} {r : Request} {w : Width} {x : Option Endian}

/-- A command that only answers leaves the caller buffers as they agreed. -/
theorem SameOperands.sameOutcome_respond (hs : SameOperands s₁ s₂ r) (v : Option Value) (o : Option (List Byte)) :
    SameOutcome s₁ s₂ (s₁.respond v o) (s₂.respond v o) r :=
  ⟨rfl, fun _ => hs.caller.symm⟩

theorem SameOperands.sameOutcome_raise (hs : SameOperands s₁ s₂ r) (e : Status) :
    SameOutcome s₁ s₂ (s₁.raise e) (s₂.raise e) r :=
  ⟨rfl, fun _ => hs.caller.symm⟩

theorem encodeInPlace_sameOutcome (hs : SameOperands s₁ s₂ r) (h : encodeInPlace w x s₁ = .next t₁) :
    ∃ t₂, encodeInPlace w x s₂ = .next t₂ ∧ SameOutcome s₁ s₂ t₁ t₂ r := by
  obtain ⟨r', hr', hcases⟩ := encodeInPlace_cases h
  obtain rfl : r = r' := Option.some.inj (hs.request₁.symm.trans hr')
  rcases hcases with ⟨hb, rfl⟩ | ⟨k, b, hb, ⟨hlt, rfl⟩ | ⟨hle, rfl⟩⟩
  · exact ⟨_, encodeInPlace_absent hs.request₂ (hs.caller ▸ hb), hs.sameOutcome_raise _⟩
  · have hb₂ := hs.caller ▸ hb
    refine ⟨_, encodeInPlace_outOfRange hs.request₂ hb₂ hlt, ?_⟩
    rw [State.raiseOutOfRange_eq (Memory.caller_eq_some.mp hb).2,
      State.raiseOutOfRange_eq (Memory.caller_eq_some.mp hb₂).2]
    refine ⟨rfl, fun hsame => ?_⟩
    have hdraws : s₁.draws = s₂.draws := hsame.resolve_right fun hne => hne _ rfl rfl
    simp only [Memory.caller_set hb, Memory.caller_set hb₂, hdraws]
  · have hb₂ := hs.caller ▸ hb
    refine ⟨_, encodeInPlace_writes hs.request₂ hb₂ hle, rfl, fun _ => ?_⟩
    simp only [State.respond_mem, State.setBuffer_mem, Memory.caller_set hb, Memory.caller_set hb₂,
      resolve_congr hs.default]

theorem decodeBuffer_sameOutcome (hs : SameOperands s₁ s₂ r) (h : decodeBuffer w x s₁ = .next t₁) :
    ∃ t₂, decodeBuffer w x s₂ = .next t₂ ∧ SameOutcome s₁ s₂ t₁ t₂ r := by
  obtain ⟨r', hr', hcases⟩ := decodeBuffer_cases h
  obtain rfl : r = r' := Option.some.inj (hs.request₁.symm.trans hr')
  rw [resolve_congr hs.default] at hcases
  rcases hcases with ⟨hb, rfl⟩ | ⟨k, b, hb, ⟨h0, rfl⟩ | ⟨h0, hle, rfl⟩ | ⟨hlt, rfl⟩⟩
  · exact ⟨_, decodeBuffer_absent hs.request₂ (hs.caller ▸ hb), hs.sameOutcome_raise _⟩
  · exact ⟨_, decodeBuffer_empty hs.request₂ (hs.caller ▸ hb) h0, hs.sameOutcome_respond _ _⟩
  · exact ⟨_, decodeBuffer_pastEnd hs.request₂ (hs.caller ▸ hb) h0 hle, hs.sameOutcome_raise _⟩
  · exact ⟨_, decodeBuffer_reads hs.request₂ (hs.caller ▸ hb) hlt, hs.sameOutcome_respond _ _⟩

theorem encodeFresh_sameOutcome (hs : SameOperands s₁ s₂ r) (h : encodeFresh w x s₁ = .next t₁) :
    ∃ t₂, encodeFresh w x s₂ = .next t₂ ∧ SameOutcome s₁ s₂ t₁ t₂ r := by
  rw [encodeFresh_answers hs.request₁, resolve_congr hs.default] at h
  cases h
  exact ⟨_, encodeFresh_answers hs.request₂, hs.sameOutcome_respond _ _⟩

theorem exportTrimmed_sameOutcome (hs : SameOperands s₁ s₂ r) (h : exportTrimmed w x s₁ = .next t₁) :
    ∃ t₂, exportTrimmed w x s₂ = .next t₂ ∧ SameOutcome s₁ s₂ t₁ t₂ r := by
  rw [exportTrimmed_answers hs.request₁, resolve_congr hs.default] at h
  cases h
  exact ⟨_, exportTrimmed_answers hs.request₂, hs.sameOutcome_respond _ _⟩

theorem queryDefault_sameOutcome (hs : SameOperands s₁ s₂ r) (h : queryDefault s₁ = .next t₁) :
    ∃ t₂, queryDefault s₂ = .next t₂ ∧ SameOutcome s₁ s₂ t₁ t₂ r := by
  rw [queryDefault, hs.default] at h
  cases h
  exact ⟨_, rfl, hs.sameOutcome_respond _ _⟩

theorem exec_sameOutcome {i : Instr} (hs : SameOperands s₁ s₂ r) (h : exec i s₁ = .next t₁) :
    ∃ t₂, exec i s₂ = .next t₂ ∧ SameOutcome s₁ s₂ t₁ t₂ r := by
  rw [exec_eq] at h
  rw [exec_eq]
  cases hop : i.op <;> simp only [hop] at h ⊢
  case enc => exact encodeInPlace_sameOutcome hs h
  case enca => exact encodeFresh_sameOutcome hs h
  case dec => exact decodeBuffer_sameOutcome hs h
  case expt => exact exportTrimmed_sameOutcome hs h
  case qend => exact queryDefault_sameOutcome hs h

theorem runCommand_sameOutcome (hdef : s₁.defaultLE = s₂.defaultLE)
    (hcall : s₁.mem.caller r.buf = s₂.mem.caller r.buf) (h : runCommand r s₁ = .next t₁) :
    ∃ t₂, runCommand r s₂ = .next t₂ ∧ SameOutcome s₁ s₂ t₁ t₂ r := by
  have hs : SameOperands (s₁.latch r) (s₂.latch r) r := ⟨rfl, rfl, hdef, hcall⟩
  cases hd : decode r.cmd with
  | error e =>
    rw [runCommand_illegal hd] at h
    cases h
    exact ⟨_, runCommand_illegal hd s₂, hs.sameOutcome_raise _⟩
  | ok i =>
    rw [runCommand_legal hd] at h
    rw [runCommand_legal hd]
    exact exec_sameOutcome (s₁ := s₁.latch r) hs h

end

/-- Settles O12: alone, a step is the command, and the command reads DEFAULT_LE and its request alone. -/
theorem outcomeDependsOnDefaultAndRequestAlone : Obligations.OutcomeDependsOnDefaultAndRequestAlone := by
  intro s₁ s₂ t₁ r rest₁ rest₂ hrun₁ hrun₂ hpend₁ hpend₂ halone₁ halone₂ hdef hcall h
  rw [step_alone hrun₁ hpend₁ halone₁] at h
  rw [step_alone hrun₂ hpend₂ halone₂]
  exact runCommand_sameOutcome (s₁ := { s₁ with pending := rest₁ }) (s₂ := { s₂ with pending := rest₂ })
    hdef hcall h

end Sys2Proof.Machine
end

section
/-! PROOFS. Reset and the host's buffers: the reset values (10_state.md R25), the canonical form (R15) and the host's
copy of OUT (70_reset_and_hazards.md R157): O14, O53, O59. -/

namespace Sys2Proof.Machine

/-- Settles O14: every clause reads a field of the reset state. -/
theorem resetValues : Obligations.ResetValues :=
  ⟨rfl, rfl, rfl, rfl, rfl, rfl, rfl, rfl⟩

/-! ### The canonical form -/

theorem cellAt_of_forall_ne {cs : List Host.Cell} {i : Nat} (h : ∀ c ∈ cs, c.1 ≠ i) : cellAt cs i = 0 := by
  induction cs with
  | nil => rfl
  | cons c cs ih =>
    obtain ⟨hc, hcs⟩ := List.forall_mem_cons.mp h
    rw [cellAt, if_neg hc, ih hcs]

/-- Cells at rising indexes, none 00, are exactly the bytes that read as not 00. -/
theorem mem_iff_cellAt {cs : List Host.Cell} (hrise : cs.Pairwise (fun x y => x.1 < y.1)) (hne : ∀ c ∈ cs, c.2 ≠ 0)
    (c : Host.Cell) : c ∈ cs ↔ c.2 ≠ 0 ∧ cellAt cs c.1 = c.2 := by
  induction cs with
  | nil => simpa [cellAt] using fun h => Ne.symm h
  | cons d cs ih =>
    obtain ⟨hd, hcs⟩ := List.pairwise_cons.mp hrise
    obtain ⟨hd0, hcs0⟩ := List.forall_mem_cons.mp hne
    rw [List.mem_cons, ih hcs hcs0, cellAt]
    by_cases hdc : d.1 = c.1
    · have hrest : cellAt cs c.1 = 0 := cellAt_of_forall_ne fun e he => by
        have := hd e he
        omega
      rw [if_pos hdc, hrest]
      constructor
      · rintro (rfl | ⟨h0, h⟩)
        · exact ⟨hd0, rfl⟩
        · exact absurd h.symm h0
      · rintro ⟨-, h⟩
        exact .inl (Prod.ext hdc.symm h.symm)
    · rw [if_neg hdc]
      exact or_iff_right fun h => hdc (congrArg Prod.fst h).symm

/-- Past the end a buffer in canonical form has no cell. -/
theorem Buffer.read_of_len_le {b : Buffer} (hb : b.wf) {i : Nat} (h : b.len ≤ i) : b.read i = 0 :=
  cellAt_of_forall_ne fun c hc => by
    have := (hb.2.2 c hc).1
    omega

theorem cells_eq_of_cellAt {cs ds : List Host.Cell} (hc : cs.Pairwise (fun x y => x.1 < y.1))
    (hd : ds.Pairwise (fun x y => x.1 < y.1)) (hc0 : ∀ c ∈ cs, c.2 ≠ 0) (hd0 : ∀ c ∈ ds, c.2 ≠ 0)
    (h : ∀ i, cellAt cs i = cellAt ds i) : cs = ds := by
  have hanti : Std.Antisymm (fun x y : Host.Cell => x.1 < y.1) := ⟨fun _ _ h₁ h₂ => absurd h₁ (Nat.lt_asymm h₂)⟩
  have hirr : Std.Irrefl (fun x y : Host.Cell => x.1 < y.1) := ⟨fun _ => Nat.lt_irrefl _⟩
  exact hc.eq_of_mem_iff hd fun c => by rw [mem_iff_cellAt hc hc0, mem_iff_cellAt hd hd0, h]

/-- Settles O53: the cells of a canonical buffer are exactly its bytes that are not 00. -/
theorem canonicalBuffersAreEqualWhenTheyReadAlike : Obligations.CanonicalBuffersAreEqualWhenTheyReadAlike := by
  intro b c hb hc hlen h
  have hread (i : Nat) : b.read i = c.read i := by
    by_cases hi : i < b.len
    · exact h i hi
    · rw [Buffer.read_of_len_le hb (by omega), Buffer.read_of_len_le hc (by omega)]
  obtain ⟨-, hbrise, hbcell⟩ := hb
  obtain ⟨-, hcrise, hccell⟩ := hc
  have hcells : b.cells = c.cells :=
    cells_eq_of_cellAt hbrise hcrise (fun x hx => (hbcell x hx).2) (fun x hx => (hccell x hx).2) hread
  exact congrArg₂ Buffer.mk hlen hcells

/-! ### The host's copy of OUT -/

theorem Buffer.toBytes_ofBytes (xs : List Byte) : (Buffer.ofBytes xs).toBytes = xs := by
  apply List.ext_getElem
  · simp [Buffer.toBytes, Buffer.ofBytes_len]
  · intro i hi hi'
    simp only [Buffer.toBytes, Buffer.readBytes_getElem, Nat.zero_add, Buffer.read_ofBytes]
    exact List.getD_eq_getElem xs 0 hi'

/-- Before any command OUT cannot be read (10_state.md R25). -/
theorem keepOut_noResponse {s : State} (h : s.response = none) : keepOut s = .fault (.latchHoldsNoValue .out) := by
  simp [keepOut, State.readOut, State.readResponse, h, Except.map]

theorem keepOut_noOut {s : State} {p : Response} (h : s.response = some p) (hout : p.out = none) :
    keepOut s = .next s := by
  simp [keepOut, State.readOut, State.readResponse, h, hout, Except.map]

theorem keepOut_out {s : State} {p : Response} {xs : List Byte} (h : s.response = some p) (hout : p.out = some xs)
    (hlen : xs.length < 2 ^ Config.addrBits) :
    keepOut s = .next { s with mem := s.mem ++ [Buffer.ofBytes xs] } := by
  simp [keepOut, State.readOut, State.readResponse, h, hout, Except.map, provideBuffer, hlen]

/-- Settles O59, by what the last response holds. -/
theorem keptOutIsACopy : Obligations.KeptOutIsACopy := by
  intro s rest hrun hpend
  have hstep : step s = keepOut { s with pending := rest } := step_serves hrun hpend
  exact ⟨fun p xs hp hout hlen =>
      ⟨Buffer.ofBytes xs, hstep.trans (keepOut_out hp hout hlen), Buffer.toBytes_ofBytes xs⟩,
    fun p hp hout => hstep.trans (keepOut_noOut hp hout),
    fun hnone => hstep.trans (keepOut_noResponse hnone)⟩

end Sys2Proof.Machine
end

section
/-! PROOFS. What serving an input does to the pending list, and which commands leave the caller buffers alone
(20_memory.md R34, R41): O8, O30. -/

namespace Sys2Proof.Machine

/-! ### Inputs are served in issue order -/

/-- What running a command keeps of the state around it, and that it answers (10_state.md R21). -/
theorem runCommand_keeps {r : Request} {s t : State} (h : runCommand r s = .next t) :
    t.pending = s.pending ∧ t.inFlight = s.inFlight ∧ t.seq = s.seq + 1 ∧ ∃ p, t.response = some p := by
  cases hd : decode r.cmd with
  | error e =>
    rw [runCommand_illegal hd] at h
    cases h
    exact ⟨rfl, rfl, rfl, _, rfl⟩
  | ok i =>
    rw [runCommand_legal hd] at h
    obtain ⟨-, -, hpend, -, hflight, hseq⟩ := exec_keeps h
    obtain ⟨p, hp, -⟩ := exec_response_fits h
    exact ⟨hpend, hflight, hseq, p, hp⟩

theorem whileInProgress_pending {r : Request} {during : List AgentEvent} {s u : State}
    (h : whileInProgress r during s = .next u) : u.pending = s.pending := by
  obtain ⟨-, -, -, -, -, hpend, -⟩ := agentEvents_keeps h
  exact hpend

theorem provideBuffer_pending {xs : List Byte} {s t : State} (h : provideBuffer xs s = .next t) :
    t.pending = s.pending := by
  obtain ⟨-, rfl⟩ := provideBuffer_cases h
  rfl

/-- No input touches the inputs behind it, whatever it is. -/
theorem serve_pending {input : HostInput} {s t : State} (h : serve input s = .next t) : t.pending = s.pending := by
  cases input with
  | command r during =>
    obtain ⟨u, v, hu, hv, rfl⟩ := serveCommand_cases h
    obtain ⟨hpend, -⟩ := runCommand_keeps hv
    simpa [whileInProgress_pending hu] using hpend
  | agent e => exact (agentEvent_keeps h).2.2.2.2.2.1
  | provide xs => exact provideBuffer_pending h
  | keepOut =>
    obtain rfl | ⟨xs, hxs⟩ := keepOut_cases h
    · rfl
    · exact provideBuffer_pending hxs
  | reset => cases h; rfl
  | cutByReset r during =>
    obtain ⟨u, hu, rfl⟩ := cutCommand_cases h
    simpa using whileInProgress_pending hu

/-- Settles O8: the step takes the head off, and serving it leaves the others. -/
theorem inputsAreServedInIssueOrder : Obligations.InputsAreServedInIssueOrder := by
  intro s t input rest hrun hpend h
  rw [step_serves hrun hpend] at h
  exact serve_pending (s := { s with pending := rest }) h

/-! ### Only ENC writes -/

theorem exec_draws_of_not_enc {i : Instr} {s t : State} (h : exec i s = .next t) (hop : i.op ≠ .enc) :
    t.draws = s.draws := by
  obtain ⟨p, -, rfl | ⟨henc, -⟩⟩ := exec_cases h
  · rfl
  · exact absurd henc hop

/-- Settles O30, from the inversion of `exec`. -/
theorem onlyEncTouchesBuffers : Obligations.OnlyEncTouchesBuffers :=
  fun _ _ _ hop h => ⟨exec_mem_of_not_enc h hop, exec_draws_of_not_enc h hop⟩

end Sys2Proof.Machine
end

section
/-! PROOFS. The bytes an ENC leaves in its span and the bytes a DEC reads from it, for the width codec and the composer
alike (40_width_codec.md R65, R66; 41_length_reconciliation.md R91; 42_extended_composer.md R100 to R103): O29, O47. -/

namespace Sys2Proof

theorem Width.bytes_eq_limbs {w : Width} (h : w.limbs ≠ 0) : w.bytes = 8 * w.limbs := by
  have := Width.limbs_bits h
  have := w.bits_eq
  omega

namespace Machine

open Sys2Proof.Claims

theorem orderUsed_eq_resolve (s : State) (x : Option Endian) : orderUsed s x = s.resolve x := by
  cases x <;> rfl

/-! ### The pieces of an encode spell its image -/

theorem flatByte_le (n : Nat) (v : Value) (i : Nat) : flatByte n v .le i = byteAt v i := rfl

theorem flatByte_be (n : Nat) (v : Value) (i : Nat) : flatByte n v .be i = byteAt v (n - 1 - i) := rfl

theorem packBytes_getD_eq_flatByte {n i : Nat} (hi : i < n) (v : Value) (e : Endian) :
    (packBytes n v e).getD i 0 = flatByte n v e i := by
  rw [packBytes_getD, if_pos hi]
  cases e <;> rfl

/-- A limb in its slot spells the bytes of the whole value (42_extended_composer.md R100, R101). -/
theorem packLimb_getD {k j i : Nat} (hj : j < k) (hi : i < 8) (v : Value) (e : Endian) :
    (packLimb (limb k j v) e).getD i 0 = flatByte (8 * k) v e (slot j k e + i) := by
  rw [packLimb, packBytes_getD_eq_flatByte hi]
  cases e with
  | le => rw [flatByte_le, flatByte_le, byteAt_limb, if_pos hi, slot]
  | be =>
    rw [flatByte_be, flatByte_be, byteAt_limb, if_pos (by omega), slot]
    congr 1
    omega

theorem pieces_getD {w : Width} {v : Value} {e : Endian} {p : Nat × List Byte} (hp : p ∈ pieces w v e) {i : Nat}
    (hi : i < p.2.length) : p.2.getD i 0 = flatByte w.bytes v e (p.1 + i) := by
  unfold pieces at hp
  split at hp
  · obtain rfl := List.mem_singleton.mp hp
    rw [Nat.zero_add]
    exact packBytes_getD_eq_flatByte (by simpa using hi) v e
  · rename_i hw
    obtain ⟨j, hj, rfl⟩ := List.mem_map.mp hp
    rw [Width.bytes_eq_limbs hw]
    exact packLimb_getD (List.mem_range.mp hj) (by simpa using hi) v e

/-- Every byte of the span lies in a piece. -/
theorem pieces_cover {w : Width} (v : Value) (e : Endian) {i : Nat} (hi : i < w.bytes) :
    ∃ p ∈ pieces w v e, p.1 ≤ i ∧ i < p.1 + p.2.length := by
  unfold pieces
  split
  · exact ⟨_, List.mem_singleton_self _, Nat.zero_le i, by simpa using hi⟩
  · rename_i hw
    rw [Width.bytes_eq_limbs hw] at hi
    cases e with
    | le =>
      refine ⟨_, List.mem_map_of_mem (List.mem_range.mpr (show w.limbs - 1 - i / 8 < w.limbs by omega)), ?_⟩
      simp only [slot, packLimb_length]
      omega
    | be =>
      refine ⟨_, List.mem_map_of_mem (List.mem_range.mpr (show i / 8 < w.limbs by omega)), ?_⟩
      simp only [slot, packLimb_length]
      omega

/-- Pieces that all spell the same bytes `f` leave `f` wherever one of them lies, in whatever order they are written. -/
theorem Buffer.read_writePieces {b : Buffer} {base n : Nat} {ps : List (Nat × List Byte)} {f : Nat → Byte}
    (hspell : ∀ p ∈ ps, ∀ i < p.2.length, p.2.getD i 0 = f (p.1 + i))
    (hin : ∀ p ∈ ps, p.1 + p.2.length ≤ n) (hn : base + n ≤ b.len) (j : Nat) :
    (b.writePieces base ps).read j =
      if ∃ p ∈ ps, base + p.1 ≤ j ∧ j < base + p.1 + p.2.length then f (j - base) else b.read j := by
  induction ps generalizing b with
  | nil => simp
  | cons p ps ih =>
    obtain ⟨hp, hps⟩ := List.forall_mem_cons.mp hspell
    obtain ⟨hpin, hpsin⟩ := List.forall_mem_cons.mp hin
    rw [Buffer.writePieces_cons, ih hps hpsin (by rwa [Buffer.writeBytes_len]), Buffer.read_writeBytes]
    simp only [List.mem_cons, exists_eq_or_imp]
    by_cases hrest : ∃ q ∈ ps, base + q.1 ≤ j ∧ j < base + q.1 + q.2.length
    · rw [if_pos hrest, if_pos (.inr hrest)]
    · rw [if_neg hrest]
      by_cases hj : base + p.1 ≤ j ∧ j < base + p.1 + p.2.length
      · rw [if_pos ⟨hj.1, hj.2, by omega⟩, if_pos (.inl hj), hp _ (by omega)]
        congr 1
        omega
      · rw [if_neg fun hc => hj ⟨hc.1, hc.2.1⟩, if_neg fun hc => hc.elim hj hrest]

/-- Every byte of the buffer after an encode in range. -/
theorem Buffer.read_encode {b : Buffer} {base : Nat} {w : Width} (h : base + w.bytes ≤ b.len) (v : Value) (e : Endian)
    (j : Nat) :
    (b.writePieces base (pieces w v e)).read j =
      if base ≤ j ∧ j < base + w.bytes then flatByte w.bytes v e (j - base) else b.read j := by
  rw [Buffer.read_writePieces (fun p hp i => pieces_getD hp) (fun p => pieces_inside) h]
  refine if_congr ⟨?_, fun hj => ?_⟩ rfl rfl
  · rintro ⟨p, hp, hj⟩
    have := pieces_inside hp
    omega
  · obtain ⟨p, hp, hcov⟩ := pieces_cover v e (w := w) (i := j - base) (by omega)
    exact ⟨p, hp, by omega⟩

/-! ### ENC in range -/

/-- Every ENC of the list has its byte count and its endianness. -/
theorem of_mem_encAll {x : Option Endian} {p : Instr × Nat} (h : p ∈ encAll x) :
    p.1.width.bytes = p.2 ∧ p.1.explicit = x := by
  have hall : ∀ q ∈ encAll x, q.1.width.bytes = q.2 ∧ q.1.explicit = x := by
    simp [encAll, encNarrow, encWide, Instr.width, Instr.explicit, Instr.parts, Width.bytes]
  exact hall p h

theorem of_mem_decAll {x : Option Endian} {p : Instr × Nat} (h : p ∈ decAll x) :
    p.1.width.bytes = p.2 ∧ p.1.explicit = x := by
  have hall : ∀ q ∈ decAll x, q.1.width.bytes = q.2 ∧ q.1.explicit = x := by
    simp [decAll, Instr.width, Instr.explicit, Instr.parts, Width.bytes]
  exact hall p h

section
variable {i : Instr} {s : State} {r : Request} {k : Nat} {b : Buffer}

theorem exec_enc_writes (hop : i.op = .enc) (hr : s.request = some r) (hk : r.buf = some k)
    (hb : s.mem[k]? = some b) (hle : r.offset.toNat + i.width.bytes ≤ b.len) :
    exec i s =
      .next ((s.setBuffer k
        (b.writePieces r.offset.toNat (pieces i.width r.value (s.resolve i.explicit)))).respond none none) := by
  rw [exec_eq, hop]
  exact encodeInPlace_writes hr (Memory.caller_eq_some.mpr ⟨hk, hb⟩) hle

theorem exec_dec_reads (hop : i.op = .dec) (hr : s.request = some r) (hk : r.buf = some k)
    (hb : s.mem[k]? = some b) (hlt : r.offset.toNat < b.len) :
    exec i s =
      .next (s.respond
        (some (readImage i.width (decodeInput i.width (s.resolve i.explicit) b r.offset.toNat)
          (s.resolve i.explicit))) none) := by
  rw [exec_eq, hop]
  exact decodeBuffer_reads hr (Memory.caller_eq_some.mpr ⟨hk, hb⟩) hlt

end

theorem Memory.getElem?_set_of_some {m : Memory} {k : Nat} {b : Buffer} (h : m[k]? = some b) (b' : Buffer) :
    (m.set k b')[k]? = some b' :=
  List.getElem?_set_self (List.getElem?_eq_some_iff.mp h).1

/-- Encoding twice over a buffer in canonical form is encoding once. -/
theorem Buffer.encode_encode {b : Buffer} (hb : b.wf) {base : Nat} {w : Width} (h : base + w.bytes ≤ b.len) (v : Value)
    (e : Endian) :
    (b.writePieces base (pieces w v e)).writePieces base (pieces w v e) = b.writePieces base (pieces w v e) := by
  have hb' := Buffer.wf_writePieces hb base (pieces w v e)
  refine canonicalBuffersAreEqualWhenTheyReadAlike _ _ (Buffer.wf_writePieces hb' _ _) hb'
    (Buffer.writePieces_len ..) fun j _ => ?_
  rw [Buffer.read_encode (by rwa [Buffer.writePieces_len]), Buffer.read_encode h]
  split <;> rfl

/-- Settles O29: both ENCs write the same pieces, and a canonical buffer is its bytes. -/
theorem repeatedEncWritesTheSameBytes : Obligations.RepeatedEncWritesTheSameBytes := by
  intro s t u r k b x hwf hr hk hb p hp hle ht hu
  have hop := op_of_mem_encAll hp
  obtain ⟨hn, -⟩ := of_mem_encAll hp
  rw [← hn] at hle
  rw [exec_enc_writes hop hr hk hb hle] at ht
  cases ht
  rw [exec_enc_writes hop (by simpa using hr) hk (by simpa using Memory.getElem?_set_of_some hb _)
    (by rwa [Buffer.writePieces_len])] at hu
  cases hu
  show (s.mem.set k _).set k _ = s.mem.set k _
  rw [List.set_set]
  exact congrArg (s.mem.set k) (Buffer.encode_encode (Memory.wf_getElem? hwf hb) hle _ _)

/-! ### The pattern that limbs spell -/

theorem byteAt_congr {u v : Value} {m n : Nat} (h : ∀ i < 8, u.getLsbD (8 * m + i) = v.getLsbD (8 * n + i)) :
    byteAt u m = byteAt v n := by
  apply BitVec.eq_of_getLsbD_eq
  intro i hi
  rw [byteAt_getLsbD, byteAt_getLsbD, h i hi]

theorem byteAt_eq_zero {v : Value} {m : Nat} (h : ∀ i < 8, v.getLsbD (8 * m + i) = false) : byteAt v m = 0 := by
  apply BitVec.eq_of_getLsbD_eq
  intro i hi
  rw [byteAt_getLsbD, h i hi, Bool.and_false]
  exact BitVec.getLsbD_zero.symm

/-- Byte m of a pattern shifted up by one limb with a limb put below it. -/
theorem byteAt_shiftLeft_or_limb (v : Value) (l : Limb) (m : Nat) :
    byteAt ((v <<< 64) ||| l.setWidth 256) m =
      if m < 8 then byteAt (l.setWidth 256) m else if m < 32 then byteAt v (m - 8) else 0 := by
  by_cases h8 : m < 8
  · rw [if_pos h8]
    refine byteAt_congr fun i hi => ?_
    simp [show 8 * m + i < 64 by omega]
  · have hl (i : Nat) : l.getLsbD (8 * m + i) = false := BitVec.getLsbD_of_ge l _ (by omega)
    rw [if_neg h8]
    split
    · refine byteAt_congr fun i hi => ?_
      rw [show 8 * (m - 8) + i = 8 * m + i - 64 by omega]
      simp only [BitVec.getLsbD_or, BitVec.getLsbD_shiftLeft, BitVec.getLsbD_setWidth, hl,
        show 8 * m + i < 256 by omega, show ¬ 8 * m + i < 64 by omega, decide_true, decide_false, Bool.not_false,
        Bool.true_and, Bool.and_false, Bool.or_false]
    · refine byteAt_eq_zero fun i hi => ?_
      simp [hl, show ¬ 8 * m + i < 256 by omega]

/-- Byte m of the pattern that limbs spell, most significant limb first (10_state.md R13). -/
theorem byteAt_joinLimbs (ls : List Limb) {m : Nat} (hm : m < 32) :
    byteAt (joinLimbs ls) m =
      if m < 8 * ls.length then byteAt ((ls.getD (ls.length - 1 - m / 8) 0).setWidth 256) (m % 8) else 0 := by
  induction ls using List.reverseRecOn generalizing m with
  | nil => simpa [joinLimbs] using byteAt_zero m
  | append_singleton ls l ih =>
    rw [joinLimbs_concat, byteAt_shiftLeft_or_limb, List.length_append, List.length_singleton]
    by_cases h8 : m < 8
    · simp [h8, show m < 8 * (ls.length + 1) by omega, show m / 8 = 0 by omega, Nat.mod_eq_of_lt h8]
    · rw [if_neg h8, if_pos hm, ih (by omega)]
      refine if_ctx_congr (by omega) (fun hlt => ?_) fun _ => rfl
      have hidx : ls.length + 1 - 1 - m / 8 = ls.length - 1 - (m - 8) / 8 := by omega
      rw [hidx, List.getD_append _ _ _ _ (by omega), show (m - 8) % 8 = m % 8 by omega]

theorem byteAt_unpackLimb (ys : List Byte) (e : Endian) {i : Nat} (hi : i < 8) :
    byteAt ((unpackLimb ys e).setWidth 256) i = byteAt (unpackBytes ys e) i :=
  byteAt_congr fun l hl => by
    simp [unpackLimb, show 8 * i + l < 64 by omega, show 8 * i + l < 256 by omega]

/-- Where byte j of the pattern stands among the m bytes that begin at `start` (40_width_codec.md R66). -/
def sourceIndex (e : Endian) (start m j : Nat) : Nat :=
  match e with
  | .le => start + j
  | .be => start + (m - 1 - j)

@[simp] theorem sourceIndex_le (start m j : Nat) : sourceIndex .le start m j = start + j := rfl

@[simp] theorem sourceIndex_be (start m j : Nat) : sourceIndex .be start m j = start + (m - 1 - j) := rfl

theorem sourceIndex_bounds {start m j : Nat} (h : j < m) (e : Endian) :
    start ≤ sourceIndex e start m j ∧ sourceIndex e start m j < start + m := by
  cases e <;> simp only [sourceIndex_le, sourceIndex_be] <;> omega

theorem byteAt_unpackBytes_source {xs : List Byte} (hx : xs.length ≤ 32) (e : Endian) (j : Nat) :
    byteAt (unpackBytes xs e) j = if j < xs.length then xs.getD (sourceIndex e 0 xs.length j) 0 else 0 := by
  rw [byteAt_unpackBytes xs e hx]
  cases e <;> simp

/-- Byte j of the pattern that n bytes spell, for the width codec and the composer alike (42_extended_composer.md
R101). -/
theorem byteAt_readImage {w : Width} {xs : List Byte} (hx : xs.length = w.bytes) (e : Endian) (j : Nat) :
    byteAt (readImage w xs e) j = if j < w.bytes then xs.getD (sourceIndex e 0 w.bytes j) 0 else 0 := by
  have h32 := w.bytes_le
  unfold readImage
  split
  · rw [byteAt_unpackBytes_source (by omega), hx]
  · rename_i hw
    have hn := Width.bytes_eq_limbs hw
    by_cases hj : j < w.bytes
    · rw [byteAt_joinLimbs _ (by omega), if_pos (by simpa using by omega), if_pos hj]
      have hlt : w.limbs - 1 - j / 8 < w.limbs := by omega
      have hys : ((xs.drop (slot (w.limbs - 1 - j / 8) w.limbs e)).take 8).length = 8 := by
        have := slot_add_le hlt e
        simp only [List.length_take, List.length_drop]
        omega
      simp only [List.length_map, List.length_range]
      rw [List.getD_eq_getElem _ _ (by simpa using hlt), List.getElem_map, List.getElem_range,
        byteAt_unpackLimb _ e (Nat.mod_lt _ (by decide)), byteAt_unpackBytes_source (by omega), hys,
        if_pos (Nat.mod_lt _ (by decide))]
      have hs := (sourceIndex_bounds (start := 0) (Nat.mod_lt j (show 0 < 8 by decide)) e).2
      have hget (q : Nat) (hq : q < 8) :
          ((xs.drop (slot (w.limbs - 1 - j / 8) w.limbs e)).take 8).getD q 0 =
            xs.getD (slot (w.limbs - 1 - j / 8) w.limbs e + q) 0 := by
        simp [List.getD_eq_getElem?_getD, hq]
      rw [hget _ (by omega)]
      congr 1
      cases e <;> simp only [slot, sourceIndex_le, sourceIndex_be] <;> omega
    · rw [if_neg hj]
      by_cases hj32 : j < 32
      · rw [byteAt_joinLimbs _ hj32, if_neg (by simpa using by omega)]
      · exact byteAt_of_ge _ (Nat.not_lt.mp hj32)

theorem Buffer.readBytes_getD (b : Buffer) (a : Nat) {n i : Nat} (hi : i < n) :
    (b.readBytes a n).getD i 0 = b.read (a + i) := by
  rw [List.getD_eq_getElem _ _ (by simpa using hi), Buffer.readBytes_getElem]

theorem zeros_getD (n i : Nat) : (zeros n).getD i 0 = 0 := by
  simp only [zeros, List.getD_eq_getElem?_getD, List.getElem?_replicate]
  split <;> rfl

/-- Byte j of what a DEC reads: a byte of the buffer in the byte order for the bytes that are there, 00 above them
(40_width_codec.md R69 cases 4 and 5; 41_length_reconciliation.md R91, R96). -/
theorem byteAt_decode (w : Width) (e : Endian) (b : Buffer) (off j : Nat) :
    byteAt (readImage w (decodeInput w e b off) e) j =
      if j < min w.bytes (b.len - off) then b.read (sourceIndex e off (min w.bytes (b.len - off)) j) else 0 := by
  rw [byteAt_readImage (decodeInput_length ..)]
  unfold decodeInput
  by_cases hfull : w.bytes ≤ b.len - off
  · rw [if_pos hfull, Nat.min_eq_left hfull]
    refine if_ctx_congr Iff.rfl (fun hj => ?_) fun _ => rfl
    rw [Buffer.readBytes_getD _ _ (by simpa using (sourceIndex_bounds (start := 0) hj e).2)]
    cases e <;> simp
  · rw [if_neg hfull, Nat.min_eq_right (by omega)]
    by_cases hj : j < b.len - off
    · rw [if_pos (by omega), if_pos hj]
      cases e with
      | le =>
        rw [reconcile_le, sourceIndex_le, List.getD_append _ _ _ _ (by simpa using hj),
          Buffer.readBytes_getD _ _ (by simpa using hj)]
        simp
      | be =>
        rw [reconcile_be (by simpa using by omega), sourceIndex_be, List.getD_append_right _ _ _ _ (by simp; omega),
          Buffer.readBytes_getD _ _ (by simp; omega)]
        simp only [zeros_length, Buffer.readBytes_length, sourceIndex_be]
        congr 1
        omega
    · rw [if_neg hj]
      split
      · cases e with
        | le =>
          rw [reconcile_le, sourceIndex_le, List.getD_append_right _ _ _ _ (by simpa using hj), zeros_getD]
        | be =>
          rw [reconcile_be (by simpa using by omega), sourceIndex_be, List.getD_append _ _ _ _ (by simp; omega),
            zeros_getD]
      · rfl

/-! ### A narrower DEC of a wide ENC -/

theorem byteAt_lowPart (n : Nat) (v : Value) (j : Nat) :
    byteAt (lowPart n v) j = if j < n then byteAt v j else 0 := by
  split
  · refine byteAt_congr fun i hi => ?_
    rw [lowPart, BitVec.getLsbD_ofNat, Nat.testBit_mod_two_pow, BitVec.testBit_toNat]
    by_cases h256 : 8 * j + i < 256
    · simp [h256, show 8 * j + i < 8 * n by omega]
    · simp [h256, BitVec.getLsbD_of_ge v _ (Nat.not_lt.mp h256)]
  · refine byteAt_eq_zero fun i hi => ?_
    simp [lowPart, BitVec.getLsbD_ofNat, Nat.testBit_mod_two_pow, show ¬ 8 * j + i < 8 * n by omega]

theorem byteAt_ushiftRight (v : Value) (d j : Nat) : byteAt (v >>> (8 * d)) j = byteAt v (d + j) :=
  byteAt_congr fun i hi => by rw [BitVec.getLsbD_ushiftRight, Nat.mul_add, Nat.add_assoc]

/-- The part of a wide value that a narrower read at its offset sees (20_memory.md R32). -/
def partSeen (e : Endian) (n₁ n₂ : Nat) (v : Value) : Value :=
  match e with
  | .le => lowPart n₂ v
  | .be => lowPart n₂ (v >>> (8 * (n₁ - n₂)))

theorem byteAt_partSeen (e : Endian) {n₁ n₂ j : Nat} (hj : j < n₂) (hn : n₂ ≤ n₁) (v : Value) :
    byteAt (partSeen e n₁ n₂ v) j = flatByte n₁ v e (sourceIndex e 0 n₂ j) := by
  cases e with
  | le => rw [partSeen, byteAt_lowPart, if_pos hj, sourceIndex_le, flatByte_le, Nat.zero_add]
  | be =>
    rw [partSeen, byteAt_lowPart, if_pos hj, byteAt_ushiftRight, sourceIndex_be, flatByte_be]
    congr 1
    omega

theorem byteAt_partSeen_of_ge (e : Endian) {n₁ n₂ j : Nat} (hj : n₂ ≤ j) (v : Value) :
    byteAt (partSeen e n₁ n₂ v) j = 0 := by
  cases e <;> rw [partSeen, byteAt_lowPart, if_neg (Nat.not_lt.mpr hj)]

/-- Decoding at the offset of a wider encode, in the same byte order. -/
theorem decode_encode_narrower {w₁ w₂ : Width} {b : Buffer} {off : Nat} (hlt : w₂.bytes < w₁.bytes)
    (hle : off + w₁.bytes ≤ b.len) (v : Value) (e : Endian) :
    readImage w₂ (decodeInput w₂ e (b.writePieces off (pieces w₁ v e)) off) e = partSeen e w₁.bytes w₂.bytes v := by
  refine value_eq_of_bytes fun j _ => ?_
  rw [byteAt_decode, Buffer.writePieces_len, Nat.min_eq_left (by omega)]
  by_cases hj : j < w₂.bytes
  · have hsrc := sourceIndex_bounds (start := off) hj e
    rw [if_pos hj, byteAt_partSeen e hj (Nat.le_of_lt hlt), Buffer.read_encode hle, if_pos ⟨hsrc.1, by omega⟩]
    congr 1
    cases e <;> simp
  · rw [if_neg hj, byteAt_partSeen_of_ge e (Nat.not_lt.mp hj)]

/-- Settles O47: byte by byte, the DEC reads the image the ENC wrote. -/
theorem narrowDecSeesAPartOfAWideEnc : Obligations.NarrowDecSeesAPartOfAWideEnc := by
  intro s r k b x y hr hk hb p hp q hq hlt hle
  obtain ⟨hn₁, hx⟩ := of_mem_encAll hp
  obtain ⟨hn₂, hy⟩ := of_mem_decAll hq
  rw [← hn₁] at hle
  refine ⟨_, exec_enc_writes (op_of_mem_encAll hp) hr hk hb hle, fun u r' hmem hr' hoff hk' hord => ?_⟩
  rw [orderUsed_eq_resolve, orderUsed_eq_resolve] at hord
  have hb' : u.mem[k]? =
      some (b.writePieces r.offset.toNat (pieces p.1.width r.value (s.resolve p.1.explicit))) := by
    rw [hmem]
    exact Memory.getElem?_set_of_some hb _
  rw [exec_dec_reads (op_of_mem_decAll hq) hr' hk' hb' (by rw [Buffer.writePieces_len, hoff]; omega), hx, hy, hord,
    hoff, decode_encode_narrower (by omega) hle, hn₁, hn₂, orderUsed_eq_resolve]
  cases s.resolve x <;> rfl

end Machine

end Sys2Proof
end

section
/-! PROOFS. Memory as bytes: the byte at an index of a caller buffer, and what draws, the landing of another agent's
access and a command make of it (20_memory.md R33, R34, R40; 60_exceptions.md R135; 93_implementation_defined.md I5). -/

namespace Sys2Proof.Machine

open Sys2Proof.Claims

/-! ### The bytes and the sizes of the caller buffers -/

/-- The byte at index j of caller buffer k, 00 where there is no such buffer. -/
def Memory.byte (m : Memory) (k j : Nat) : Byte :=
  ((m[k]?).map (fun b => b.read j)).getD 0

/-- BUF_LEN of caller buffer k, 0 where there is no such buffer. -/
def Memory.size (m : Memory) (k : Nat) : Nat :=
  ((m[k]?).map Buffer.len).getD 0

section
variable {m m' : Memory} {k : Nat} {b : Buffer}

theorem Memory.byte_eq (h : m[k]? = some b) (j : Nat) : m.byte k j = b.read j := by
  simp [Memory.byte, h]

theorem Memory.size_eq (h : m[k]? = some b) : m.size k = b.len := by
  simp [Memory.size, h]

theorem Memory.size_congr (h : m'.map Buffer.len = m.map Buffer.len) (k : Nat) : m'.size k = m.size k := by
  simp only [Memory.size, ← List.getElem?_map, h]

theorem Memory.length_congr (h : m'.map Buffer.len = m.map Buffer.len) : m'.length = m.length := by
  simpa using congrArg List.length h

theorem Memory.exists_of_lens (h : m'.map Buffer.len = m.map Buffer.len) (hb : m[k]? = some b) :
    ∃ b', m'[k]? = some b' ∧ b'.len = b.len := by
  have hk : (m'[k]?).map Buffer.len = some b.len := by
    rw [← List.getElem?_map, h, List.getElem?_map, hb]
    rfl
  simpa using hk

theorem Memory.len_eq {b' : Buffer} (h : m'.map Buffer.len = m.map Buffer.len) (hb : m[k]? = some b)
    (hb' : m'[k]? = some b') : b'.len = b.len := by
  rw [← Memory.size_eq hb, ← Memory.size_eq hb', Memory.size_congr h]

theorem Memory.byte_set (h : m[k]? = some b) (b' : Buffer) (k' j : Nat) :
    Memory.byte (m.set k b') k' j = if k' = k then b'.read j else m.byte k' j := by
  by_cases hk : k' = k
  · subst hk
    rw [if_pos rfl, Memory.byte_eq (Memory.getElem?_set_of_some h b')]
  · rw [if_neg hk, Memory.byte, Memory.byte, List.getElem?_set_ne (Ne.symm hk)]

/-- A memory that differs from another in one buffer alone. -/
theorem Memory.eq_set_of_beside (hlen : m'.length = m.length) (hb : m'[k]? = some b)
    (hne : ∀ k' ≠ k, m'[k']? = m[k']?) : m' = m.set k b := by
  refine List.ext_getElem? fun k' => ?_
  by_cases hk : k' = k
  · subst hk
    rw [hb, List.getElem?_set_self (hlen ▸ (List.getElem?_eq_some_iff.mp hb).1)]
  · rw [hne k' hk, List.getElem?_set_ne (Ne.symm hk)]

end

/-- A range has index j of caller buffer k. -/
def Span.covers (p : Span) (k j : Nat) : Prop :=
  k = p.buf ∧ p.start ≤ j ∧ j < p.start + p.len

/-- One of the ranges has index j of caller buffer k. -/
def covered (ps : List Span) (k j : Nat) : Prop :=
  ∃ p ∈ ps, p.covers k j

/-- A byte the spec calls a draw, with a number from n on (log entry 2). -/
def IsDraw (n : Nat) (x : Byte) : Prop :=
  ∃ d, n ≤ d ∧ x = Config.freeByte d

theorem IsDraw.mono {n n' : Nat} {x : Byte} (h : IsDraw n' x) (hn : n ≤ n') : IsDraw n x := by
  obtain ⟨d, hd, rfl⟩ := h
  exact ⟨d, hn.trans hd, rfl⟩

/-! ### Draws -/

theorem drawBytes_getD {n i : Nat} (hi : i < n) (d : Nat) : (drawBytes d n).getD i 0 = Config.freeByte (d + i) := by
  simp [drawBytes, hi]

theorem State.drawSpan_byte_covered {s : State} {p : Span} {k j : Nat} (h : p.covers k j) (hj : j < s.mem.size k) :
    IsDraw s.draws ((s.drawSpan p).mem.byte k j) := by
  obtain ⟨hk, hstart, hend⟩ := h
  cases hb : s.mem[k]? with
  | none => simp [Memory.size, hb] at hj
  | some b =>
    rw [Memory.size_eq hb] at hj
    refine ⟨s.draws + (j - p.start), Nat.le_add_right _ _, ?_⟩
    rw [Memory.byte, State.drawSpan_getElem?, hb]
    simp only [Option.map_some, Option.getD_some, if_pos hk]
    rw [Buffer.read_writeBytes, drawBytes_length, if_pos ⟨hstart, by omega, hj⟩, drawBytes_getD (by omega)]

theorem State.drawSpan_byte_beside {s : State} {p : Span} {k j : Nat} (h : ¬ p.covers k j) :
    (s.drawSpan p).mem.byte k j = s.mem.byte k j := by
  rw [Memory.byte, Memory.byte, State.drawSpan_getElem?]
  cases s.mem[k]? with
  | none => rfl
  | some b =>
    simp only [Option.map_some, Option.getD_some]
    split
    · rename_i hk
      rw [Buffer.read_writeBytes, drawBytes_length, if_neg fun hc => h ⟨hk, hc.1, by omega⟩]
    · rfl

theorem State.drawSpans_byte_beside {s : State} {ps : List Span} {k j : Nat} (h : ¬ covered ps k j) :
    (s.drawSpans ps).mem.byte k j = s.mem.byte k j := by
  induction ps generalizing s with
  | nil => rfl
  | cons p ps ih =>
    rw [State.drawSpans_cons, ih fun ⟨q, hq, hc⟩ => h ⟨q, List.mem_cons_of_mem p hq, hc⟩,
      State.drawSpan_byte_beside fun hc => h ⟨p, List.mem_cons_self .., hc⟩]

theorem State.drawSpans_byte_covered {s : State} {ps : List Span} {k j : Nat} (h : covered ps k j)
    (hj : j < s.mem.size k) : IsDraw s.draws ((s.drawSpans ps).mem.byte k j) := by
  induction ps generalizing s with
  | nil => exact absurd h (by simp [covered])
  | cons p ps ih =>
    rw [State.drawSpans_cons]
    by_cases hps : covered ps k j
    · have hsize : (s.drawSpan p).mem.size k = s.mem.size k := Memory.size_congr (State.drawSpan_lens s p) k
      exact (ih hps (hsize ▸ hj)).mono (State.drawSpan_draws_le s p)
    · rw [State.drawSpans_byte_beside hps]
      obtain ⟨q, hq, hc⟩ := h
      obtain rfl : q = p := (List.mem_cons.mp hq).resolve_right fun hq => hps ⟨q, hq, hc⟩
      exact State.drawSpan_byte_covered hc hj

/-- Drawing leaves a draw a draw, here or elsewhere. -/
theorem State.drawSpans_keeps_draw {s : State} {ps : List Span} {n k j : Nat} (h : IsDraw n (s.mem.byte k j))
    (hn : n ≤ s.draws) (hj : j < s.mem.size k) : IsDraw n ((s.drawSpans ps).mem.byte k j) := by
  by_cases hc : covered ps k j
  · exact (State.drawSpans_byte_covered hc hj).mono hn
  · rwa [State.drawSpans_byte_beside hc]

theorem State.drawSpans_getElem?_beside {s : State} {ps : List Span} {k : Nat} (h : ∀ p ∈ ps, p.buf ≠ k) :
    (s.drawSpans ps).mem[k]? = s.mem[k]? := by
  induction ps generalizing s with
  | nil => rfl
  | cons p ps ih =>
    obtain ⟨hp, hps⟩ := List.forall_mem_cons.mp h
    rw [State.drawSpans_cons, ih hps, State.drawSpan_getElem?]
    simp [Ne.symm hp]

/-! ### The access of another agent -/

theorem AgentAccess.exists_iff {a : AgentAccess} {m : Memory} :
    a.exists m = true ↔ ∃ b, m[a.span.buf]? = some b ∧ a.span.start + a.span.len ≤ b.len := by
  unfold AgentAccess.exists
  cases m[a.span.buf]? <;> simp

theorem AgentAccess.lt_size {a : AgentAccess} {m : Memory} {k j : Nat} (hex : a.exists m = true)
    (h : touches a k j) : j < m.size k := by
  obtain ⟨b, hb, hle⟩ := AgentAccess.exists_iff.mp hex
  obtain ⟨rfl, -, hlt⟩ := h
  rw [Memory.size_eq hb]
  omega

theorem writtenAt_of_not_isWrite {a : AgentAccess} (h : a.isWrite = false) (k j : Nat) : writtenAt a k j = none := by
  cases a with
  | reads k' i n => rfl
  | writes k' i xs => cases h

theorem writtenAt_of_not_touches {a : AgentAccess} {k j : Nat} (h : ¬ touches a k j) : writtenAt a k j = none := by
  cases a with
  | reads k' i n => rfl
  | writes k' i xs => exact if_neg h

/-- Until an access returns its bytes are not in the buffer; then they are, but for the contested ones. -/
theorem State.landAccess_writes {s : State} {e : InFlight} {k i : Nat} {xs : List Byte} {b : Buffer}
    (he : e.access = .writes k i xs) (hb : s.mem[k]? = some b) :
    s.landAccess e = (s.setBuffer k (b.writeBytes i xs)).drawSpans e.raced := by
  simp [State.landAccess, he, hb]

theorem State.landAccess_reads {s : State} {e : InFlight} (h : e.access.isWrite = false) : s.landAccess e = s := by
  cases he : e.access with
  | reads k i n => simp [State.landAccess, he]
  | writes k i xs =>
    rw [he] at h
    cases h

theorem State.landAccess_draws_le (s : State) (e : InFlight) : s.draws ≤ (s.landAccess e).draws := by
  unfold State.landAccess
  split
  · exact Nat.le_refl _
  · split
    · exact Nat.le_refl _
    · exact State.drawSpans_draws_le (s.setBuffer _ _) _

/-- A contested byte of a write is a draw when the write returns (20_memory.md R40). -/
theorem State.landAccess_byte_raced {s : State} {e : InFlight} {k j : Nat} (hex : e.access.exists s.mem = true)
    (hw : e.access.isWrite = true) (h : covered e.raced k j) (hj : j < s.mem.size k) :
    IsDraw s.draws ((s.landAccess e).mem.byte k j) := by
  cases he : e.access with
  | reads k' i n =>
    rw [he] at hw
    cases hw
  | writes k' i xs =>
    rw [he] at hex
    obtain ⟨b, hb, -⟩ := AgentAccess.exists_iff.mp hex
    have hlens := Memory.lens_set hb (Buffer.writeBytes_len b i xs)
    rw [State.landAccess_writes he hb]
    exact State.drawSpans_byte_covered (s := s.setBuffer k' (b.writeBytes i xs)) h (Memory.size_congr hlens k ▸ hj)

/-- Every other byte is the one the access writes, and unchanged where it writes none (20_memory.md R42). -/
theorem State.landAccess_byte_clear {s : State} {e : InFlight} {k j : Nat} (hex : e.access.exists s.mem = true)
    (h : e.access.isWrite = true → ¬ covered e.raced k j) :
    (s.landAccess e).mem.byte k j = (writtenAt e.access k j).getD (s.mem.byte k j) := by
  cases he : e.access with
  | reads k' i n =>
    rw [State.landAccess_reads (by rw [he]; rfl)]
    rfl
  | writes k' i xs =>
    rw [he] at hex h
    obtain ⟨b, hb, hle⟩ := AgentAccess.exists_iff.mp hex
    simp only [AgentAccess.span] at hb hle
    rw [State.landAccess_writes he hb, State.drawSpans_byte_beside (h rfl), State.setBuffer_mem, Memory.byte_set hb]
    by_cases ht : k = k' ∧ i ≤ j ∧ j < i + xs.length
    · obtain ⟨rfl, hge, hlt⟩ := ht
      have hlen : j < b.len := Nat.lt_of_lt_of_le hlt hle
      rw [if_pos rfl, Buffer.read_writeBytes, if_pos ⟨hge, hlt, hlen⟩, writtenAt, if_pos ⟨rfl, hge, hlt⟩]
      rfl
    · rw [writtenAt, if_neg ht]
      split
      · rename_i hk
        rw [Buffer.read_writeBytes, if_neg fun hc => ht ⟨hk, hc.1, hc.2.1⟩, hk, Memory.byte_eq hb]
        rfl
      · rfl

theorem State.landAccess_getElem?_beside {s : State} {e : InFlight} {k : Nat} (ha : e.access.span.buf ≠ k)
    (h : ∀ p ∈ e.raced, p.buf ≠ k) : (s.landAccess e).mem[k]? = s.mem[k]? := by
  cases he : e.access with
  | reads k' i n => rw [State.landAccess_reads (by rw [he]; rfl)]
  | writes k' i xs =>
    have hne : k' ≠ k := by simpa [he, AgentAccess.span] using ha
    cases hb : s.mem[k']? with
    | none => simp [State.landAccess, he, hb]
    | some b =>
      rw [State.landAccess_writes he hb, State.drawSpans_getElem?_beside h, State.setBuffer_mem,
        List.getElem?_set_ne hne]

/-! ### A command -/

theorem ownClaim_eq {m : Memory} {r : Request} {i : Instr} {k : Nat} {b : Buffer} (hd : decode r.cmd = .ok i)
    (hop : i.op = .enc ∨ i.op = .dec) (hk : r.buf = some k) (hb : m[k]? = some b) :
    ownClaim m r =
      some {
        span :=
          { buf := k, start := r.offset.toNat, len := min (r.offset.toNat + i.width.bytes) b.len - r.offset.toNat }
        writes := i.op == .enc } := by
  simp [ownClaim, hd, hop, Memory.caller_eq_some.mpr ⟨hk, hb⟩]

/-- A command claims something only if it is an ENC or DEC of a present buffer; then the part of its span that the
buffer has. -/
theorem ownClaim_inv {m : Memory} {r : Request} {p : Claim} (hp : ownClaim m r = some p) :
    ∃ i k b, decode r.cmd = .ok i ∧ (i.op = .enc ∨ i.op = .dec) ∧ r.buf = some k ∧ m[k]? = some b ∧
      p = {
        span :=
          { buf := k, start := r.offset.toNat, len := min (r.offset.toNat + i.width.bytes) b.len - r.offset.toNat }
        writes := i.op == .enc } := by
  obtain ⟨i, hd, hop, -⟩ := ownClaim_cases hp
  cases hc : m.caller r.buf with
  | none => simp [ownClaim, hd, hop, hc] at hp
  | some kb =>
    obtain ⟨hk, hb⟩ := Memory.caller_eq_some.mp hc
    exact ⟨i, kb.1, kb.2, hd, hop, hk, hb, Option.some.inj (hp.symm.trans (ownClaim_eq hd hop hk hb))⟩

/-- What a command claims depends on the lengths of the buffers alone. -/
theorem ownClaim_congr {m m' : Memory} (h : m'.map Buffer.len = m.map Buffer.len) (r : Request) :
    ownClaim m' r = ownClaim m r := by
  have hmono {m m' : Memory} (h : m'.map Buffer.len = m.map Buffer.len) {p : Claim} (hp : ownClaim m r = some p) :
      ownClaim m' r = some p := by
    obtain ⟨i, k, b, hd, hop, hk, hb, rfl⟩ := ownClaim_inv hp
    obtain ⟨b', hb', hlen⟩ := Memory.exists_of_lens h hb
    rw [ownClaim_eq hd hop hk hb', hlen]
  exact Option.ext fun p => ⟨hmono h.symm, hmono h⟩

/-- The byte an ENC leaves at index j of its span: that of its image, and a draw when the span does not end in the
buffer (60_exceptions.md R135). -/
def encByte (i : Instr) (s : State) (r : Request) (k j : Nat) : Byte :=
  if r.offset.toNat + i.width.bytes ≤ s.mem.size k then
    flatByte i.width.bytes r.value (s.resolve i.explicit) (j - r.offset.toNat)
  else Config.freeByte (s.draws + (j - r.offset.toNat))

/-- What an ENC of a present buffer does: its response, and every byte of its buffer (40_width_codec.md R67). -/
theorem exec_enc_cases {i : Instr} {s t : State} {r : Request} {k : Nat} {b : Buffer} (h : exec i s = .next t)
    (hop : i.op = .enc) (hr : s.request = some r) (hk : r.buf = some k) (hb : s.mem[k]? = some b) :
    t.response = some (if r.offset.toNat + i.width.bytes ≤ b.len then okAlone else errorAlone .outOfRange) ∧
      s.draws ≤ t.draws ∧
      ∃ b', t.mem = s.mem.set k b' ∧ b'.len = b.len ∧
        ∀ j, b'.read j =
          if r.offset.toNat ≤ j ∧ j < r.offset.toNat + i.width.bytes ∧ j < b.len then encByte i s r k j
          else b.read j := by
  by_cases hle : r.offset.toNat + i.width.bytes ≤ b.len
  · rw [exec_enc_writes hop hr hk hb hle] at h
    cases h
    refine ⟨by rw [if_pos hle]; rfl, Nat.le_refl _, _, rfl, Buffer.writePieces_len .., fun j => ?_⟩
    rw [Buffer.read_encode hle, encByte, Memory.size_eq hb, if_pos hle]
    exact if_congr ⟨fun hj => ⟨hj.1, hj.2, by omega⟩, fun hj => ⟨hj.1, hj.2.1⟩⟩ rfl rfl
  · rw [exec_eq, hop] at h
    have hout := encodeInPlace_outOfRange (x := i.explicit) hr (Memory.caller_eq_some.mpr ⟨hk, hb⟩)
      (Nat.not_le.mp hle)
    rw [State.raiseOutOfRange_eq hb] at hout
    cases hout.symm.trans h
    refine ⟨by rw [if_neg hle]; rfl, Nat.le_add_right _ _, _, rfl, Buffer.writePieces_len .., fun j => ?_⟩
    rw [Buffer.writePieces_cons, Buffer.writePieces_nil, Buffer.read_writeBytes, drawBytes_length, encByte,
      Memory.size_eq hb, if_neg hle]
    refine if_ctx_congr ⟨fun hj => ⟨hj.1, by omega, hj.2.2⟩, fun hj => ⟨hj.1, by omega, hj.2.2⟩⟩ (fun hj => ?_)
      fun _ => rfl
    exact drawBytes_getD (by omega) s.draws

/-- What running a command does to memory: nothing, or it is an ENC of a present buffer, which writes what it claims. -/
theorem runCommand_mem_cases {r : Request} {s t : State} (h : runCommand r s = .next t) :
    (t.mem = s.mem ∧ t.draws = s.draws ∧ ∀ p ∈ ownClaim s.mem r, p.writes = false) ∨
      ∃ i k b b', decode r.cmd = .ok i ∧ i.op = .enc ∧ r.buf = some k ∧ s.mem[k]? = some b ∧ s.draws ≤ t.draws ∧
        t.mem = s.mem.set k b' ∧ b'.len = b.len ∧
        ∀ j, b'.read j =
          if r.offset.toNat ≤ j ∧ j < r.offset.toNat + i.width.bytes ∧ j < b.len then encByte i s r k j
          else b.read j := by
  cases hd : decode r.cmd with
  | error e =>
    rw [runCommand_illegal hd] at h
    cases h
    exact .inl ⟨rfl, rfl, fun p hp => absurd hp (by simp [ownClaim, hd])⟩
  | ok i =>
    rw [runCommand_legal hd] at h
    by_cases hop : i.op = .enc
    · cases hc : s.mem.caller r.buf with
      | none =>
        rw [exec_absent (.inl hop) (State.latch_request s r) hc] at h
        cases h
        exact .inl ⟨rfl, rfl, fun p hp => absurd hp (by simp [ownClaim, hd, hop, hc])⟩
      | some kb =>
        obtain ⟨k, b⟩ := kb
        obtain ⟨hk, hb⟩ := Memory.caller_eq_some.mp hc
        obtain ⟨-, hdraws, b', hmem, hlen, hread⟩ := exec_enc_cases (s := s.latch r) h hop rfl hk hb
        exact .inr ⟨i, k, b, b', rfl, hop, hk, hb, hdraws, hmem, hlen, hread⟩
    · refine .inl ⟨exec_mem_of_not_enc (s := s.latch r) h hop, exec_draws_of_not_enc (s := s.latch r) h hop,
        fun p hp => ?_⟩
      obtain ⟨i', k, b, hd', -, -, -, rfl⟩ := ownClaim_inv hp
      obtain rfl : i = i' := Except.ok.inj (hd.symm.trans hd')
      simpa using hop

section
variable {r : Request} {s t : State} {k j : Nat}

theorem runCommand_lens (h : runCommand r s = .next t) : t.mem.map Buffer.len = s.mem.map Buffer.len := by
  obtain ⟨hm, -⟩ | ⟨i, k, b, b', -, -, -, hb, -, hm, hlen, -⟩ := runCommand_mem_cases h
  · rw [hm]
  · rw [hm, Memory.lens_set hb hlen]

theorem runCommand_draws_le (h : runCommand r s = .next t) : s.draws ≤ t.draws := by
  obtain ⟨-, hd, -⟩ | ⟨i, k, b, b', -, -, -, -, hd, -⟩ := runCommand_mem_cases h
  · exact hd.ge
  · exact hd

theorem runCommand_getElem?_beside (h : runCommand r s = .next t) (hk : r.buf ≠ some k) : t.mem[k]? = s.mem[k]? := by
  obtain ⟨hm, -⟩ | ⟨i, k', b, b', -, -, hk', -, -, hm, -⟩ := runCommand_mem_cases h
  · rw [hm]
  · rw [hm, List.getElem?_set_ne fun hkk => hk (hk'.trans (congrArg some hkk))]

/-- A byte the command does not claim to write is unchanged. -/
theorem runCommand_byte_beside (h : runCommand r s = .next t)
    (hc : ∀ p ∈ ownClaim s.mem r, p.writes = true → ¬ p.span.covers k j) : t.mem.byte k j = s.mem.byte k j := by
  obtain ⟨hm, -⟩ | ⟨i, k', b, b', hd, hop, hk', hb, -, hm, -, hread⟩ := runCommand_mem_cases h
  · rw [hm]
  · rw [hm, Memory.byte_set hb]
    split
    · rename_i hk
      have hbeside := hc _ (ownClaim_eq hd (.inl hop) hk' hb) (by simp [hop])
      rw [hread, if_neg fun hj => hbeside ⟨hk, hj.1, by dsimp only; omega⟩, hk, Memory.byte_eq hb]
    · rfl

/-- A byte the command claims to write is the byte of the ENC. -/
theorem runCommand_byte_claimed {i : Instr} {p : Claim} (h : runCommand r s = .next t) (hd : decode r.cmd = .ok i)
    (hp : p ∈ ownClaim s.mem r) (hw : p.writes = true) (hc : p.span.covers k j) :
    t.mem.byte k j = encByte i s r k j := by
  obtain ⟨-, -, hnone⟩ | ⟨i', k', b, b', hd', hop, hk', hb, -, hm, -, hread⟩ := runCommand_mem_cases h
  · exact absurd hw (by simp [hnone p hp])
  · obtain rfl : i = i' := Except.ok.inj (hd.symm.trans hd')
    obtain rfl := Option.some.inj ((ownClaim_eq hd (.inl hop) hk' hb).symm.trans hp)
    obtain ⟨rfl, hstart, hend⟩ := hc
    dsimp only at hstart hend
    rw [hm, Memory.byte_set hb, if_pos rfl, hread, if_pos ⟨hstart, by omega⟩]

end

/-- A command with a latched request always answers (70_reset_and_hazards.md R159). -/
theorem exec_answers {i : Instr} {s : State} {r : Request} (hr : s.request = some r) : ∃ t, exec i s = .next t := by
  rw [exec_eq]
  cases i.op with
  | enc =>
    simp only [encodeInPlace, State.withRequest, hr]
    split
    · exact ⟨_, rfl⟩
    · split <;> exact ⟨_, rfl⟩
  | enca => exact ⟨_, encodeFresh_answers hr⟩
  | dec =>
    simp only [decodeBuffer, State.withRequest, hr]
    split
    · exact ⟨_, rfl⟩
    · split
      · exact ⟨_, rfl⟩
      · split <;> exact ⟨_, rfl⟩
  | expt => exact ⟨_, exportTrimmed_answers hr⟩
  | qend => exact ⟨_, rfl⟩

theorem runCommand_next (r : Request) (s : State) : ∃ t, runCommand r s = .next t := by
  cases hd : decode r.cmd with
  | error e => exact ⟨_, runCommand_illegal hd s⟩
  | ok i =>
    rw [runCommand_legal hd]
    exact exec_answers (State.latch_request s r)

/-! ### What the response of a command depends on -/

/-- Two memories with buffers of the same lengths name a buffer of the same length by an operand. -/
theorem Memory.caller_of_lens {m m' : Memory} (h : m'.map Buffer.len = m.map Buffer.len) {buf : Option Nat} {k : Nat}
    {b : Buffer} (hc : m.caller buf = some (k, b)) : ∃ b', m'.caller buf = some (k, b') ∧ b'.len = b.len := by
  obtain ⟨hk, hb⟩ := Memory.caller_eq_some.mp hc
  obtain ⟨b', hb', hlen⟩ := Memory.exists_of_lens h hb
  exact ⟨b', Memory.caller_eq_some.mpr ⟨hk, hb'⟩, hlen⟩

theorem Memory.caller_none_of_lens {m m' : Memory} (h : m'.map Buffer.len = m.map Buffer.len) {buf : Option Nat}
    (hc : m.caller buf = none) : m'.caller buf = none := by
  cases hc' : m'.caller buf with
  | none => rfl
  | some kb =>
    obtain ⟨b, hb, -⟩ := Memory.caller_of_lens h.symm hc'
    rw [hb] at hc
    cases hc

/-- Two states with the request `r` latched that agree on DEFAULT_LE, on the lengths of the buffers and on the bytes
that the command claims: all its response depends on. -/
structure SameInput (s₁ s₂ : State) (r : Request) : Prop where
  default : s₁.defaultLE = s₂.defaultLE
  lens    : s₁.mem.map Buffer.len = s₂.mem.map Buffer.len
  bytes   : ∀ p ∈ ownClaim s₂.mem r, ∀ k j, p.span.covers k j → s₁.mem.byte k j = s₂.mem.byte k j

section
variable {s₁ s₂ t₁ t₂ : State} {r : Request} {i : Instr}

/-- A DEC reads only bytes it claims. -/
theorem SameInput.readImage_eq (hs : SameInput s₁ s₂ r) (hd : decode r.cmd = .ok i) (hop : i.op = .dec) {k : Nat}
    {b₁ b₂ : Buffer} (hk : r.buf = some k) (hb₁ : s₁.mem[k]? = some b₁) (hb₂ : s₂.mem[k]? = some b₂)
    (hlen : b₁.len = b₂.len) (e : Endian) :
    readImage i.width (decodeInput i.width e b₁ r.offset.toNat) e =
      readImage i.width (decodeInput i.width e b₂ r.offset.toNat) e := by
  refine value_eq_of_bytes fun j _ => ?_
  rw [byteAt_decode, byteAt_decode, hlen]
  refine if_ctx_congr Iff.rfl (fun hj => ?_) fun _ => rfl
  obtain ⟨hge, hlt⟩ := sourceIndex_bounds (start := r.offset.toNat) hj e
  have hbytes := hs.bytes _ (ownClaim_eq hd (.inr hop) hk hb₂) k _ ⟨rfl, hge, by dsimp only; omega⟩
  rwa [Memory.byte_eq hb₁, Memory.byte_eq hb₂] at hbytes

section
variable (hs : SameInput s₁ s₂ r) (hr₁ : s₁.request = some r) (hr₂ : s₂.request = some r)
  (h₁ : exec i s₁ = .next t₁) (h₂ : exec i s₂ = .next t₂)
include hs hr₁ hr₂ h₁ h₂

theorem exec_enc_sameResponse (hop : i.op = .enc) : t₁.response = t₂.response := by
  cases hc : s₁.mem.caller r.buf with
  | none =>
    rw [exec_absent (.inl hop) hr₁ hc] at h₁
    rw [exec_absent (.inl hop) hr₂ (Memory.caller_none_of_lens hs.lens.symm hc)] at h₂
    cases h₁
    cases h₂
    rfl
  | some kb =>
    obtain ⟨b₂, hc₂, hlen⟩ := Memory.caller_of_lens hs.lens.symm hc
    obtain ⟨hk, hb₁⟩ := Memory.caller_eq_some.mp hc
    obtain ⟨-, hb₂⟩ := Memory.caller_eq_some.mp hc₂
    rw [(exec_enc_cases h₁ hop hr₁ hk hb₁).1, (exec_enc_cases h₂ hop hr₂ hk hb₂).1, hlen]

theorem exec_dec_sameResponse (hd : decode r.cmd = .ok i) (hop : i.op = .dec) : t₁.response = t₂.response := by
  rw [exec_eq, hop] at h₁ h₂
  obtain ⟨r', hr', hcases⟩ := decodeBuffer_cases h₁
  obtain rfl : r = r' := Option.some.inj (hr₁.symm.trans hr')
  rcases hcases with ⟨hc, rfl⟩ | ⟨k, b, hc, hcases⟩
  · rw [decodeBuffer_absent hr₂ (Memory.caller_none_of_lens hs.lens.symm hc)] at h₂
    cases h₂
    rfl
  · obtain ⟨b₂, hc₂, hlen⟩ := Memory.caller_of_lens hs.lens.symm hc
    obtain ⟨hk, hb₁⟩ := Memory.caller_eq_some.mp hc
    obtain ⟨-, hb₂⟩ := Memory.caller_eq_some.mp hc₂
    rw [← hlen] at hcases
    rcases hcases with ⟨h0, rfl⟩ | ⟨h0, hle, rfl⟩ | ⟨hlt, rfl⟩
    · rw [decodeBuffer_empty hr₂ hc₂ h0] at h₂
      cases h₂
      rfl
    · rw [decodeBuffer_pastEnd hr₂ hc₂ h0 hle] at h₂
      cases h₂
      rfl
    · rw [decodeBuffer_reads hr₂ hc₂ hlt] at h₂
      cases h₂
      simp only [State.respond_response, resolve_congr hs.default, hs.readImage_eq hd hop hk hb₁ hb₂ hlen.symm]

theorem exec_sameResponse (hd : decode r.cmd = .ok i) : t₁.response = t₂.response := by
  cases hop : i.op with
  | enc => exact exec_enc_sameResponse hs hr₁ hr₂ h₁ h₂ hop
  | dec => exact exec_dec_sameResponse hs hr₁ hr₂ h₁ h₂ hd hop
  | enca =>
    rw [exec_eq, hop, encodeFresh_answers hr₁] at h₁
    rw [exec_eq, hop, encodeFresh_answers hr₂] at h₂
    cases h₁
    cases h₂
    simp only [State.respond_response, resolve_congr hs.default]
  | expt =>
    rw [exec_eq, hop, exportTrimmed_answers hr₁] at h₁
    rw [exec_eq, hop, exportTrimmed_answers hr₂] at h₂
    cases h₁
    cases h₂
    simp only [State.respond_response, resolve_congr hs.default]
  | qend =>
    rw [exec_eq, hop, queryDefault] at h₁ h₂
    cases h₁
    cases h₂
    simp only [State.respond_response, hs.default]

end

/-- The response of a command depends on DEFAULT_LE, the lengths of the buffers and the bytes it claims alone. -/
theorem runCommand_sameResponse (hs : SameInput s₁ s₂ r) (h₁ : runCommand r s₁ = .next t₁)
    (h₂ : runCommand r s₂ = .next t₂) : t₁.response = t₂.response := by
  cases hd : decode r.cmd with
  | error e =>
    rw [runCommand_illegal hd] at h₁ h₂
    cases h₁
    cases h₂
    rfl
  | ok i =>
    rw [runCommand_legal hd] at h₁ h₂
    exact exec_sameResponse (s₁ := s₁.latch r) (s₂ := s₂.latch r) ⟨hs.default, hs.lens, hs.bytes⟩
      (State.latch_request s₁ r) (State.latch_request s₂ r) h₁ h₂ hd

end

end Sys2Proof.Machine
end

section
/-! PROOFS. One access of another agent beside one command: what is contested, and what each of the four ways to overlap
in time comes to (20_memory.md R40, R42). -/

namespace Sys2Proof.Machine

open Sys2Proof.Claims

/-- What a command claims, as a list of none or one. -/
abbrev State.claims (s : State) (r : Request) : List Claim :=
  (ownClaim s.mem r).toList

/-! ### States with the same buffers -/

/-- Two states with the same caller buffers and the same draw counter: all that draws and accesses read. -/
structure SameStore (s t : State) : Prop where
  mem   : s.mem = t.mem
  draws : s.draws = t.draws

theorem SameStore.trans {s t u : State} (h : SameStore s t) (h' : SameStore t u) : SameStore s u :=
  ⟨h.mem.trans h'.mem, h.draws.trans h'.draws⟩

theorem SameStore.drawSpan {s t : State} (h : SameStore s t) (p : Span) : SameStore (s.drawSpan p) (t.drawSpan p) := by
  unfold State.drawSpan
  rw [h.mem, h.draws]
  split
  · exact h
  · exact ⟨rfl, rfl⟩

theorem SameStore.drawSpans {s t : State} (h : SameStore s t) (ps : List Span) :
    SameStore (s.drawSpans ps) (t.drawSpans ps) := by
  induction ps generalizing s t with
  | nil => exact h
  | cons p ps ih => exact ih (h.drawSpan p)

theorem SameStore.landAccess {s t : State} (h : SameStore s t) (e : InFlight) :
    SameStore (s.landAccess e) (t.landAccess e) := by
  unfold State.landAccess
  rw [h.mem]
  split
  · exact h
  · split
    · exact h
    · exact SameStore.drawSpans (by exact ⟨congrArg (List.set · _ _) h.mem, h.draws⟩) e.raced

theorem SameStore.dropOldestOf {s t : State} (h : SameStore s t) (n : Nat) : SameStore (s.dropOldestOf n) t :=
  ⟨h.mem, h.draws⟩

theorem sameStore_beginAccess (s : State) (own : List Claim) (n : Nat) (a : AgentAccess) :
    SameStore (s.beginAccess own n a) s :=
  ⟨rfl, rfl⟩

theorem sameStore_pending (s : State) (q : List HostInput) : SameStore { s with pending := q } s :=
  ⟨rfl, rfl⟩

/-! ### An access begins and ends -/

/-- The end of an access: it returns, or a reset cuts it off (70_reset_and_hazards.md R152). -/
def endEvent (cut : Bool) (n : Nat) : AgentEvent :=
  if cut then .isCut n else .returns n

/-- What the end of an access makes of memory. -/
def State.endAccess (s : State) (cut : Bool) (e : InFlight) : State :=
  if cut then s.drawSpan e.access.span else s.landAccess e

theorem SameStore.endAccess {s t : State} (h : SameStore s t) (cut : Bool) (e : InFlight) :
    SameStore (s.endAccess cut e) (t.endAccess cut e) := by
  cases cut with
  | true => exact h.drawSpan e.access.span
  | false => exact h.landAccess e

section
variable (s : State) (cut : Bool) (e : InFlight)

@[simp] theorem State.endAccess_false : s.endAccess false e = s.landAccess e := rfl

@[simp] theorem State.endAccess_true : s.endAccess true e = s.drawSpan e.access.span := rfl

@[simp] theorem State.endAccess_lens : (s.endAccess cut e).mem.map Buffer.len = s.mem.map Buffer.len := by
  cases cut <;> simp

theorem State.endAccess_draws_le : s.draws ≤ (s.endAccess cut e).draws := by
  cases cut with
  | true => exact State.drawSpan_draws_le s _
  | false => exact State.landAccess_draws_le s e

@[simp] theorem State.endAccess_phase : (s.endAccess cut e).phase = s.phase := by cases cut <;> simp

@[simp] theorem State.endAccess_defaultLE : (s.endAccess cut e).defaultLE = s.defaultLE := by cases cut <;> simp

@[simp] theorem State.endAccess_seq : (s.endAccess cut e).seq = s.seq := by cases cut <;> simp

@[simp] theorem State.endAccess_request : (s.endAccess cut e).request = s.request := by cases cut <;> simp

@[simp] theorem State.endAccess_response : (s.endAccess cut e).response = s.response := by cases cut <;> simp

@[simp] theorem State.endAccess_pending : (s.endAccess cut e).pending = s.pending := by cases cut <;> simp

@[simp] theorem State.endAccess_inFlight : (s.endAccess cut e).inFlight = s.inFlight := by cases cut <;> simp

end

theorem agentEvent_begins {own : List Claim} {n : Nat} {a : AgentAccess} {s : State} (hex : a.exists s.mem = true) :
    agentEvent own (.begins n a) s = .next (s.beginAccess own n a) :=
  if_pos hex

theorem agentEvent_ends {own : List Claim} {n : Nat} {s : State} {e : InFlight} (he : s.oldestOf n = some e)
    (cut : Bool) : agentEvent own (endEvent cut n) s = .next ((s.endAccess cut e).dropOldestOf n) := by
  cases cut <;> simp [agentEvent, endEvent, he]

/-- The bytes that claims share with an access, one of the two writing: what a race contests (20_memory.md R40). -/
def Races (own : List Claim) (a : AgentAccess) (k j : Nat) : Prop :=
  ∃ p ∈ own, p.span.covers k j ∧ touches a k j ∧ (p.writes = true ∨ a.isWrite = true)

/-- One of these claims has index j of caller buffer k. -/
def Claimed (own : List Claim) (k j : Nat) : Prop :=
  ∃ p ∈ own, p.span.covers k j

theorem Races.claimed {own : List Claim} {a : AgentAccess} {k j : Nat} (h : Races own a k j) : Claimed own k j := by
  obtain ⟨p, hp, hc, -⟩ := h
  exact ⟨p, hp, hc⟩

theorem Races.touches {own : List Claim} {a : AgentAccess} {k j : Nat} (h : Races own a k j) : touches a k j := by
  obtain ⟨p, -, -, ht, -⟩ := h
  exact ht

/-- The ranges that a command with these claims contests with an access. -/
def racedOf (own : List Claim) (a : AgentAccess) : List Span :=
  own.flatMap (fun p => p.contested a.claim)

/-- The access in flight of an agent, after these claims have overlapped it. -/
def entryOf (own : List Claim) (n : Nat) (a : AgentAccess) : InFlight :=
  { agent := n, access := a, raced := own.flatMap a.claim.contested }

@[simp] theorem entryOf_access (own : List Claim) (n : Nat) (a : AgentAccess) : (entryOf own n a).access = a := rfl

@[simp] theorem entryOf_agent (own : List Claim) (n : Nat) (a : AgentAccess) : (entryOf own n a).agent = n := rfl

theorem covered_overlap (p q : Span) (k j : Nat) :
    covered (p.overlap q).toList k j ↔ p.covers k j ∧ q.covers k j := by
  unfold Span.overlap
  simp only [covered, Span.covers]
  split
  · simp only [Option.toList_some, List.mem_singleton, exists_eq_left]
    omega
  · simp only [Option.toList_none, List.not_mem_nil, false_and, exists_false, false_iff]
    omega

/-- The contested range of two accesses is what both touch, if one of them writes (20_memory.md R40). -/
theorem covered_contested (p q : Claim) (k j : Nat) :
    covered (p.contested q) k j ↔ p.span.covers k j ∧ q.span.covers k j ∧ (p.writes = true ∨ q.writes = true) := by
  unfold Claim.contested
  split
  · rename_i hw
    rw [covered_overlap]
    exact ⟨fun ⟨hp, hq⟩ => ⟨hp, hq, by simpa using hw⟩, fun ⟨hp, hq, _⟩ => ⟨hp, hq⟩⟩
  · rename_i hw
    simp only [covered, List.not_mem_nil, false_and, exists_false, false_iff]
    exact fun ⟨_, _, h⟩ => hw (by simpa using h)

theorem covered_flatMap {α : Type} (xs : List α) (f : α → List Span) (k j : Nat) :
    covered (xs.flatMap f) k j ↔ ∃ x ∈ xs, covered (f x) k j := by
  simp only [covered, List.mem_flatMap]
  exact ⟨fun ⟨p, ⟨x, hx, hp⟩, hc⟩ => ⟨x, hx, p, hp, hc⟩, fun ⟨x, hx, p, hp, hc⟩ => ⟨p, ⟨x, hx, hp⟩, hc⟩⟩

theorem covered_racedOf (own : List Claim) (a : AgentAccess) (k j : Nat) :
    covered (racedOf own a) k j ↔ Races own a k j := by
  simp only [racedOf, covered_flatMap, covered_contested]
  rfl

theorem covered_entryOf (own : List Claim) (n : Nat) (a : AgentAccess) (k j : Nat) :
    covered (entryOf own n a).raced k j ↔ Races own a k j := by
  simp only [entryOf, covered_flatMap, covered_contested]
  exact exists_congr fun p => and_congr_right fun _ =>
    ⟨fun ⟨ha, hp, hw⟩ => ⟨hp, ha, hw.symm⟩, fun ⟨hp, ha, hw⟩ => ⟨ha, hp, hw.symm⟩⟩

/-! ### The bytes an access leaves when it returns -/

section
variable {s : State} {own : List Claim} {n k j : Nat} {a : AgentAccess} (hex : a.exists s.mem = true)
include hex

theorem landAccess_byte_of_not_races (h : ¬ Races own a k j) :
    (s.landAccess (entryOf own n a)).mem.byte k j = (writtenAt a k j).getD (s.mem.byte k j) :=
  State.landAccess_byte_clear (e := entryOf own n a) hex fun _ => (covered_entryOf own n a k j).not.mpr h

theorem landAccess_byte_unwritten (h : ¬ Races own a k j) (hw : writtenAt a k j = none) :
    (s.landAccess (entryOf own n a)).mem.byte k j = s.mem.byte k j := by
  rw [landAccess_byte_of_not_races hex h, hw]
  rfl

/-- A write makes its contested bytes draws; a read leaves draws alone. -/
theorem landAccess_byte_of_races {d : Nat} (h : Races own a k j) (hd : d ≤ s.draws)
    (hdraw : a.isWrite = false → IsDraw d (s.mem.byte k j)) :
    IsDraw d ((s.landAccess (entryOf own n a)).mem.byte k j) := by
  cases hw : a.isWrite with
  | true =>
    exact (State.landAccess_byte_raced (e := entryOf own n a) hex hw ((covered_entryOf own n a k j).mpr h)
      (AgentAccess.lt_size hex h.touches)).mono hd
  | false =>
    rw [State.landAccess_reads (e := entryOf own n a) hw]
    exact hdraw hw

end

/-! ### The four ways to overlap a command -/

/-- The ways of `overlaps` and of `overlapsAndIsCut`, for either end of the access. -/
def overlapWays (r : Request) (n : Nat) (a : AgentAccess) (e : AgentEvent) : List (List HostInput) :=
  [[.command r [.begins n a, e]],
    [.agent (.begins n a), .command r [e]],
    [.command r [.begins n a], .agent e],
    [.agent (.begins n a), .command r [], .agent e]]

theorem overlaps_eq (r : Request) (n : Nat) (a : AgentAccess) :
    overlaps r n a = overlapWays r n a (endEvent false n) := rfl

theorem overlapsAndIsCut_eq (r : Request) (n : Nat) (a : AgentAccess) :
    overlapsAndIsCut r n a = overlapWays r n a (endEvent true n) := rfl

/-- A command and one access of agent `n` overlap, and lead from state `s` to state `t`: the command of request `r` runs
from a state `x` to a state `v`, and the access ends before it or after it. Either way the contested bytes are drawn
before and after the command (log entry 10). -/
structure Overlapped (r : Request) (cut : Bool) (n : Nat) (a : AgentAccess) (s x v t : State) : Prop where
  run      : runCommand r x = .next v
  default  : x.defaultLE = s.defaultLE
  seq      : t.seq = s.seq + 1
  response : t.response = v.response
  inFlight : t.inFlight = []
  order    :
    SameStore x ((s.endAccess cut (entryOf (s.claims r) n a)).drawSpans (racedOf (s.claims r) a)) ∧
        SameStore t (v.drawSpans (racedOf (s.claims r) a)) ∨
      SameStore x (s.drawSpans (racedOf (s.claims r) a)) ∧
        SameStore t ((v.drawSpans (racedOf (s.claims r) a)).endAccess cut (entryOf (s.claims r) n a))

section
variable {s : State} {r : Request} {n : Nat} {a : AgentAccess} (hnone : s.inFlight = [])
include hnone

theorem meet_of_noneInFlight (ps : List Claim) : s.meet ps = s := by
  unfold State.meet
  rw [hnone, List.map_nil, ← hnone]

theorem races_of_noneInFlight (p : Claim) : s.races p = [] := by
  rw [State.races, hnone, List.flatMap_nil]

/-- Beginning an access when none is in flight. -/
theorem beginAccess_of_noneInFlight (own : List Claim) :
    s.beginAccess own n a = { s with inFlight := [entryOf own n a] } := by
  rw [State.beginAccess, meet_of_noneInFlight hnone, races_of_noneInFlight hnone, hnone, List.append_nil]
  rfl

theorem oldestOf_beginAccess (own : List Claim) : (s.beginAccess own n a).oldestOf n = some (entryOf own n a) := by
  simp [beginAccess_of_noneInFlight hnone, State.oldestOf]

/-- The claims of a command that has begun meanwhile are contested as if the access had begun during it. -/
theorem meet_beginAccess (own : List Claim) : (s.beginAccess [] n a).meet own = s.beginAccess own n a := by
  rw [beginAccess_of_noneInFlight hnone, beginAccess_of_noneInFlight hnone]
  rfl

/-- For the command, an access that is in flight when it begins is one that begins at its start (20_memory.md R40). -/
theorem serveCommand_beginAccess (hex : a.exists s.mem = true) (during : List AgentEvent) :
    serveCommand r during (s.beginAccess [] n a) = serveCommand r (.begins n a :: during) s := by
  have hraces (own : List Claim) :
      (s.beginAccess [] n a).commandRaces own during = s.commandRaces own (.begins n a :: during) := by
    refine List.flatMap_congr fun p _ => ?_
    rw [races_of_noneInFlight hnone, beginAccess_of_noneInFlight hnone]
    simp [State.races, begunIn]
  unfold serveCommand whileInProgress
  simp only [State.beginAccess_mem, hraces, meet_beginAccess hnone, meet_of_noneInFlight hnone, agentEvents,
    agentEvent_begins hex, andThen_next]

theorem commandRaces_begins (own : List Claim) (e : List AgentEvent) (he : begunIn e = []) :
    s.commandRaces own (.begins n a :: e) = racedOf own a := by
  refine List.flatMap_congr fun p _ => ?_
  have hbegun : begunIn (.begins n a :: e) = [a] := congrArg (a :: ·) he
  rw [races_of_noneInFlight hnone, hbegun]
  simp

/-- The access begins and ends during the command. -/
theorem overlapped_during (cut : Bool) (hex : a.exists s.mem = true) :
    ∃ x v t, serveCommand r [.begins n a, endEvent cut n] s = .next t ∧ t.pending = s.pending ∧
      Overlapped r cut n a s x v t := by
  have hbegun : begunIn [endEvent cut n] = [] := by cases cut <;> rfl
  obtain ⟨v, hv⟩ := runCommand_next r
    ((((s.beginAccess (s.claims r) n a).endAccess cut
      (entryOf (s.claims r) n a)).dropOldestOf n).drawSpans (racedOf (s.claims r) a))
  obtain ⟨hpend, hflight, hseq, -⟩ := runCommand_keeps hv
  refine ⟨_, v, v.drawSpans (racedOf (s.claims r) a), ?_, by simpa using hpend,
    hv, by simp, by simpa using hseq, by simp, ?_, .inl ⟨?_, ⟨rfl, rfl⟩⟩⟩
  · unfold serveCommand whileInProgress
    simp only [commandRaces_begins hnone _ _ hbegun, meet_of_noneInFlight hnone, agentEvents, agentEvent_begins hex,
      andThen_next, agentEvent_ends (oldestOf_beginAccess hnone _), hv]
  · rw [State.drawSpans_inFlight, hflight, State.drawSpans_inFlight, State.dropOldestOf_inFlight,
      State.endAccess_inFlight, beginAccess_of_noneInFlight hnone]
    simp
  · exact (((sameStore_beginAccess ..).endAccess cut _).dropOldestOf n).drawSpans _

/-- The access begins during the command and ends after it. -/
theorem overlapped_after (cut : Bool) (hex : a.exists s.mem = true) (rest : List HostInput) :
    ∃ x v u t, serveCommand r [.begins n a] s = .next u ∧ u.phase = s.phase ∧ u.pending = s.pending ∧
      agentEvent [] (endEvent cut n) { u with pending := rest } = .next t ∧ t.pending = rest ∧
      Overlapped r cut n a s x v t := by
  obtain ⟨v, hv⟩ := runCommand_next r
    ((s.beginAccess (s.claims r) n a).drawSpans (racedOf (s.claims r) a))
  obtain ⟨hpend, hflight, hseq, -⟩ := runCommand_keeps hv
  obtain ⟨hphase, -⟩ := runCommand_answers hv
  rw [State.drawSpans_inFlight, beginAccess_of_noneInFlight hnone] at hflight
  have hold : State.oldestOf { v.drawSpans (racedOf (s.claims r) a) with pending := rest } n =
      some (entryOf (s.claims r) n a) := by
    simp [State.oldestOf, hflight]
  refine ⟨_, v, v.drawSpans (racedOf (s.claims r) a), _, ?_, by simpa using hphase,
    by simpa using hpend, agentEvent_ends hold cut, by simp,
    hv, by simp, by simpa using hseq, by simp, by simp [hflight], .inr ⟨?_, ?_⟩⟩
  · unfold serveCommand whileInProgress
    simp only [commandRaces_begins hnone _ _ (show begunIn [] = [] from rfl), meet_of_noneInFlight hnone, agentEvents,
      agentEvent_begins hex, andThen_next, hv]
  · exact (sameStore_beginAccess ..).drawSpans _
  · exact ((sameStore_pending ..).endAccess cut _).dropOldestOf n

end

/-- The pending inputs play no part. -/
theorem Overlapped.of_pending {r : Request} {cut : Bool} {n : Nat} {a : AgentAccess} {s x v t : State}
    {q : List HostInput} (h : Overlapped r cut n a { s with pending := q } x v t) : Overlapped r cut n a s x v t :=
  ⟨h.run, h.default, h.seq, h.response, h.inFlight, h.order.imp
    (fun ⟨hx, ht⟩ => ⟨hx.trans (((sameStore_pending s q).endAccess cut _).drawSpans _), ht⟩)
    fun ⟨hx, ht⟩ => ⟨hx.trans ((sameStore_pending s q).drawSpans _), ht⟩⟩

theorem steps_cons {s t : State} {n : Nat} (h : step s = .next t) : steps (n + 1) s = steps n t := by
  simp [steps, h]

/-- A step on a pending event of another agent. -/
theorem step_agent {s : State} {e : AgentEvent} {rest : List HostInput} (hrun : s.phase = .running)
    (hpend : s.pending = .agent e :: rest) : step s = agentEvent [] e { s with pending := rest } :=
  step_serves hrun hpend

theorem step_begins {s : State} {n : Nat} {a : AgentAccess} {rest : List HostInput} (hrun : s.phase = .running)
    (hex : a.exists s.mem = true) (hpend : s.pending = .agent (.begins n a) :: rest) :
    step s = .next (State.beginAccess { s with pending := rest } [] n a) :=
  (step_agent hrun hpend).trans (agentEvent_begins hex)

theorem step_command {s : State} {r : Request} {during : List AgentEvent} {rest : List HostInput}
    (hrun : s.phase = .running) (hpend : s.pending = .command r during :: rest) :
    step s = serveCommand r during { s with pending := rest } :=
  step_serves hrun hpend

/-- An access begins and then a command is served: as if the access had begun at the start of the command. -/
theorem steps_begins_command {s t : State} {r : Request} {n : Nat} {a : AgentAccess} {during : List AgentEvent}
    {rest : List HostInput} (hrun : s.phase = .running) (hnone : s.inFlight = []) (hex : a.exists s.mem = true)
    (hpend : s.pending = .agent (.begins n a) :: .command r during :: rest)
    (ht : serveCommand r (.begins n a :: during) { s with pending := rest } = .next t) (m : Nat) :
    steps (m + 2) s = steps m t := by
  have hcommand : step (State.beginAccess { s with pending := .command r during :: rest } [] n a) = .next t :=
    (step_command (s := State.beginAccess { s with pending := .command r during :: rest } [] n a) hrun rfl).trans
      ((serveCommand_beginAccess (s := { s with pending := rest }) hnone hex _).trans ht)
  exact (steps_cons (step_begins hrun hex hpend)).trans (steps_cons hcommand)

/-- Whichever of the four ways the inputs take, command and access overlap. -/
theorem overlapped_of_mem {s : State} {r : Request} {n : Nat} {a : AgentAccess} {cut : Bool}
    {p rest : List HostInput} (hrun : s.phase = .running) (hnone : s.inFlight = []) (hex : a.exists s.mem = true)
    (hp : p ∈ overlapWays r n a (endEvent cut n)) (hpend : s.pending = p ++ rest) :
    ∃ x v t, steps p.length s = .next t ∧ t.pending = rest ∧
      Overlapped r cut n a s x v t := by
  simp only [overlapWays, List.mem_cons, List.not_mem_nil, or_false] at hp
  rcases hp with rfl | rfl | rfl | rfl
  · obtain ⟨x, v, t, ht, hrest, hov⟩ :=
      overlapped_during (r := r) (n := n) (s := { s with pending := rest }) hnone cut hex
    exact ⟨x, v, t, steps_cons ((step_command hrun hpend).trans ht), hrest, hov.of_pending⟩
  · obtain ⟨x, v, t, ht, hrest, hov⟩ :=
      overlapped_during (r := r) (n := n) (s := { s with pending := rest }) hnone cut hex
    exact ⟨x, v, t, steps_begins_command hrun hnone hex hpend ht 0, hrest, hov.of_pending⟩
  · obtain ⟨x, v, u, t, hu, hphase, hpend', ht, hrest, hov⟩ :=
      overlapped_after (r := r) (n := n) (s := { s with pending := .agent (endEvent cut n) :: rest }) hnone cut hex rest
    refine ⟨x, v, t, ?_, hrest, hov.of_pending⟩
    exact (steps_cons ((step_command hrun hpend).trans hu)).trans
      (steps_cons ((step_agent (hphase.trans hrun) hpend').trans ht))
  · obtain ⟨x, v, u, t, hu, hphase, hpend', ht, hrest, hov⟩ :=
      overlapped_after (r := r) (n := n) (s := { s with pending := .agent (endEvent cut n) :: rest }) hnone cut hex rest
    refine ⟨x, v, t, ?_, hrest, hov.of_pending⟩
    exact (steps_begins_command hrun hnone hex hpend hu 1).trans
      (steps_cons ((step_agent (hphase.trans hrun) hpend').trans ht))

end Sys2Proof.Machine
end

section
/-! PROOFS. What an access beside a command makes of each byte, and of nothing when the two are disjoint (20_memory.md
R40): O54. -/

namespace Sys2Proof.Machine

open Sys2Proof.Claims

section
variable {r : Request} {cut : Bool} {n : Nat} {a : AgentAccess} {s x v t : State}
  (h : Overlapped r cut n a s x v t)
include h

theorem Overlapped.lens :
    x.mem.map Buffer.len = s.mem.map Buffer.len ∧ t.mem.map Buffer.len = s.mem.map Buffer.len := by
  have hx : x.mem.map Buffer.len = s.mem.map Buffer.len := by
    rcases h.order with ⟨hx, -⟩ | ⟨hx, -⟩ <;> simp [hx.mem]
  have hv : v.mem.map Buffer.len = s.mem.map Buffer.len := (runCommand_lens h.run).trans hx
  refine ⟨hx, ?_⟩
  rcases h.order with ⟨-, ht⟩ | ⟨-, ht⟩ <;> simp [ht.mem, hv]

theorem Overlapped.draws_le : s.draws ≤ x.draws := by
  rcases h.order with ⟨hx, -⟩ | ⟨hx, -⟩
  · rw [hx.draws]
    exact (State.endAccess_draws_le s cut _).trans (State.drawSpans_draws_le _ _)
  · rw [hx.draws]
    exact State.drawSpans_draws_le _ _

/-- The command claims the same from where it runs. -/
theorem Overlapped.ownClaim_eq : ownClaim x.mem r = ownClaim s.mem r :=
  ownClaim_congr h.lens.1 r

/-- A byte that the command does not claim is not changed by it. -/
theorem Overlapped.run_byte_beside {k j : Nat} (hc : ¬ Claimed (s.claims r) k j) :
    v.mem.byte k j = x.mem.byte k j := by
  refine runCommand_byte_beside h.run fun p hp _ hcov => hc ⟨p, ?_, hcov⟩
  rw [Option.mem_toList, ← h.ownClaim_eq]
  exact hp

end

section
variable {r : Request} {n k j : Nat} {a : AgentAccess} {s x v t : State}
  (h : Overlapped r false n a s x v t) (hex : a.exists s.mem = true)
include h hex

/-- A byte they race for is a draw in the command's input and a draw afterwards (20_memory.md R40). -/
theorem Overlapped.byte_of_races (hr : Races (s.claims r) a k j) :
    IsDraw s.draws (x.mem.byte k j) ∧ IsDraw s.draws (t.mem.byte k j) := by
  have hj := AgentAccess.lt_size hex hr.touches
  have hcov := (covered_racedOf (s.claims r) a k j).mpr hr
  have hxv := (h.draws_le).trans (runCommand_draws_le h.run)
  have hv := (runCommand_lens h.run).trans h.lens.1
  have hraced : IsDraw s.draws ((v.drawSpans (racedOf (s.claims r) a)).mem.byte k j) :=
    (State.drawSpans_byte_covered hcov (Memory.size_congr hv k ▸ hj)).mono hxv
  rcases h.order with ⟨hx, ht⟩ | ⟨hx, ht⟩
  · have hland := State.landAccess_lens s (entryOf (s.claims r) n a)
    refine ⟨?_, ht.mem ▸ hraced⟩
    rw [hx.mem]
    exact (State.drawSpans_byte_covered hcov (Memory.size_congr hland k ▸ hj)).mono (State.landAccess_draws_le s _)
  · refine ⟨hx.mem ▸ State.drawSpans_byte_covered hcov hj, ?_⟩
    rw [ht.mem]
    exact landAccess_byte_of_races ((AgentAccess.exists_congr (by simp [hv])).trans hex) hr
      (hxv.trans (State.drawSpans_draws_le _ _)) fun _ => hraced

/-- A byte they do not race for and the access does not write is left to the command. -/
theorem Overlapped.byte_unwritten (hr : ¬ Races (s.claims r) a k j) (hw : writtenAt a k j = none) :
    x.mem.byte k j = s.mem.byte k j ∧ t.mem.byte k j = v.mem.byte k j := by
  have hcov := (covered_racedOf (s.claims r) a k j).not.mpr hr
  have hv := (runCommand_lens h.run).trans h.lens.1
  rcases h.order with ⟨hx, ht⟩ | ⟨hx, ht⟩
  · rw [hx.mem, ht.mem]
    exact ⟨(State.drawSpans_byte_beside hcov).trans (landAccess_byte_unwritten hex hr hw),
      State.drawSpans_byte_beside hcov⟩
  · rw [hx.mem, ht.mem]
    exact ⟨State.drawSpans_byte_beside hcov,
      (landAccess_byte_unwritten ((AgentAccess.exists_congr (by simp [hv])).trans hex) hr hw).trans
        (State.drawSpans_byte_beside hcov)⟩

/-- A byte the command does not claim is the access's, and unchanged where it writes none. -/
theorem Overlapped.byte_beside (hc : ¬ Claimed (s.claims r) k j) :
    t.mem.byte k j = (writtenAt a k j).getD (s.mem.byte k j) := by
  have hr : ¬ Races (s.claims r) a k j := fun hr => hc hr.claimed
  have hcov := (covered_racedOf (s.claims r) a k j).not.mpr hr
  have hv := (runCommand_lens h.run).trans h.lens.1
  have hrun := h.run_byte_beside hc
  rcases h.order with ⟨hx, ht⟩ | ⟨hx, ht⟩
  · rw [ht.mem, State.drawSpans_byte_beside hcov, hrun, hx.mem]
    exact (State.drawSpans_byte_beside hcov).trans (landAccess_byte_of_not_races hex hr)
  · rw [ht.mem]
    refine (landAccess_byte_of_not_races ((AgentAccess.exists_congr (by simp [hv])).trans hex) hr).trans ?_
    rw [State.drawSpans_byte_beside hcov, hrun, hx.mem]
    exact congrArg _ (State.drawSpans_byte_beside hcov)

end

/-! ### Disjoint bytes -/

/-- What a command claims lies in its span. -/
theorem not_claimed_of_outsideSpan {s : State} {r : Request} {k j : Nat} (h : outsideSpan r k j) :
    ¬ Claimed (s.claims r) k j := by
  rintro ⟨p, hp, rfl, hstart, hend⟩
  obtain ⟨i, hd, hop, hbuf, hoff, hlen⟩ := ownClaim_cases (Option.mem_toList.mp hp)
  exact h i hd hop hbuf ⟨by omega, by omega⟩

theorem not_touches_of_disjointFrom {s : State} {r : Request} {a : AgentAccess} {k j : Nat} (h : disjointFrom r a)
    (hc : Claimed (s.claims r) k j) : ¬ touches a k j := by
  obtain ⟨p, hp, rfl, hstart, hend⟩ := hc
  obtain ⟨i, hd, hop, hbuf, hoff, hlen⟩ := ownClaim_cases (Option.mem_toList.mp hp)
  rintro ⟨hk, hge, hlt⟩
  have := h i hd hop (hk ▸ hbuf)
  omega

theorem not_races_of_disjointFrom {s : State} {r : Request} {a : AgentAccess} (h : disjointFrom r a) (k j : Nat) :
    ¬ Races (s.claims r) a k j :=
  fun hr => not_touches_of_disjointFrom h hr.claimed hr.touches

theorem racedOf_of_disjointFrom {s : State} {r : Request} {a : AgentAccess} (h : disjointFrom r a) :
    racedOf (s.claims r) a = [] :=
  List.flatMap_eq_nil_iff.mpr fun _ hp => (contested_of_disjointFrom (Option.mem_toList.mp hp) h).1

theorem entryOf_raced_of_disjointFrom {s : State} {r : Request} {n : Nat} {a : AgentAccess} (h : disjointFrom r a) :
    (entryOf (s.claims r) n a).raced = [] :=
  List.flatMap_eq_nil_iff.mpr fun _ hp => (contested_of_disjointFrom (Option.mem_toList.mp hp) h).2

theorem State.landAccess_draws_of_raced_nil {s : State} {e : InFlight} (h : e.raced = []) :
    (s.landAccess e).draws = s.draws := by
  unfold State.landAccess
  split
  · rfl
  · split
    · rfl
    · rw [h]
      rfl

section
variable {r : Request} {n k j : Nat} {a : AgentAccess} {s x v t u : State}
  (h : Overlapped r false n a s x v t) (hex : a.exists s.mem = true) (hdis : disjointFrom r a)
include h hdis

/-- Beside a disjoint access nothing is drawn before the command runs. -/
theorem Overlapped.draws_of_disjointFrom : x.draws = s.draws := by
  rcases h.order with ⟨hx, -⟩ | ⟨hx, -⟩
  · rw [hx.draws, racedOf_of_disjointFrom hdis]
    exact State.landAccess_draws_of_raced_nil (entryOf_raced_of_disjointFrom hdis)
  · rw [hx.draws, racedOf_of_disjointFrom hdis]
    rfl

include hex

/-- The bytes the command claims are what they are without the access. -/
theorem Overlapped.input_of_disjointFrom (hc : Claimed (s.claims r) k j) :
    x.mem.byte k j = s.mem.byte k j ∧ t.mem.byte k j = v.mem.byte k j :=
  h.byte_unwritten hex (not_races_of_disjointFrom hdis k j)
    (writtenAt_of_not_touches (not_touches_of_disjointFrom hdis hc))

/-- The response is the one the command gives alone. -/
theorem Overlapped.response_of_disjointFrom (hu : runCommand r s = .next u) : v.response = u.response :=
  runCommand_sameResponse ⟨h.default, h.lens.1, fun p hp _ _ hc =>
    (h.input_of_disjointFrom hex hdis ⟨p, Option.mem_toList.mpr hp, hc⟩).1⟩ h.run hu

/-- Every byte is the access's where it writes, and as the command alone leaves it elsewhere. -/
theorem Overlapped.byte_of_disjointFrom (hu : runCommand r s = .next u) :
    t.mem.byte k j = (writtenAt a k j).getD (u.mem.byte k j) := by
  by_cases hc : Claimed (s.claims r) k j
  · obtain ⟨hxs, htv⟩ := h.input_of_disjointFrom hex hdis hc
    rw [writtenAt_of_not_touches (not_touches_of_disjointFrom hdis hc), htv, Option.getD_none]
    obtain ⟨p, hp, hcov⟩ := hc
    have hps := Option.mem_toList.mp hp
    have hpx := h.ownClaim_eq.trans hps
    cases hw : p.writes with
    | true =>
      obtain ⟨i, hd, -⟩ := ownClaim_cases hps
      rw [runCommand_byte_claimed h.run hd hpx hw hcov, runCommand_byte_claimed hu hd hps hw hcov]
      simp only [encByte, Memory.size_congr h.lens.1, resolve_congr h.default, h.draws_of_disjointFrom hdis]
    | false =>
      have hread {q : Claim} (hq : ownClaim s.mem r = some q) : q.writes = true → ¬ q.span.covers k j := by
        obtain rfl : p = q := Option.some.inj (hps.symm.trans hq)
        simp [hw]
      rw [runCommand_byte_beside h.run fun q hq => hread (h.ownClaim_eq.symm.trans hq),
        runCommand_byte_beside hu fun q hq => hread hq, hxs]
  · rw [h.byte_beside hex hc, runCommand_byte_beside hu fun p hp _ hcov => hc ⟨p, Option.mem_toList.mpr hp, hcov⟩]

end

/-- Settles O54: beside a disjoint access the command has the input it has alone, and nothing is drawn. -/
theorem disjointAccessesDoNotAffectEachOther : Obligations.DisjointAccessesDoNotAffectEachOther := by
  intro s r n a rest hrun hnone hex hdis p hp hpend
  obtain ⟨x, v, t, ht, hrest, hov⟩ := overlapped_of_mem hrun hnone hex (overlaps_eq r n a ▸ hp) hpend
  obtain ⟨u, hu⟩ := runCommand_next r { s with pending := rest }
  have hstep : step { s with pending := .command r [] :: rest } = .next u :=
    (step_command (s := { s with pending := .command r [] :: rest }) hrun rfl).trans
      ((serveCommand_noneInFlight (s := { s with pending := rest }) hnone).trans hu)
  have hlens : t.mem.map Buffer.len = u.mem.map Buffer.len := hov.lens.2.trans (runCommand_lens hu).symm
  obtain ⟨-, -, hseq, -⟩ := runCommand_keeps hu
  have hov' := Overlapped.of_pending (s := { s with pending := rest }) (q := s.pending) hov
  refine ⟨u, t, hstep, ht, hrest, hov.inFlight, ?_, hov.seq.trans hseq.symm, Memory.length_congr hlens,
    fun k b₀ b hb₀ hb => ⟨Memory.len_eq hlens hb₀ hb, fun j => ?_⟩⟩
  · exact hov.response.trans (hov'.response_of_disjointFrom hex hdis hu)
  · rw [← Memory.byte_eq hb, ← Memory.byte_eq hb₀]
    exact hov'.byte_of_disjointFrom hex hdis hu

end Sys2Proof.Machine
end

section
/-! PROOFS. The bytes an ENC or a DEC shares with an overlapping access of its buffer (20_memory.md R40;
93_implementation_defined.md I5): O55, O56. -/

namespace Sys2Proof.Machine

open Sys2Proof.Claims

theorem buf_of_mem_contested {p q : Claim} {c : Span} (h : c ∈ p.contested q) :
    c.buf = p.span.buf ∧ c.buf = q.span.buf := by
  unfold Claim.contested Span.overlap at h
  simp only at h
  split at h
  · split at h
    · rename_i hcond
      obtain rfl := List.mem_singleton.mp h
      exact ⟨rfl, hcond.1⟩
    · simp at h
  · simp at h

theorem buf_of_mem_racedOf {own : List Claim} {a : AgentAccess} {c : Span} (h : c ∈ racedOf own a) :
    c.buf = a.span.buf := by
  obtain ⟨p, -, hc⟩ := List.mem_flatMap.mp h
  exact (buf_of_mem_contested hc).2

theorem buf_of_mem_entryOf {own : List Claim} {n : Nat} {a : AgentAccess} {c : Span} (h : c ∈ (entryOf own n a).raced) :
    c.buf = a.span.buf := by
  obtain ⟨p, -, hc⟩ := List.mem_flatMap.mp h
  exact (buf_of_mem_contested hc).1

section
variable {r : Request} {i : Instr} {n k : Nat} {a : AgentAccess} {s x v t : State} {b : Buffer}

/-- Caller buffers that neither the command nor the access names stay as they are. -/
theorem Overlapped.getElem?_beside (h : Overlapped r false n a s x v t) (ha : a.span.buf ≠ k) (hk : r.buf ≠ some k) :
    t.mem[k]? = s.mem[k]? := by
  have hraced : ∀ p ∈ racedOf (s.claims r) a, p.buf ≠ k := fun p hp => buf_of_mem_racedOf hp ▸ ha
  have hentry : ∀ p ∈ (entryOf (s.claims r) n a).raced, p.buf ≠ k := fun p hp => buf_of_mem_entryOf hp ▸ ha
  have hrun := runCommand_getElem?_beside h.run hk
  rcases h.order with ⟨hx, ht⟩ | ⟨hx, ht⟩
  · rw [ht.mem, State.drawSpans_getElem?_beside hraced, hrun, hx.mem, State.drawSpans_getElem?_beside hraced]
    exact State.landAccess_getElem?_beside (e := entryOf (s.claims r) n a) ha hentry
  · rw [ht.mem]
    refine (State.landAccess_getElem?_beside (e := entryOf (s.claims r) n a) ha hentry).trans ?_
    rw [State.drawSpans_getElem?_beside hraced, hrun, hx.mem, State.drawSpans_getElem?_beside hraced]

theorem Overlapped.eq_set (h : Overlapped r false n a s x v t) (hk : r.buf = some k) (ha : a.span.buf = k)
    (hb : s.mem[k]? = some b) : ∃ b', t.mem[k]? = some b' ∧ t.mem = s.mem.set k b' ∧ b'.len = b.len := by
  obtain ⟨b', hb', hlen⟩ := Memory.exists_of_lens h.lens.2 hb
  refine ⟨b', hb', Memory.eq_set_of_beside (Memory.length_congr h.lens.2) hb' fun k' hk' => ?_, hlen⟩
  exact h.getElem?_beside (fun hc => hk' (hc.symm.trans ha)) fun hc => hk' (Option.some.inj (hc.symm.trans hk))

variable (hd : decode r.cmd = .ok i) (hop : i.op = .enc ∨ i.op = .dec) (hk : r.buf = some k) (hb : s.mem[k]? = some b)
include hd hop hk hb

theorem claimed_iff (j : Nat) :
    Claimed (s.claims r) k j ↔ r.offset.toNat ≤ j ∧ j < r.offset.toNat + i.width.bytes ∧ j < b.len := by
  simp only [Claimed, State.claims, ownClaim_eq hd hop hk hb, Option.toList_some, List.mem_singleton, exists_eq_left,
    Span.covers, true_and]
  omega

theorem races_iff (j : Nat) :
    Races (s.claims r) a k j ↔
      (r.offset.toNat ≤ j ∧ j < r.offset.toNat + i.width.bytes ∧ j < b.len) ∧ touches a k j ∧
        (i.op = .enc ∨ a.isWrite = true) := by
  rw [← claimed_iff hd hop hk hb]
  simp only [Races, Claimed, State.claims, ownClaim_eq hd hop hk hb, Option.toList_some, List.mem_singleton,
    exists_eq_left, beq_iff_eq]

end

theorem writtenAt_of_not_write_touches {a : AgentAccess} {k j : Nat} (h : ¬ (a.isWrite = true ∧ touches a k j)) :
    writtenAt a k j = none := by
  by_cases htouch : touches a k j
  · exact writtenAt_of_not_isWrite (Bool.eq_false_iff.mpr fun hw => h ⟨hw, htouch⟩) k j
  · exact writtenAt_of_not_touches htouch

/-- Settles O55: the ENC writes all it claims, and whatever of it the access touches is contested. -/
theorem racedEncLeavesDraws : Obligations.RacedEncLeavesDraws := by
  intro s r i n a rest k b hrun hnone hd hk ha hb hle hop p hp hpend
  have hex : a.exists s.mem = true := AgentAccess.exists_iff.mpr ⟨b, ha ▸ hb, hle⟩
  obtain ⟨x, v, t, ht, hrest, hov⟩ := overlapped_of_mem hrun hnone hex (overlaps_eq r n a ▸ hp) hpend
  obtain ⟨b', hb', hset, hlen⟩ := hov.eq_set hk ha hb
  obtain ⟨bx, hbx, hlenx⟩ := Memory.exists_of_lens hov.lens.1 hb
  have hexec : exec i (x.latch r) = .next v := (runCommand_legal hd x).symm.trans hov.run
  obtain ⟨hresp, -⟩ := exec_enc_cases hexec hop rfl hk hbx
  have hclaim := ownClaim_eq hd (.inl hop) hk hbx
  refine ⟨t, b', ht, hrest, hset, hlen, by rw [hov.response, hresp, hlenx], fun j hge hlt hj => ?_, fun j hj => ?_⟩
  · have hraces := races_iff (a := a) hd (.inl hop) hk hb j
    rw [← Memory.byte_eq hb']
    by_cases htouch : touches a k j
    · rw [if_pos (.inr htouch)]
      exact (hov.byte_of_races hex (hraces.mpr ⟨⟨hge, hlt, hj⟩, htouch, .inl hop⟩)).2
    · have hv : v.mem.byte k j = encByte i x r k j :=
        runCommand_byte_claimed hov.run hd hclaim (by simp [hop]) ⟨rfl, hge, by dsimp only; omega⟩
      rw [(hov.byte_unwritten hex (fun hr => htouch hr.touches) (writtenAt_of_not_touches htouch)).2, hv, encByte,
        Memory.size_eq hbx, hlenx, resolve_congr hov.default, orderUsed_eq_resolve]
      by_cases hin : r.offset.toNat + i.width.bytes ≤ b.len
      · rw [if_neg (by simp [htouch, hin]), if_pos hin]
      · rw [if_pos (.inl (Nat.not_le.mp hin)), if_neg hin]
        exact ⟨_, hov.draws_le.trans (Nat.le_add_right _ _), rfl⟩
  · rw [← Memory.byte_eq hb', ← Memory.byte_eq hb]
    exact hov.byte_beside hex fun hc => hj ((claimed_iff hd (.inl hop) hk hb j).mp hc |>.imp_right And.left)

/-- Settles O56: the DEC writes nothing, so only what a write contests is drawn, before it reads and after. -/
theorem racedDecReadsDraws : Obligations.RacedDecReadsDraws := by
  intro s r i n a rest k b hrun hnone hd hk ha hb hle hoff hop p hp hpend
  have hex : a.exists s.mem = true := AgentAccess.exists_iff.mpr ⟨b, ha ▸ hb, hle⟩
  obtain ⟨x, v, t, ht, hrest, hov⟩ := overlapped_of_mem hrun hnone hex (overlaps_eq r n a ▸ hp) hpend
  obtain ⟨b', hb', hset, hlen⟩ := hov.eq_set hk ha hb
  obtain ⟨bx, hbx, hlenx⟩ := Memory.exists_of_lens hov.lens.1 hb
  have hexec : exec i (x.latch r) = .next v := (runCommand_legal hd x).symm.trans hov.run
  have hvx : v.mem = x.mem := exec_mem_of_not_enc (s := x.latch r) hexec (by simp [hop])
  have hraces (j : Nat) := races_iff (a := a) hd (.inr hop) hk hb j
  have hunraced (j : Nat) (h : ¬ (a.isWrite = true ∧ touches a k j)) :
      x.mem.byte k j = s.mem.byte k j ∧ t.mem.byte k j = v.mem.byte k j := by
    refine hov.byte_unwritten hex (fun hr => ?_) (writtenAt_of_not_write_touches h)
    obtain ⟨-, htouch, hw⟩ := (hraces j).mp hr
    exact h ⟨hw.resolve_left (by simp [hop]), htouch⟩
  cases hexec.symm.trans (exec_dec_reads (s := x.latch r) hop rfl hk hbx (by omega))
  refine ⟨t, b', _, ht, hrest, hov.response, hset, hlen, ?_, fun j hj => ?_, fun j hj => ?_⟩
  · rw [← Width.bits_eq]
    exact readImage_toNat_lt (decodeInput_length ..) _
  · rw [← Memory.byte_eq hb', ← Memory.byte_eq hb]
    by_cases hc : Claimed (s.claims r) k j
    · obtain ⟨hge, hlt, -⟩ := (claimed_iff hd (.inr hop) hk hb j).mp hc
      have hnot : ¬ (a.isWrite = true ∧ touches a k j) := fun ⟨hw, htouch⟩ => hj ⟨hw, hge, hlt, htouch⟩
      rw [(hunraced j hnot).2, hvx, (hunraced j hnot).1, writtenAt_of_not_write_touches hnot, Option.getD_none]
    · exact hov.byte_beside hex hc
  · intro m q
    have hq : q = sourceIndex (x.resolve i.explicit) r.offset.toNat m j := by
      rw [resolve_congr hov.default, ← orderUsed_eq_resolve]
      cases horder : orderUsed s i.explicit <;> simp only [q, horder] <;> rfl
    have hbyte : byteAt (readImage i.width (decodeInput i.width (x.resolve i.explicit) bx r.offset.toNat)
        (x.resolve i.explicit)) j = if j < m then x.mem.byte k q else 0 := by
      rw [byteAt_decode, hlenx, hq, Memory.byte_eq hbx]
    change if j < m then if _ then (∃ d, s.draws ≤ d ∧ byteAt _ j = _) ∧ _ else byteAt _ j = _ else byteAt _ j = 0
    by_cases hjm : j < m
    · have hm : m = min i.width.bytes (b.len - r.offset.toNat) := rfl
      obtain ⟨hge, hlt⟩ := sourceIndex_bounds (start := r.offset.toNat) hjm (x.resolve i.explicit)
      rw [← hq] at hge hlt
      rw [if_pos hjm] at hbyte ⊢
      split
      · rename_i hw
        have hr := (hraces q).mpr ⟨⟨hge, by omega, by omega⟩, hw.2, .inr hw.1⟩
        obtain ⟨hxdraw, htdraw⟩ := hov.byte_of_races hex hr
        rw [Memory.byte_eq hb'] at htdraw
        exact ⟨hbyte ▸ hxdraw, htdraw⟩
      · rename_i hw
        rw [← Memory.byte_eq hb]
        exact hbyte.trans (hunraced q hw).1
    · rw [if_neg hjm] at hbyte ⊢
      exact hbyte

end Sys2Proof.Machine
end

section
/-! PROOFS. The accesses of other agents among themselves, without a command and beside one: ordered, overlapping, and
cut off by a reset (20_memory.md R40, R42; 70_reset_and_hazards.md R152; 93_implementation_defined.md I5, I6): O57. -/

namespace Sys2Proof.Machine

open Sys2Proof.Claims

/-! ### Events between two commands -/

theorem State.eq_of_fields {s t : State} (hphase : s.phase = t.phase) (hdef : s.defaultLE = t.defaultLE)
    (hseq : s.seq = t.seq) (hreq : s.request = t.request) (hresp : s.response = t.response)
    (hflight : s.inFlight = t.inFlight) (hpend : s.pending = t.pending) (hstore : SameStore s t) : s = t := by
  obtain ⟨hmem, hdraws⟩ := hstore
  cases s
  cases t
  simp_all

/-- The pending inputs play no part in the end of an access. -/
theorem State.endAccess_withPending (s : State) (q : List HostInput) (cut : Bool) (e : InFlight) :
    State.endAccess { s with pending := q } cut e = { s.endAccess cut e with pending := q } := by
  have hstore : SameStore (State.endAccess { s with pending := q } cut e) { s.endAccess cut e with pending := q } :=
    ((sameStore_pending s q).endAccess cut e).trans ⟨rfl, rfl⟩
  exact State.eq_of_fields (by simp) (by simp) (by simp) (by simp) (by simp) (by simp) (by simp) hstore

theorem agentEvent_withPending {own : List Claim} {e : AgentEvent} {s t : State} (h : agentEvent own e s = .next t)
    (q : List HostInput) : agentEvent own e { s with pending := q } = .next { t with pending := q } := by
  have hend (cut : Bool) (n : Nat) (h : agentEvent own (endEvent cut n) s = .next t) :
      agentEvent own (endEvent cut n) { s with pending := q } = .next { t with pending := q } := by
    cases ho : s.oldestOf n with
    | none =>
      have hsame (s : State) (ho : s.oldestOf n = none) : agentEvent own (endEvent cut n) s = .next s := by
        cases cut <;> simp [agentEvent, endEvent, ho]
      rw [hsame s ho] at h
      cases h
      exact hsame _ ho
    | some x =>
      rw [agentEvent_ends ho] at h
      cases h
      rw [agentEvent_ends (s := { s with pending := q }) (e := x) ho, State.endAccess_withPending]
      rfl
  cases e with
  | begins n a =>
    by_cases hex : a.exists s.mem = true
    · rw [agentEvent_begins hex] at h
      cases h
      exact agentEvent_begins (s := { s with pending := q }) hex
    · simp [agentEvent, hex] at h
  | returns n => exact hend false n h
  | isCut n => exact hend true n h

theorem agentEvents_withPending {own : List Claim} {es : List AgentEvent} {s t : State}
    (h : agentEvents own es s = .next t) (q : List HostInput) :
    agentEvents own es { s with pending := q } = .next { t with pending := q } := by
  induction es generalizing s with
  | nil => cases h; rfl
  | cons e es ih =>
    obtain ⟨u, hu, ht⟩ := andThen_eq_next.mp h
    exact andThen_eq_next.mpr ⟨_, agentEvent_withPending hu q, ih ht⟩

/-- Steps on pending events of other agents are those events, one after the other. -/
theorem steps_agents {es : List AgentEvent} {s t : State} {rest : List HostInput} (hrun : s.phase = .running)
    (hpend : s.pending = es.map .agent ++ rest) (h : agentEvents [] es s = .next t) :
    steps es.length s = .next { t with pending := rest } := by
  induction es generalizing s t with
  | nil =>
    cases h
    rw [show rest = s.pending from hpend.symm]
    rfl
  | cons e es ih =>
    obtain ⟨u, hu, ht⟩ := andThen_eq_next.mp h
    have hstep : step s = .next { u with pending := es.map .agent ++ rest } :=
      (step_agent hrun hpend).trans (agentEvent_withPending hu _)
    have hrest := ih (s := { u with pending := es.map .agent ++ rest }) ((agentEvent_keeps hu).1.trans hrun) rfl
      (agentEvents_withPending ht (es.map .agent ++ rest))
    exact (steps_cons hstep).trans hrest

/-! ### One access -/

theorem not_claimed_nil (k j : Nat) : ¬ Claimed [] k j := by
  simp [Claimed]

section
variable {own : List Claim} {s : State} {n m : Nat} {a c : AgentAccess} (hnone : s.inFlight = [])
include hnone

/-- An access with no other in flight begins and ends. -/
theorem agentEvents_access (hex : a.exists s.mem = true) (cut : Bool) :
    ∃ t, agentEvents own [.begins n a, endEvent cut n] s = .next t ∧ t.inFlight = [] ∧
      SameStore t (s.endAccess cut (entryOf own n a)) := by
  refine ⟨((s.beginAccess own n a).endAccess cut (entryOf own n a)).dropOldestOf n, ?_, ?_,
    ((sameStore_beginAccess ..).endAccess cut _).dropOldestOf n⟩
  · simp only [agentEvents, agentEvent_begins hex, andThen_next, agentEvent_ends (oldestOf_beginAccess hnone own)]
  · simp [beginAccess_of_noneInFlight hnone]

/-- Two accesses, the second beginning after the first has returned (20_memory.md R42). -/
theorem agentEvents_ordered (hexa : a.exists s.mem = true) (hexc : c.exists s.mem = true) :
    ∃ t, agentEvents own [.begins n a, .returns n, .begins m c, .returns m] s = .next t ∧ t.inFlight = [] ∧
      SameStore t ((s.landAccess (entryOf own n a)).landAccess (entryOf own m c)) := by
  obtain ⟨u, hu, hunone, hustore⟩ := agentEvents_access (own := own) (n := n) hnone hexa false
  have hlens := (agentEvents_keeps hu).2.2.2.2.2.2.1
  obtain ⟨t, ht, htnone, htstore⟩ :=
    agentEvents_access (own := own) (n := m) hunone ((AgentAccess.exists_congr hlens).trans hexc) false
  refine ⟨t, ?_, htnone, htstore.trans (hustore.landAccess _)⟩
  obtain ⟨w, hw, hu⟩ := andThen_eq_next.mp hu
  obtain ⟨w', hw', hu⟩ := andThen_eq_next.mp hu
  cases hu
  exact andThen_eq_next.mpr ⟨w, hw, andThen_eq_next.mpr ⟨u, hw', ht⟩⟩

/-- Two accesses begin, and each is overlapped by the other's claim. -/
theorem beginAccess_beginAccess :
    (s.beginAccess own n a).beginAccess own m c =
      { s with inFlight := [entryOf (own ++ [c.claim]) n a, entryOf (own ++ [a.claim]) m c] } := by
  rw [beginAccess_of_noneInFlight hnone]
  simp [State.beginAccess, State.meet, State.races, entryOf]

end

/-- Two accesses in flight return, the first of the two named here first. -/
theorem agentEvents_returns {own : List Claim} {s : State} {e f : InFlight} (hne : e.agent ≠ f.agent)
    (h : s.inFlight = [e, f] ∨ s.inFlight = [f, e]) :
    ∃ t, agentEvents own [.returns e.agent, .returns f.agent] s = .next t ∧ t.inFlight = [] ∧
      SameStore t ((s.landAccess e).landAccess f) := by
  have hefind : s.oldestOf e.agent = some e := by
    rcases h with h | h <;> simp [State.oldestOf, h, hne.symm]
  have hleft : ((s.landAccess e).dropOldestOf e.agent).inFlight = [f] := by
    rcases h with h | h <;> simp [h, hne.symm]
  have hffind : ((s.landAccess e).dropOldestOf e.agent).oldestOf f.agent = some f := by
    rw [State.oldestOf, hleft]
    simp
  have he := agentEvent_ends (own := own) hefind false
  have hf := agentEvent_ends (own := own) hffind false
  refine ⟨_, andThen_eq_next.mpr ⟨_, he, andThen_eq_next.mpr ⟨_, hf, rfl⟩⟩, ?_, ?_⟩
  · rw [State.dropOldestOf_inFlight, State.endAccess_inFlight, hleft]
    simp
  · exact SameStore.dropOldestOf (SameStore.landAccess (SameStore.dropOldestOf ⟨rfl, rfl⟩ _) f) _

/-- Two accesses of different agents overlap and return in either order. -/
theorem agentEvents_overlapping {own : List Claim} {s : State} {n m : Nat} {a c : AgentAccess} {p : Nat × Nat}
    (hnone : s.inFlight = []) (hne : n ≠ m) (hexa : a.exists s.mem = true) (hexc : c.exists s.mem = true)
    (hp : p ∈ [(n, m), (m, n)]) :
    ∃ t, agentEvents own [.begins n a, .begins m c, .returns p.1, .returns p.2] s = .next t ∧ t.inFlight = [] ∧
      (SameStore t ((s.landAccess (entryOf (own ++ [c.claim]) n a)).landAccess (entryOf (own ++ [a.claim]) m c)) ∨
        SameStore t ((s.landAccess (entryOf (own ++ [a.claim]) m c)).landAccess (entryOf (own ++ [c.claim]) n a))) := by
  have hbegin (es : List AgentEvent) : agentEvents own (.begins n a :: .begins m c :: es) s =
      agentEvents own es { s with inFlight := [entryOf (own ++ [c.claim]) n a, entryOf (own ++ [a.claim]) m c] } := by
    rw [← beginAccess_beginAccess hnone]
    simp only [agentEvents, agentEvent_begins hexa, andThen_next]
    rw [agentEvent_begins (s := s.beginAccess own n a) hexc, andThen_next]
  have hstore : SameStore { s with inFlight := [entryOf (own ++ [c.claim]) n a, entryOf (own ++ [a.claim]) m c] } s :=
    ⟨rfl, rfl⟩
  have hreturns {e f : InFlight} (hef : e.agent ≠ f.agent) (h : _ = [e, f] ∨ _ = [f, e]) :=
    agentEvents_returns (own := own)
      (s := { s with inFlight := [entryOf (own ++ [c.claim]) n a, entryOf (own ++ [a.claim]) m c] }) hef h
  simp only [List.mem_cons, List.not_mem_nil, or_false] at hp
  rcases hp with rfl | rfl
  · obtain ⟨t, ht, htnone, htstore⟩ :=
      hreturns (e := entryOf (own ++ [c.claim]) n a) (f := entryOf (own ++ [a.claim]) m c) hne (.inl rfl)
    exact ⟨t, (hbegin _).trans ht, htnone, .inl (htstore.trans ((hstore.landAccess _).landAccess _))⟩
  · obtain ⟨t, ht, htnone, htstore⟩ :=
      hreturns (e := entryOf (own ++ [a.claim]) m c) (f := entryOf (own ++ [c.claim]) n a) hne.symm (.inr rfl)
    exact ⟨t, (hbegin _).trans ht, htnone, .inr (htstore.trans ((hstore.landAccess _).landAccess _))⟩

/-! ### The bytes two accesses leave -/

/-- Two accesses both touch index j of caller buffer k, and one of them writes. -/
abbrev Conflict (a c : AgentAccess) (k j : Nat) : Prop :=
  touches a k j ∧ touches c k j ∧ (a.isWrite = true ∨ c.isWrite = true)

theorem Conflict.symm {a c : AgentAccess} {k j : Nat} (h : Conflict a c k j) : Conflict c a k j :=
  ⟨h.2.1, h.1, h.2.2.symm⟩

/-- Where a command claims nothing, an access races with the other access alone. -/
theorem races_append_claim {own : List Claim} {k j : Nat} (hc : ¬ Claimed own k j) (a c : AgentAccess) :
    Races (own ++ [c.claim]) a k j ↔ Conflict a c k j := by
  constructor
  · rintro ⟨p, hp, hcov, ha, hw⟩
    rcases List.mem_append.mp hp with hp | hp
    · exact absurd ⟨p, hp, hcov⟩ hc
    · obtain rfl := List.mem_singleton.mp hp
      exact ⟨ha, hcov, hw.symm⟩
  · rintro ⟨ha, hcov, hw⟩
    exact ⟨c.claim, List.mem_append_right _ (List.mem_singleton_self _), hcov, ha, hw.symm⟩

/-- What two accesses write where they do not conflict, in either order. -/
theorem writtenAt_or_comm {a c : AgentAccess} {k j : Nat} (h : ¬ Conflict a c k j) :
    (writtenAt c k j).or (writtenAt a k j) = (writtenAt a k j).or (writtenAt c k j) := by
  by_cases ha : a.isWrite = true ∧ touches a k j
  · have hcnone : writtenAt c k j = none :=
      writtenAt_of_not_touches fun hc => h ⟨ha.2, hc, .inl ha.1⟩
    simp [hcnone]
  · simp [writtenAt_of_not_write_touches ha]

section
variable {s t : State} {own own' : List Claim} {n m k j : Nat} {a c : AgentAccess}
  (hexa : a.exists s.mem = true) (hexc : c.exists s.mem = true)
include hexa hexc

/-- Two accesses that race for nothing here: the later one's byte, else the earlier one's. -/
theorem landAccess_landAccess_of_not_races (ha : ¬ Races own a k j) (hc : ¬ Races own' c k j) :
    ((s.landAccess (entryOf own n a)).landAccess (entryOf own' m c)).mem.byte k j =
      ((writtenAt c k j).or (writtenAt a k j)).getD (s.mem.byte k j) := by
  rw [landAccess_byte_of_not_races ((AgentAccess.exists_congr (State.landAccess_lens ..)).trans hexc) hc,
    landAccess_byte_of_not_races hexa ha]
  cases writtenAt c k j <;> rfl

/-- Two accesses that race here: whichever writes last leaves a draw. -/
theorem landAccess_landAccess_of_races (ha : Races own a k j) (hc : Races own' c k j)
    (hw : a.isWrite = true ∨ c.isWrite = true) :
    IsDraw s.draws (((s.landAccess (entryOf own n a)).landAccess (entryOf own' m c)).mem.byte k j) := by
  refine landAccess_byte_of_races ((AgentAccess.exists_congr (State.landAccess_lens ..)).trans hexc) hc
    (State.landAccess_draws_le s _) fun hread => ?_
  have hawrite : a.isWrite = true := hw.resolve_right (by simp [hread])
  exact landAccess_byte_of_races hexa ha (Nat.le_refl _) (by simp [hawrite])

/-- Every byte beside the command's after two overlapping accesses have returned in either order (20_memory.md R40). -/
theorem byte_of_overlapping
    (h : SameStore t ((s.landAccess (entryOf (own ++ [c.claim]) n a)).landAccess (entryOf (own ++ [a.claim]) m c)) ∨
      SameStore t ((s.landAccess (entryOf (own ++ [a.claim]) m c)).landAccess (entryOf (own ++ [c.claim]) n a)))
    (hclaim : ¬ Claimed own k j) :
    (Conflict a c k j → IsDraw s.draws (t.mem.byte k j)) ∧
      (¬ Conflict a c k j →
        t.mem.byte k j = ((writtenAt c k j).or (writtenAt a k j)).getD (s.mem.byte k j)) := by
  have ha := races_append_claim hclaim a c
  have hc : Races (own ++ [a.claim]) c k j ↔ Conflict a c k j :=
    (races_append_claim hclaim c a).trans ⟨Conflict.symm, Conflict.symm⟩
  rcases h with h | h
  · rw [h.mem]
    exact ⟨fun hac => landAccess_landAccess_of_races hexa hexc (ha.mpr hac) (hc.mpr hac) hac.2.2,
      fun hac => landAccess_landAccess_of_not_races hexa hexc (ha.not.mpr hac) (hc.not.mpr hac)⟩
  · rw [h.mem]
    refine ⟨fun hac => landAccess_landAccess_of_races hexc hexa (hc.mpr hac) (ha.mpr hac) hac.2.2.symm, fun hac => ?_⟩
    rw [writtenAt_or_comm hac]
    exact landAccess_landAccess_of_not_races hexc hexa (hc.not.mpr hac) (ha.not.mpr hac)

end

/-! ### Beside a command -/

/-- A command contests only what it claims. -/
theorem claimed_of_covered_commandRaces {s : State} {own : List Claim} {during : List AgentEvent} {k j : Nat}
    (h : covered (s.commandRaces own during) k j) : Claimed own k j := by
  obtain ⟨q, hq, hcov⟩ := h
  obtain ⟨p, hp, hq⟩ := List.mem_flatMap.mp hq
  refine ⟨p, hp, ?_⟩
  rcases List.mem_append.mp hq with hq | hq
  · obtain ⟨e, -, hq⟩ := List.mem_flatMap.mp hq
    exact ((covered_contested p e.access.claim k j).mp ⟨q, hq, hcov⟩).1
  · obtain ⟨a, -, hq⟩ := List.mem_flatMap.mp hq
    exact ((covered_contested p a.claim k j).mp ⟨q, hq, hcov⟩).1

/-- What a command claims nothing of is as the events beside it leave it. -/
theorem serveCommand_beside {r : Request} {during : List AgentEvent} {s u : State} (hnone : s.inFlight = [])
    (hu : agentEvents (s.claims r) during s = .next u) :
    ∃ t, serveCommand r during s = .next t ∧ t.inFlight = u.inFlight ∧
      t.mem.map Buffer.len = s.mem.map Buffer.len ∧
      ∀ k j, ¬ Claimed (s.claims r) k j → t.mem.byte k j = u.mem.byte k j := by
  obtain ⟨v, hv⟩ := runCommand_next r (u.drawSpans (s.commandRaces (s.claims r) during))
  have hlens : u.mem.map Buffer.len = s.mem.map Buffer.len := (agentEvents_keeps hu).2.2.2.2.2.2.1
  obtain ⟨-, hflight, -⟩ := runCommand_keeps hv
  refine ⟨v.drawSpans (s.commandRaces (s.claims r) during), ?_, by simp [hflight],
    by simp [runCommand_lens hv, hlens], fun k j hc => ?_⟩
  · unfold serveCommand whileInProgress
    simp only [meet_of_noneInFlight hnone, hu, andThen_next, hv]
  · have hbeside (w : State) : (w.drawSpans (s.commandRaces (s.claims r) during)).mem.byte k j = w.mem.byte k j :=
      State.drawSpans_byte_beside fun h => hc (claimed_of_covered_commandRaces h)
    rw [hbeside, runCommand_byte_beside hv, hbeside]
    intro p hp _ hcov
    rw [ownClaim_congr ((State.drawSpans_lens ..).trans hlens)] at hp
    exact hc ⟨p, Option.mem_toList.mpr hp, hcov⟩

/-! ### An access cut off beside a command -/

section
variable {r : Request} {n k j : Nat} {a : AgentAccess} {s x v t : State} (h : Overlapped r true n a s x v t)
include h

/-- Every byte of an access that is cut off is a draw (70_reset_and_hazards.md R152). -/
theorem Overlapped.cut_byte_touched (hex : a.exists s.mem = true) (htouch : touches a k j) :
    IsDraw s.draws (t.mem.byte k j) := by
  have hj := AgentAccess.lt_size hex htouch
  have hv := Memory.size_congr ((runCommand_lens h.run).trans h.lens.1) k
  have hxv := h.draws_le.trans (runCommand_draws_le h.run)
  rcases h.order with ⟨hx, ht⟩ | ⟨-, ht⟩
  · rw [ht.mem]
    by_cases hr : Races (s.claims r) a k j
    · exact (State.drawSpans_byte_covered ((covered_racedOf ..).mpr hr) (hv ▸ hj)).mono hxv
    · refine State.drawSpans_keeps_draw ?_ hxv (hv ▸ hj)
      rw [runCommand_byte_beside h.run, hx.mem]
      · exact State.drawSpans_keeps_draw (State.drawSpan_byte_covered htouch hj) (State.drawSpan_draws_le s _)
          (Memory.size_congr (State.drawSpan_lens s a.span) k ▸ hj)
      · intro p hp hw hcov
        exact hr ⟨p, Option.mem_toList.mpr (h.ownClaim_eq.symm.trans hp), hcov, htouch, .inl hw⟩
  · rw [ht.mem]
    have hsize := Memory.size_congr (State.drawSpans_lens v (racedOf (s.claims r) a)) k
    exact (State.drawSpan_byte_covered (p := a.span) htouch (hsize ▸ hv ▸ hj)).mono
      (hxv.trans (State.drawSpans_draws_le _ _))

/-- A byte that neither the command nor the access touches is unchanged. -/
theorem Overlapped.cut_byte_beside (hc : ¬ Claimed (s.claims r) k j) (htouch : ¬ touches a k j) :
    t.mem.byte k j = s.mem.byte k j := by
  have hbeside (w : State) : (w.drawSpans (racedOf (s.claims r) a)).mem.byte k j = w.mem.byte k j :=
    State.drawSpans_byte_beside fun hcov => hc ((covered_racedOf ..).mp hcov).claimed
  have hcut (w : State) : (w.drawSpan a.span).mem.byte k j = w.mem.byte k j := State.drawSpan_byte_beside htouch
  have hrun := h.run_byte_beside hc
  rcases h.order with ⟨hx, ht⟩ | ⟨hx, ht⟩
  · rw [ht.mem, hbeside, hrun, hx.mem, hbeside]
    exact hcut s
  · rw [ht.mem]
    refine (hcut _).trans ?_
    rw [hbeside, hrun, hx.mem, hbeside]

end

/-! ### The six clauses -/

/-- Settles O57, clause by clause: the events without a command have no claims beside them, those with one are looked at
where the command claims nothing. -/
theorem agentAccessesLandInOrderOrRace : Obligations.AgentAccessesLandInOrderOrRace := by
  refine ⟨?_, ?_, ?_, ?_, ?_, ?_⟩
  · intro s n a rest hrun hnone hex hpend
    obtain ⟨u, hu, hunone, hstore⟩ := agentEvents_access (own := []) (n := n) hnone hex false
    obtain ⟨hphase, hdef, hseq, hreq, hresp, -, hlens, -⟩ := agentEvents_keeps hu
    refine ⟨_, steps_agents hrun hpend hu, rfl, hunone, hreq, hresp, hseq, hdef, hphase.trans hrun,
      Memory.length_congr hlens, fun k b b' hb (hb' : u.mem[k]? = some b') =>
        ⟨Memory.len_eq hlens hb hb', fun j => ?_⟩⟩
    rw [← Memory.byte_eq hb, ← Memory.byte_eq hb', hstore.mem]
    exact landAccess_byte_of_not_races hex fun hr => not_claimed_nil k j hr.claimed
  · intro s n m a c rest hrun hnone hne hexa hexc p hp hpend
    obtain ⟨u, hu, hunone, hstore⟩ := agentEvents_overlapping (own := []) hnone hne hexa hexc hp
    obtain ⟨-, -, -, -, -, -, hlens, -⟩ := agentEvents_keeps hu
    refine ⟨_, steps_agents hrun hpend hu, rfl, hunone, Memory.length_congr hlens,
      fun k b b' hb (hb' : u.mem[k]? = some b') => ⟨Memory.len_eq hlens hb hb', fun j => ?_⟩⟩
    rw [← Memory.byte_eq hb, ← Memory.byte_eq hb']
    obtain ⟨hrace, hclear⟩ := byte_of_overlapping hexa hexc hstore (not_claimed_nil k j)
    split
    case isTrue hac => exact hrace hac
    case isFalse hac => exact hclear hac
  · intro s n a rest hrun hnone hex hpend
    obtain ⟨u, hu, hunone, hstore⟩ := agentEvents_access (own := []) (n := n) hnone hex true
    obtain ⟨hphase, hdef, hseq, hreq, hresp, -, hlens, -⟩ := agentEvents_keeps hu
    refine ⟨_, steps_agents hrun hpend hu, rfl, hunone, hreq, hresp, hseq, hdef, hphase.trans hrun,
      Memory.length_congr hlens, fun k b b' hb (hb' : u.mem[k]? = some b') =>
        ⟨Memory.len_eq hlens hb hb', fun j => ?_⟩⟩
    rw [← Memory.byte_eq hb, ← Memory.byte_eq hb', hstore.mem]
    split
    case isTrue htouch => exact State.drawSpan_byte_covered (p := a.span) htouch (AgentAccess.lt_size hex htouch)
    case isFalse htouch => exact State.drawSpan_byte_beside (p := a.span) htouch
  · intro s r n m a c rest hrun hnone hexa hexc hpend
    obtain ⟨u, hu, hunone, hstore⟩ :=
      agentEvents_ordered (s := { s with pending := rest }) (own := s.claims r) (n := n) (m := m) hnone hexa hexc
    obtain ⟨t, ht, hflight, hlens, hbytes⟩ := serveCommand_beside (s := { s with pending := rest }) hnone hu
    refine ⟨t, (step_command hrun hpend).trans ht, hflight.trans hunone, Memory.length_congr hlens,
      fun k b b' hb hb' => ⟨Memory.len_eq hlens hb hb', fun j hout => ?_⟩⟩
    rw [← Memory.byte_eq hb, ← Memory.byte_eq hb']
    have hclaim := not_claimed_of_outsideSpan (s := s) hout
    rw [hbytes k j hclaim, hstore.mem]
    exact landAccess_landAccess_of_not_races (s := { s with pending := rest }) hexa hexc
      (fun hr => hclaim hr.claimed) fun hr => hclaim hr.claimed
  · intro s r n m a c rest hrun hnone hne hexa hexc p hp hpend
    obtain ⟨u, hu, hunone, hstore⟩ :=
      agentEvents_overlapping (s := { s with pending := rest }) (own := s.claims r) hnone hne hexa hexc hp
    obtain ⟨t, ht, hflight, hlens, hbytes⟩ := serveCommand_beside (s := { s with pending := rest }) hnone hu
    refine ⟨t, (step_command hrun hpend).trans ht, hflight.trans hunone, Memory.length_congr hlens,
      fun k b b' hb hb' => ⟨Memory.len_eq hlens hb hb', fun j hout => ?_⟩⟩
    rw [← Memory.byte_eq hb, ← Memory.byte_eq hb']
    have hclaim := not_claimed_of_outsideSpan (s := s) hout
    obtain ⟨hrace, hclear⟩ := byte_of_overlapping (s := { s with pending := rest }) hexa hexc hstore hclaim
    rw [hbytes k j hclaim]
    split
    case isTrue hac => exact hrace hac
    case isFalse hac => exact hclear hac
  · intro s r n a rest hrun hnone hex p hp hpend
    obtain ⟨x, v, t, ht, hrest, hov⟩ := overlapped_of_mem hrun hnone hex (overlapsAndIsCut_eq r n a ▸ hp) hpend
    obtain ⟨-, -, -, q, hq⟩ := runCommand_keeps hov.run
    refine ⟨t, q, ht, hrest, hov.inFlight, hov.response.trans hq, hov.seq, Memory.length_congr hov.lens.2,
      fun k b b' hb hb' => ⟨Memory.len_eq hov.lens.2 hb hb', fun j => ?_⟩⟩
    rw [← Memory.byte_eq hb, ← Memory.byte_eq hb']
    split
    case isTrue htouch => exact hov.cut_byte_touched hex htouch
    case isFalse htouch => exact fun hout => hov.cut_byte_beside (not_claimed_of_outsideSpan hout) htouch

end Sys2Proof.Machine
end

section
/-! PROOFS. The command word (30_encoding.md R48 to R60). Its fields are its bits, the codes of R49 to R51 are
one-to-one, and the tuple `(op, W, S, explicit?)` names at most one command, so a word decodes to a command exactly when
it is the word of that command: O1 to O4. -/

namespace Sys2Proof

/-! ### The fields are the sixteen bits of the word -/

theorem Fields.getLsbD_toWord (f : Fields) (k : Nat) :
    f.toWord.getLsbD k =
      if k < 6 then f.rsv.getLsbD k
      else if k < 7 then f.ele
      else if k < 8 then f.esel
      else if k < 9 then f.s
      else if k < 12 then f.wid.getLsbD (k - 9)
      else f.op.getLsbD (k - 12) := by
  simp only [Fields.toWord, BitVec.getLsbD_append, BitVec.getLsbD_ofBool]
  grind

theorem Fields.extractLsb'_toWord {f : Fields} {start n : Nat} {x : BitVec n}
    (h : ∀ j < n, f.toWord.getLsbD (start + j) = x.getLsbD j) : f.toWord.extractLsb' start n = x := by
  refine BitVec.eq_of_getLsbD_eq fun j hj => ?_
  rw [BitVec.getLsbD_extractLsb', decide_eq_true hj, Bool.true_and, h j hj]

@[simp] theorem Fields.toWord_ofWord (w : CmdWord) : (Fields.ofWord w).toWord = w := by
  refine BitVec.eq_of_getLsbD_eq fun k hk => ?_
  simp only [Fields.getLsbD_toWord, Fields.ofWord, BitVec.getLsbD_extractLsb']
  grind

@[simp] theorem Fields.ofWord_toWord (f : Fields) : Fields.ofWord f.toWord = f := by
  have hop : f.toWord.extractLsb' 12 4 = f.op :=
    extractLsb'_toWord fun j hj => by rw [getLsbD_toWord]; grind
  have hwid : f.toWord.extractLsb' 9 3 = f.wid :=
    extractLsb'_toWord fun j hj => by rw [getLsbD_toWord]; grind
  have hrsv : f.toWord.extractLsb' 0 6 = f.rsv :=
    extractLsb'_toWord fun j hj => by rw [getLsbD_toWord]; grind
  simp only [ofWord, hop, hwid, hrsv, getLsbD_toWord]
  rfl

theorem Fields.toWord_eq_iff {f : Fields} {w : CmdWord} : f.toWord = w ↔ f = Fields.ofWord w :=
  ⟨fun h => by rw [← h, ofWord_toWord], fun h => by rw [h, toWord_ofWord]⟩

/-! ### The codes -/

theorem Op.ofCode_eq_some {c : BitVec 4} {op : Op} : Op.ofCode c = some op ↔ op.code = c := by
  revert c
  cases op <;> decide

theorem Width.ofCode_eq_some {c : BitVec 3} {w : Width} : Width.ofCode c = some w ↔ w.code = c := by
  revert c
  cases w <;> decide

theorem Fields.opOk_iff {f : Fields} : f.opOk = true ↔ ∃ op : Op, op.code = f.op := by
  have htable : ∀ c, [(1 : BitVec 4), 2, 3, 4, 5].contains c = (Op.ofCode c).isSome := by decide
  simp only [← Op.ofCode_eq_some, ← Option.isSome_iff_exists]
  rw [Fields.opOk, htable]

theorem Width.exists_code {c : BitVec 3} : (∃ w : Width, w.code = c) ↔ c.toNat ≤ 4 := by
  have htable : ∀ c, (Width.ofCode c).isSome = decide (c.toNat ≤ 4) := by decide
  simp only [← Width.ofCode_eq_some, ← Option.isSome_iff_exists]
  rw [htable, decide_eq_true_iff]

theorem Fields.endianSelectOk_iff {f : Fields} : f.endianSelectOk = true ↔ ¬ (f.esel = false ∧ f.ele = true) := by
  cases hl : f.esel <;> cases he : f.ele <;> simp [endianSelectOk, hl, he]

theorem Fields.explicit_eq_none {f : Fields} : f.explicit = none ↔ f.esel = false := by
  simp [Fields.explicit]

/-- ESEL and ELE are the explicit endianness in bit form, for the three combinations of R51. -/
theorem Fields.explicit_eq {f : Fields} {x : Option Endian} :
    f.endianSelectOk = true ∧ f.explicit = x ↔
      f.esel = x.isSome ∧ f.ele = (x.map Endian.bit).getD false := by
  obtain ⟨op, wid, s, esel, ele, rsv⟩ := f
  simp only [endianSelectOk, Fields.explicit]
  revert esel ele
  rcases x with _ | _ | _ <;> decide

/-! ### The tuple of a command -/

/-- The tuples that name a command (30_encoding.md R55, R58): EXPT has the two composer widths, QEND has all its
columns clear. -/
def NamesCommand (op : Op) (w : Width) (signed : Bool) (x : Option Endian) : Prop :=
  (op = .expt → w = .w128 ∨ w = .w256) ∧ (op = .qend → w = .w16 ∧ signed = false ∧ x = none)

theorem Instr.parts_namesCommand {i : Instr} {op : Op} {w : Width} {signed : Bool} {x : Option Endian}
    (h : i.parts = (op, w, signed, x)) : NamesCommand op w signed x := by
  cases i <;> cases h <;> simp [NamesCommand]

theorem Instr.make_parts (i : Instr) : Instr.make i.op i.width i.signed i.explicit = some i := by
  cases i <;> rfl

theorem Instr.make_eq_some {i : Instr} {op : Op} {w : Width} {signed : Bool} {x : Option Endian}
    (hq : op = .qend → w = .w16 ∧ signed = false ∧ x = none) :
    Instr.make op w signed x = some i ↔ i.parts = (op, w, signed, x) := by
  constructor
  · intro h
    cases op with
    | qend =>
      obtain ⟨rfl, rfl, rfl⟩ := hq rfl
      cases h
      rfl
    | enc | enca | dec | expt =>
      cases w <;> cases signed <;> cases h <;> rfl
  · intro h
    have hmake := i.make_parts
    simpa only [Instr.op, Instr.width, Instr.signed, Instr.explicit, h] using hmake

theorem Instr.exists_parts {op : Op} {w : Width} {signed : Bool} {x : Option Endian} :
    (∃ i : Instr, i.parts = (op, w, signed, x)) ↔ NamesCommand op w signed x := by
  refine ⟨fun ⟨i, h⟩ => parts_namesCommand h, fun ⟨hexpt, hqend⟩ => ?_⟩
  simp only [← Instr.make_eq_some hqend, ← Option.isSome_iff_exists]
  cases op with
  | qend => rfl
  | expt => obtain rfl | rfl := hexpt rfl <;> cases signed <;> rfl
  | enc | enca | dec => cases w <;> cases signed <;> rfl

/-! ### The decoder, the encoder and the table of legal words, read in the same terms -/

/-- The fields hold the codes of this operation and this width, and pass the checks of R51 and R54. With the fields S
and `explicit` they spell the tuple `(op, W, S, explicit?)` of 30_encoding.md R58. -/
def Fields.Spells (f : Fields) (op : Op) (w : Width) : Prop :=
  f.rsv = 0 ∧ f.endianSelectOk = true ∧ op.code = f.op ∧ w.code = f.wid

theorem Instr.fields_eq_iff {i : Instr} {f : Fields} :
    i.fields = f ↔ ∃ op w, f.Spells op w ∧ i.parts = (op, w, f.s, f.explicit) := by
  constructor
  · rintro rfl
    have hsel := (Fields.explicit_eq (f := i.fields) (x := i.explicit)).2 ⟨rfl, rfl⟩
    exact ⟨i.op, i.width, ⟨rfl, hsel.1, rfl, rfl⟩, by rw [hsel.2]; rfl⟩
  · rintro ⟨op, w, ⟨hrsv, hsel, hop, hwid⟩, hparts⟩
    obtain ⟨hesel, hele⟩ := Fields.explicit_eq.1 ⟨hsel, rfl⟩
    simp only [Instr.fields, Instr.op, Instr.width, Instr.signed, Instr.explicit, hparts, hop, hwid, ← hesel,
      ← hele, ← hrsv]

/-- The columns of QEND are all clear (30_encoding.md R55). -/
theorem Fields.queryFields_iff {f : Fields} :
    ¬ (f.wid ≠ 0 ∨ f.s = true ∨ f.esel = true) ↔ Width.w16.code = f.wid ∧ f.s = false ∧ f.explicit = none := by
  simp [explicit_eq_none, Width.code, eq_comm (b := f.wid)]

theorem Fields.columnsOk_iff {f : Fields} {op : Op} (hop : op.code = f.op) (hsel : f.endianSelectOk = true) :
    f.columnsOk = true ↔ ∃ w : Width, w.code = f.wid ∧ NamesCommand op w f.s f.explicit := by
  cases op with
  | enc | enca | dec =>
    simp [columnsOk, NamesCommand, ← hop, Op.code, Width.exists_code]
  | expt =>
    simp [columnsOk, NamesCommand, ← hop, Op.code, and_or_left, exists_or, Width.code, eq_comm (b := f.wid)]
  | qend =>
    have hele : f.esel = false → f.ele = false := by simpa using Fields.endianSelectOk_iff.1 hsel
    have hcols : f.columnsOk = true ↔ f.wid = 0 ∧ f.s = false ∧ f.esel = false := by
      simpa [columnsOk, ← hop, Op.code, and_assoc] using fun _ _ => hele
    simp [hcols, NamesCommand, Width.code, explicit_eq_none, eq_comm (b := f.wid)]

theorem Fields.legal_iff {f : Fields} :
    f.legal = true ↔ ∃ op w, f.Spells op w ∧ NamesCommand op w f.s f.explicit := by
  simp only [legal, Bool.and_eq_true, reservedBitsClear, beq_iff_eq, opOk_iff]
  constructor
  · rintro ⟨⟨⟨hrsv, hsel⟩, op, hop⟩, hcols⟩
    obtain ⟨w, hwid, hnames⟩ := (columnsOk_iff hop hsel).1 hcols
    exact ⟨op, w, ⟨hrsv, hsel, hop, hwid⟩, hnames⟩
  · rintro ⟨op, w, ⟨hrsv, hsel, hop, hwid⟩, hnames⟩
    exact ⟨⟨⟨hrsv, hsel⟩, op, hop⟩, (columnsOk_iff hop hsel).2 ⟨w, hwid, hnames⟩⟩

theorem decodeFields_of_spells {f : Fields} {op : Op} {w : Width} {i : Instr} (h : f.Spells op w)
    (hi : i.parts = (op, w, f.s, f.explicit)) : decodeFields f = .ok i := by
  obtain ⟨hrsv, hsel, hop, hwid⟩ := h
  have hq := (Instr.parts_namesCommand hi).2
  have hmake := (Instr.make_eq_some hq).2 hi
  rw [← Op.ofCode_eq_some] at hop
  rw [decodeFields, if_neg (not_not.2 hrsv), if_neg (Fields.endianSelectOk_iff.1 hsel), hop]
  cases op with
  | qend =>
    obtain ⟨rfl, hs, hx⟩ := hq rfl
    cases hmake
    exact if_neg (Fields.queryFields_iff.2 ⟨hwid, hs, hx⟩)
  | enc | enca | dec | expt => simp only [Width.ofCode_eq_some.2 hwid, hmake]

theorem spells_of_decodeFields {f : Fields} {i : Instr} (h : decodeFields f = .ok i) :
    ∃ op w, f.Spells op w ∧ i.parts = (op, w, f.s, f.explicit) := by
  unfold decodeFields at h
  split at h
  case isTrue => cases h
  rename_i hrsv
  split at h
  case isTrue => cases h
  rename_i hsel
  split at h
  case h_1 => cases h
  case h_2 hop =>
    split at h
    case isTrue => cases h
    rename_i hq
    cases h
    obtain ⟨hwid, hs, hx⟩ := Fields.queryFields_iff.1 hq
    exact ⟨.qend, .w16, ⟨not_not.1 hrsv, Fields.endianSelectOk_iff.2 hsel, Op.ofCode_eq_some.1 hop, hwid⟩,
      by rw [hs, hx]; rfl⟩
  case h_3 op hne hop =>
    split at h
    case h_1 => cases h
    rename_i w hwid
    split at h
    case h_1 => cases h
    rename_i hmake
    cases h
    exact ⟨op, w, ⟨not_not.1 hrsv, Fields.endianSelectOk_iff.2 hsel, Op.ofCode_eq_some.1 hop,
      Width.ofCode_eq_some.1 hwid⟩, (Instr.make_eq_some fun hq => absurd hq hne).1 hmake⟩

/-- The decoder's answer and the encoder's fields are the same relation between fields and commands. -/
theorem decodeFields_eq_ok {f : Fields} {i : Instr} : decodeFields f = .ok i ↔ i.fields = f := by
  rw [Instr.fields_eq_iff]
  exact ⟨spells_of_decodeFields, fun ⟨_, _, h, hi⟩ => decodeFields_of_spells h hi⟩

theorem decode_eq_ok {w : CmdWord} {i : Instr} : decode w = .ok i ↔ encode i = w := by
  rw [decode, decodeFields_eq_ok, encode, Fields.toWord_eq_iff]

theorem Fields.legal_iff_exists_instr {f : Fields} : f.legal = true ↔ ∃ i : Instr, i.fields = f := by
  simp only [legal_iff, Instr.fields_eq_iff, ← Instr.exists_parts]
  exact ⟨fun ⟨op, w, h, i, hi⟩ => ⟨i, op, w, h, hi⟩, fun ⟨i, op, w, h, hi⟩ => ⟨op, w, h, i, hi⟩⟩

/-! ### The obligations -/

/-- Settles O1: both directions are the one equivalence `decode_eq_ok`. -/
theorem decodeAndEncodeAreInverse : Obligations.DecodeAndEncodeAreInverse :=
  ⟨fun _ => decode_eq_ok.2 rfl, fun _ _ => decode_eq_ok.1⟩

/-- Settles O2: a word decodes to a command, and is legal, exactly when some command has its fields. -/
theorem legalWordsAreTheTableOfLegalWords : Obligations.LegalWordsAreTheTableOfLegalWords := by
  intro w
  simp only [decode, decodeFields_eq_ok, Fields.legal_iff_exists_instr]

/-- Settles O3: the encoder evaluated on the 35 commands, in the three forms of R51. -/
theorem opcodeMapWords : Obligations.OpcodeMapWords := by
  unfold Obligations.OpcodeMapWords
  decide

/-- Settles O4: the decoder evaluated on the thirteen words. -/
theorem writtenWordsDecode : Obligations.WrittenWordsDecode := by
  unfold Obligations.WrittenWordsDecode
  decide

end Sys2Proof
end

section
/-! PROOFS. S reaches no meaning, and what an assembler line assembles to (30_encoding.md R52, R61, R62): O48, O60. -/

namespace Sys2Proof

theorem Width.bits_le (w : Width) : w.bits ≤ 256 := by
  have := w.bits_eq
  have := w.bytes_le
  omega

namespace Machine

open Sys2Proof.Claims

/-! ### Signedness -/

/-- A meaning depends on the operation, the width and the explicit endianness alone. -/
theorem exec_congr {i j : Instr} (hop : i.op = j.op) (hw : i.width = j.width) (hx : i.explicit = j.explicit) :
    exec i = exec j := by
  funext s
  rw [exec_eq, exec_eq, hop, hw, hx]

theorem signednessPairs_agree (x : Option Endian) :
    ∀ p ∈ signednessPairs x, p.1.op = p.2.op ∧ p.1.width = p.2.width ∧ p.1.explicit = p.2.explicit := by
  simp [signednessPairs, Instr.op, Instr.width, Instr.explicit, Instr.parts]

/-- Settles O48: the two commands of a pair differ in S, and S is not among what a meaning depends on. -/
theorem signednessChangesNoBit : Obligations.SignednessChangesNoBit := by
  intro x s p hp
  obtain ⟨hop, hw, hx⟩ := signednessPairs_agree x p hp
  rw [exec_congr hop hw hx]

/-! ### The VALUE of an operand -/

theorem toValue_literal_toNat (w : Width) (z : Int) :
    (((AsmValue.literal z).toValue w).toNat : Int) = z % 2 ^ w.bits := by
  have hnonneg : 0 ≤ z % 2 ^ w.bits := Int.emod_nonneg z (by positivity)
  rw [AsmValue.toValue, BitVec.toNat_setWidth_of_le w.bits_le, BitVec.toNat_ofInt]
  push_cast
  exact Int.toNat_of_nonneg hnonneg

/-- The number with these digits of 64 bits, most significant first (10_state.md R13). -/
def limbsToNat (ls : List Limb) : Nat :=
  ls.foldl (fun n l => n * 2 ^ 64 + l.toNat) 0

theorem joinLimbs_toNat {ls : List Limb} (hls : ls.length ≤ 4) : (joinLimbs ls).toNat = limbsToNat ls := by
  induction ls using List.reverseRecOn with
  | nil => rfl
  | append_singleton ls l ih =>
    have hlen : ls.length + 1 ≤ 4 := by simpa using hls
    have hfits : (joinLimbs ls).toNat <<< 64 < 2 ^ 256 := by
      calc (joinLimbs ls).toNat <<< 64 < 2 ^ (64 * ls.length + 64) :=
            Nat.shiftLeft_lt (joinLimbs_toNat_lt ls)
        _ ≤ 2 ^ 256 := Nat.pow_le_pow_right (by decide) (by omega)
    calc (joinLimbs (ls ++ [l])).toNat = (joinLimbs ls).toNat <<< 64 ||| l.toNat := by
          rw [joinLimbs_concat, BitVec.toNat_or, BitVec.toNat_shiftLeft, Nat.mod_eq_of_lt hfits,
            BitVec.toNat_setWidth_of_le (by decide)]
      _ = limbsToNat ls * 2 ^ 64 + l.toNat := by
          rw [← Nat.shiftLeft_add_eq_or_of_lt l.isLt, Nat.shiftLeft_eq, ih (by omega)]
      _ = limbsToNat (ls ++ [l]) := by simp [limbsToNat]

theorem toValue_pair_toNat (w : Width) (high low : Limb) :
    ((AsmValue.pair high low).toValue w).toNat = high.toNat * 2 ^ 64 + low.toNat := by
  rw [AsmValue.toValue, joinLimbs_toNat (by simp)]
  simp [limbsToNat]

theorem toValue_quad_toNat (w : Width) (a b c d : Limb) :
    ((AsmValue.quad a b c d).toValue w).toNat =
      a.toNat * 2 ^ 192 + b.toNat * 2 ^ 128 + c.toNat * 2 ^ 64 + d.toNat := by
  rw [AsmValue.toValue, joinLimbs_toNat (by simp)]
  simp only [limbsToNat, List.foldl_cons, List.foldl_nil]
  omega

/-- Settles O60: the request is written out by `assemble`; what is left is the number of each form of operand. -/
theorem literalIsReadModuloTheWidth : Obligations.LiteralIsReadModuloTheWidth := by
  intro l
  refine ⟨fun hoff => ⟨_, if_pos hoff, rfl, rfl, BitVec.toNat_ofNat .. |>.trans (Nat.mod_eq_of_lt hoff), ?_⟩,
    fun hoff => if_neg (Nat.not_lt.2 hoff)⟩
  cases l.value with
  | none => rfl
  | some v =>
    cases v with
    | literal z => exact toValue_literal_toNat l.instr.width z
    | pair high low => exact toValue_pair_toNat l.instr.width high low
    | quad a b c d => exact toValue_quad_toNat l.instr.width a b c d

end Machine

end Sys2Proof
end

section
/-! PROOFS. The width codec: the image that ENC writes and ENCA returns, the pattern that DEC reads, and that the two
are inverse (40_width_codec.md R65 to R72; 42_extended_composer.md R101, R116): O22, O32, O34, O36, O43, O44, O45. -/

namespace Sys2Proof.Machine

open Sys2Proof.Claims

/-! ### The commands of the lists -/

theorem of_mem_encaNarrow_append_encaWide {x : Option Endian} {p : Instr × Nat} (h : p ∈ encaNarrow x ++ encaWide x) :
    p.1.op = .enca ∧ p.1.width.bytes = p.2 ∧ p.1.explicit = x := by
  have hall : ∀ q ∈ encaNarrow x ++ encaWide x, q.1.op = .enca ∧ q.1.width.bytes = q.2 ∧ q.1.explicit = x := by
    simp [encaNarrow, encaWide, Instr.op, Instr.width, Instr.explicit, Instr.parts, Width.bytes]
  exact hall p h

/-- Two commands at the same place of two lists with the same byte counts have the same byte count. -/
theorem byteCount_eq_of_mem_zip {l₁ l₂ : List (Instr × Nat)} (hl : l₁.map Prod.snd = l₂.map Prod.snd)
    {p : (Instr × Nat) × (Instr × Nat)} (hp : p ∈ l₁.zip l₂) : p.1.2 = p.2.2 := by
  obtain ⟨i, hi, rfl⟩ := List.mem_iff_getElem.mp hp
  rw [List.length_zip, lt_min_iff] at hi
  have hget := congrArg (fun l => l[i]?) hl
  simpa [hi.1, hi.2] using hget

/-- The commands of a list, each with the DEC of the same place of R59 and the byte count the two share. -/
def pairedWithDec (l : List (Instr × Nat)) (y : Option Endian) : List (Instr × Instr × Nat) :=
  (l.zip (decAll y)).map fun q => (q.1.1, q.2)

theorem of_mem_pairedWithDec {l : List (Instr × Nat)} {y : Option Endian}
    (hl : l.map Prod.snd = (decAll y).map Prod.snd) {p : Instr × Instr × Nat} (hp : p ∈ pairedWithDec l y) :
    (p.1, p.2.2) ∈ l ∧ p.2 ∈ decAll y := by
  obtain ⟨⟨a, d⟩, hq, rfl⟩ := List.mem_map.mp hp
  have hn : a.2 = d.2 := byteCount_eq_of_mem_zip hl hq
  obtain ⟨ha, hd⟩ := List.of_mem_zip hq
  exact ⟨hn ▸ ha, hd⟩

/-! ### The image -/

/-- Pieces that all spell the same bytes `f` leave `f` wherever one of them lies, in whatever order they are placed. -/
theorem foldl_placeAt_getD {out : List Byte} {ps : List (Nat × List Byte)} {f : Nat → Byte}
    (hspell : ∀ p ∈ ps, ∀ i < p.2.length, p.2.getD i 0 = f (p.1 + i))
    (hin : ∀ p ∈ ps, p.1 + p.2.length ≤ out.length) (j : Nat) :
    (ps.foldl (fun out p => placeAt out p.1 p.2) out).getD j 0 =
      if ∃ p ∈ ps, p.1 ≤ j ∧ j < p.1 + p.2.length then f j else out.getD j 0 := by
  induction ps generalizing out with
  | nil => simp
  | cons p ps ih =>
    obtain ⟨hp, hps⟩ := List.forall_mem_cons.mp hspell
    obtain ⟨hpin, hpsin⟩ := List.forall_mem_cons.mp hin
    rw [List.foldl_cons, ih hps (by rwa [placeAt_length _ _ _ hpin]), placeAt_getD _ _ _ hpin]
    simp only [List.mem_cons, exists_eq_or_imp]
    by_cases hrest : ∃ q ∈ ps, q.1 ≤ j ∧ j < q.1 + q.2.length
    · rw [if_pos hrest, if_pos (.inr hrest)]
    · rw [if_neg hrest]
      refine if_ctx_congr (by simp [hrest]) (fun hj => ?_) fun _ => rfl
      obtain ⟨hlo, hhi⟩ : p.1 ≤ j ∧ j < p.1 + p.2.length := hj.resolve_right hrest
      rw [hp _ (by omega), Nat.add_sub_cancel' hlo]

theorem image_getD {w : Width} (v : Value) (e : Endian) {i : Nat} (hi : i < w.bytes) :
    (image w v e).getD i 0 = flatByte w.bytes v e i := by
  rw [image, foldl_placeAt_getD (fun p hp i => pieces_getD hp) (fun p hp => by simpa using pieces_inside hp),
    if_pos (pieces_cover v e hi)]

@[simp] theorem flatImage_length (n : Nat) (v : Value) (e : Endian) : (flatImage n v e).length = n := by
  simp [flatImage]

theorem flatImage_getElem {n i : Nat} {v : Value} {e : Endian} (hi : i < (flatImage n v e).length) :
    (flatImage n v e)[i] = flatByte n v e i := by
  simp [flatImage]

/-- What an ENCA returns is the flat image, for the width codec and the composer alike (42_extended_composer.md
R101). -/
theorem image_eq_flatImage (w : Width) (v : Value) (e : Endian) : image w v e = flatImage w.bytes v e := by
  refine List.ext_getElem (by simp) fun i hi hi' => ?_
  rw [flatImage_getElem, ← image_getD v e (by simpa using hi), List.getD_eq_getElem _ _ hi]

theorem flatImage_le_eq_reverse (n : Nat) (v : Value) : flatImage n v .le = (flatImage n v .be).reverse := by
  refine List.ext_getElem (by simp) fun i hi _ => ?_
  rw [flatImage_length] at hi
  rw [List.getElem_reverse, flatImage_getElem, flatImage_getElem, flatByte_le, flatByte_be, flatImage_length]
  congr 1
  omega

/-! ### What a DEC reads -/

theorem byteAt_decode_full {w : Width} {b : Buffer} {off : Nat} (h : off + w.bytes ≤ b.len) (e : Endian) (j : Nat) :
    byteAt (readImage w (decodeInput w e b off) e) j =
      if j < w.bytes then b.read (sourceIndex e off w.bytes j) else 0 := by
  rw [byteAt_decode, Nat.min_eq_left (by omega)]

/-- The image has byte j of the value where a read in the same byte order takes byte j from. -/
theorem flatByte_sourceIndex {n j : Nat} (hj : j < n) (v : Value) (e : Endian) :
    flatByte n v e (sourceIndex e 0 n j) = byteAt v j := by
  cases e with
  | le => rw [sourceIndex_le, flatByte_le, Nat.zero_add]
  | be =>
    rw [sourceIndex_be, flatByte_be]
    congr 1
    omega

theorem sourceIndex_eq_add (e : Endian) (start m j : Nat) :
    sourceIndex e start m j = start + sourceIndex e 0 m j := by
  cases e <;> simp

/-- Decoding a span that holds the image of a value, in the byte order of the image (40_width_codec.md R71). -/
theorem decode_flatBytes {w : Width} {b : Buffer} {off : Nat} {v : Value} {e : Endian} (hle : off + w.bytes ≤ b.len)
    (hspan : ∀ i < w.bytes, b.read (off + i) = flatByte w.bytes v e i) :
    readImage w (decodeInput w e b off) e = lowPart w.bytes v := by
  refine value_eq_of_bytes fun j _ => ?_
  rw [byteAt_decode_full hle, byteAt_lowPart]
  refine if_ctx_congr Iff.rfl (fun hj => ?_) fun _ => rfl
  have hsrc : sourceIndex e 0 w.bytes j < w.bytes := by
    simpa using (sourceIndex_bounds (start := 0) hj e).2
  rw [sourceIndex_eq_add, hspan _ hsrc, flatByte_sourceIndex hj]

/-! ### The commands in range -/

section
variable {s : State} {r : Request} {k : Nat} {b : Buffer} {x : Option Endian} {p : Instr × Nat}

theorem exec_enca_returns (hp : p ∈ encaNarrow x ++ encaWide x) (hr : s.request = some r) :
    exec p.1 s = .next { s with
      response := some (okOut (flatImage p.2 r.value (orderUsed s x)))
      seq := s.seq + 1 } := by
  obtain ⟨hop, hn, hx⟩ := of_mem_encaNarrow_append_encaWide hp
  rw [exec_eq, hop, ← hn, orderUsed_eq_resolve, ← hx, ← image_eq_flatImage]
  exact encodeFresh_answers hr

theorem exec_encAll_writes (hp : p ∈ encAll x) (hr : s.request = some r) (hk : r.buf = some k)
    (hb : s.mem[k]? = some b) (hle : r.offset.toNat + p.2 ≤ b.len) :
    ∃ b', exec p.1 s = .next { s with
        mem := s.mem.set k b'
        response := some okAlone
        seq := s.seq + 1 } ∧
      b'.len = b.len ∧
      ∀ j, b'.read j =
        if r.offset.toNat ≤ j ∧ j < r.offset.toNat + p.2 then
          flatByte p.2 r.value (orderUsed s x) (j - r.offset.toNat)
        else b.read j := by
  obtain ⟨hn, hx⟩ := of_mem_encAll hp
  rw [← hn] at hle ⊢
  rw [orderUsed_eq_resolve, ← hx]
  exact ⟨_, exec_enc_writes (op_of_mem_encAll hp) hr hk hb hle, Buffer.writePieces_len .., Buffer.read_encode hle _ _⟩

theorem exec_decAll_reads (hp : p ∈ decAll x) (hr : s.request = some r) (hk : r.buf = some k)
    (hb : s.mem[k]? = some b) (hle : r.offset.toNat + p.2 ≤ b.len) :
    exec p.1 s = .next { s with
      response := some (okResult
        (readImage p.1.width (decodeInput p.1.width (orderUsed s x) b r.offset.toNat) (orderUsed s x)))
      seq := s.seq + 1 } := by
  obtain ⟨hn, hx⟩ := of_mem_decAll hp
  have hpos := p.1.width.bytes_pos
  rw [orderUsed_eq_resolve, ← hx]
  exact exec_dec_reads (op_of_mem_decAll hp) hr hk hb (by omega)

/-- DEC of a span that holds the image of a value. -/
theorem exec_decAll_flatBytes {v : Value} (hp : p ∈ decAll x) (hr : s.request = some r) (hk : r.buf = some k)
    (hb : s.mem[k]? = some b) (hle : r.offset.toNat + p.2 ≤ b.len)
    (hspan : ∀ i < p.2, b.read (r.offset.toNat + i) = flatByte p.2 v (orderUsed s x) i) :
    exec p.1 s = .next { s with response := some (okResult (lowPart p.2 v)), seq := s.seq + 1 } := by
  rw [exec_decAll_reads hp hr hk hb hle]
  obtain ⟨hn, -⟩ := of_mem_decAll hp
  rw [← hn] at hle hspan ⊢
  rw [decode_flatBytes hle hspan]

end

/-! ### The obligations -/

/-- Settles O32: the fresh image of one piece is the flat image. -/
theorem narrowEncaReturnsTheImage : Obligations.NarrowEncaReturnsTheImage :=
  fun _ _ _ hr _ hp => exec_enca_returns (List.mem_append_left _ hp) hr

/-- Settles O22: the pieces of an encode in range cover its span and spell the image. -/
theorem narrowEncWritesItsSpan : Obligations.NarrowEncWritesItsSpan :=
  fun _ _ _ _ _ hr hk hb _ hp hle => exec_encAll_writes (List.mem_append_left _ hp) hr hk hb hle

/-- Settles O36: case 2 of R69 comes before the check of OFFSET. -/
theorem emptyDecReturnsZero : Obligations.EmptyDecReturnsZero := by
  intro s r k b x hr hk hb hlen p hp
  rw [exec_eq, op_of_mem_decAll hp]
  exact decodeBuffer_empty hr (Memory.caller_eq_some.mpr ⟨hk, hb⟩) hlen

/-- Settles O34: with the whole span in the buffer nothing is reconciled, and byte j of RESULT is the byte at its
source. -/
theorem fullDecReturnsThePattern : Obligations.FullDecReturnsThePattern := by
  intro s r k b x hr hk hb p hp hle
  refine ⟨_, exec_decAll_reads hp hr hk hb hle, ?_⟩
  obtain ⟨hn, -⟩ := of_mem_decAll hp
  rw [← hn] at hle ⊢
  refine ⟨?_, fun j hj => ?_⟩
  · rw [← Width.bits_eq]
    exact readImage_toNat_lt (decodeInput_length ..) _
  · refine (byteAt_decode_full hle _ j).trans ?_
    rw [if_pos hj]
    cases orderUsed s x <;> rfl

/-- Settles O43: the two ENCAs return the flat images of one value in the two byte orders. -/
theorem littleImageIsTheReverseOfBig : Obligations.LittleImageIsTheReverseOfBig := by
  intro s r hr p hp
  obtain ⟨hle, hbe⟩ := List.of_mem_zip hp
  have hn : p.1.2 = p.2.2 := byteCount_eq_of_mem_zip (by rfl) hp
  refine ⟨_, _, flatImage p.2.2 r.value .be, exec_enca_returns hle hr, exec_enca_returns hbe hr, rfl, ?_⟩
  rw [← flatImage_le_eq_reverse, ← hn]
  rfl

/-- Settles O44: the DEC finds the image the ENC wrote in its span. -/
theorem decAfterEncReturnsTheValue : Obligations.DecAfterEncReturnsTheValue := by
  intro s r k b x y hr hk hb p hp hle
  obtain ⟨henc, hdec⟩ := of_mem_pairedWithDec (l := encAll x) (y := y) rfl hp
  obtain ⟨b', hexec, hlen, hread⟩ := exec_encAll_writes henc hr hk hb hle
  refine ⟨_, hexec, fun u r' hmem hr' hoff hk' hord => ?_⟩
  have hb' : u.mem[k]? = some b' := by
    rw [hmem]
    exact Memory.getElem?_set_of_some hb b'
  refine exec_decAll_flatBytes hdec hr' hk' hb' (by rwa [hoff, hlen]) fun i hi => ?_
  rw [hoff, hread, if_pos ⟨Nat.le_add_right .., Nat.add_lt_add_left hi _⟩, hord, Nat.add_sub_cancel_left]

/-- Settles O45: a buffer that holds exactly the OUT holds the image in its span at OFFSET 0. -/
theorem decOfEncaOutReturnsTheValue : Obligations.DecOfEncaOutReturnsTheValue := by
  intro s r x y hr p hp
  obtain ⟨henca, hdec⟩ := of_mem_pairedWithDec (l := encaNarrow x ++ encaWide x) (y := y) rfl hp
  refine ⟨_, _, exec_enca_returns henca hr, rfl, fun u r' k b hr' hk' hb hbytes hoff hord => ?_⟩
  have hlen : b.len = p.2.2 := by simpa [Buffer.toBytes] using congrArg List.length hbytes
  refine exec_decAll_flatBytes hdec hr' hk' hb (by omega) fun i hi => ?_
  have hread : b.toBytes.getD i 0 = b.read (0 + i) := Buffer.readBytes_getD b 0 (by omega)
  rw [hoff, ← hread, hbytes, hord, List.getD_eq_getElem _ _ (by simpa using hi), flatImage_getElem]

end Sys2Proof.Machine
end

section
/-! PROOFS. Length reconciliation: a decode with fewer than n bytes at OFFSET reads the pattern of the bytes that are
there, zero-extended (41_length_reconciliation.md R91 to R96): O35, O38, O39. -/

namespace Sys2Proof.Machine

open Sys2Proof.Claims

/-! ### The value of a reconciled list -/

theorem fromLittle_zeros (m : Nat) : fromLittle (zeros m) = 0 := by
  induction m with
  | zero => rfl
  | succ m ih =>
    have hcons : zeros (m + 1) = 0 :: zeros m := rfl
    simp [hcons, fromLittle, ih]

/-- Zeros above the most significant byte add nothing to the value. -/
theorem fromLittle_append_zeros (xs : List Byte) (m : Nat) : fromLittle (xs ++ zeros m) = fromLittle xs := by
  induction xs with
  | nil => exact fromLittle_zeros m
  | cons x xs ih => rw [List.cons_append, fromLittle, fromLittle, ih]

/-- Both byte orders add the zeros at the most significant end (41_length_reconciliation.md R91, R96). -/
theorem unpackBytes_reconcile {av : List Byte} {m : Nat} (h : av.length ≤ m) (e : Endian) :
    unpackBytes (reconcile av m e) e = unpackBytes av e := by
  cases e with
  | le =>
    rw [reconcile_le]
    exact fromLittle_append_zeros av _
  | be =>
    have hrev : (zeros (m - av.length) ++ av).reverse = av.reverse ++ zeros (m - av.length) := by simp [zeros]
    rw [reconcile_be h, unpackBytes, unpackBytes, hrev, fromLittle_append_zeros]

/-! ### What a short decode reads -/

theorem byteAt_decode_short {w : Width} {b : Buffer} {off : Nat} (h : b.len < off + w.bytes) (e : Endian) (j : Nat) :
    byteAt (readImage w (decodeInput w e b off) e) j =
      if j < b.len - off then b.read (sourceIndex e off (b.len - off) j) else 0 := by
  rw [byteAt_decode, Nat.min_eq_right (by omega)]

/-- The most significant byte of a short decode is one of the zeros that reconciliation adds. -/
theorem byteAt_decode_short_top {w : Width} {b : Buffer} {off : Nat} (h : b.len < off + w.bytes) (e : Endian) :
    byteAt (readImage w (decodeInput w e b off) e) (w.bytes - 1) = 0 := by
  rw [byteAt_decode_short h, if_neg (by omega)]

theorem exec_decAll_present {s : State} {r : Request} {k : Nat} {b : Buffer} {x : Option Endian} {p : Instr × Nat}
    (hp : p ∈ decAll x) (hr : s.request = some r) (hk : r.buf = some k) (hb : s.mem[k]? = some b)
    (hlt : r.offset.toNat < b.len) :
    exec p.1 s = .next { s with
      response := some (okResult
        (readImage p.1.width (decodeInput p.1.width (orderUsed s x) b r.offset.toNat) (orderUsed s x)))
      seq := s.seq + 1 } := by
  obtain ⟨-, hx⟩ := of_mem_decAll hp
  rw [orderUsed_eq_resolve, ← hx]
  exact exec_dec_reads (op_of_mem_decAll hp) hr hk hb hlt

/-! ### The sign of a pattern -/

theorem getLsbD_sign_eq_false {w : Width} {v : Value} (h : byteAt v (w.bytes - 1) = 0) :
    v.getLsbD (w.bits - 1) = false := by
  have hpos := w.bytes_pos
  have hbit := byteAt_getLsbD v (w.bytes - 1) 7
  rw [h, show 8 * (w.bytes - 1) + 7 = w.bits - 1 by rw [w.bits_eq]; omega] at hbit
  simpa using hbit.symm

/-- Only a signed command reads a negative integer, and only from a pattern with its sign bit set (00_scope.md R4). -/
theorem resultReading_nonneg {i : Instr} {v : Value} (h : v.getLsbD (i.width.bits - 1) = false) :
    0 ≤ resultReading i v := by
  unfold resultReading
  split
  case isTrue =>
    rw [signedReading_eq_toInt]
    exact BitVec.toInt_nonneg_of_msb_false ((msb_setWidth_bits ..).trans h)
  case isFalse => exact Int.natCast_nonneg _

/-! ### The obligations -/

/-- Settles O39: the zeros stand at the most significant end of the list. -/
theorem reconcileKeepsTheValue : Obligations.ReconcileKeepsTheValue :=
  fun _ _ e _ hlt _ => unpackBytes_reconcile (Nat.le_of_lt hlt) e

/-- Settles O35: byte j of RESULT is the byte at its source among the bytes that are there, and 00 above them. -/
theorem shortDecZeroExtends : Obligations.ShortDecZeroExtends := by
  intro s r k b x hr hk hb p hp hlt hshort
  refine ⟨_, exec_decAll_present hp hr hk hb hlt, ?_⟩
  obtain ⟨hn, -⟩ := of_mem_decAll hp
  rw [← hn] at hshort ⊢
  refine ⟨?_, fun j _ => (byteAt_decode_short hshort _ j).trans (if_ctx_congr Iff.rfl (fun hj => ?_) fun _ => rfl)⟩
  · rw [← Width.bits_eq]
    exact readImage_toNat_lt (decodeInput_length ..) _
  · cases orderUsed s x with
    | le => rfl
    | be =>
      rw [sourceIndex_be]
      congr 1
      omega

/-- Settles O38: the sign bit lies in the most significant byte, which a short decode fills with zero. -/
theorem shortDecIsNeverNegative : Obligations.ShortDecIsNeverNegative := by
  intro s t r k b x v hr hk hb p hp hlt hshort hexec hresponse
  rw [exec_decAll_present hp hr hk hb hlt] at hexec
  cases hexec
  cases hresponse
  obtain ⟨hn, -⟩ := of_mem_decAll hp
  rw [← hn] at hshort
  exact resultReading_nonneg (getLsbD_sign_eq_false (byteAt_decode_short_top hshort _))

end Sys2Proof.Machine
end

section
/-! PROOFS. The extended-width composer and the trim of its images: the flat image and the places of its limbs, and
that the trim drops zeros of the most significant end alone (42_extended_composer.md R98 to R103, R117 to R120): O23,
O24, O25, O33, O40, O41, O42, O46. -/

namespace Sys2Proof.Machine

open Sys2Proof.Claims

/-! ### The composer is the flat codec -/

theorem flatImage_eq_packBytes (n : Nat) (v : Value) (e : Endian) : flatImage n v e = packBytes n v e := by
  cases e <;> rfl

theorem readImage_eq_unpackBytes {w : Width} {xs : List Byte} (hx : xs.length = w.bytes) (e : Endian) :
    readImage w xs e = unpackBytes xs e := by
  have h32 := w.bytes_le
  refine value_eq_of_bytes fun j _ => ?_
  rw [byteAt_readImage hx, byteAt_unpackBytes_source (by omega), hx]

/-- Reading an image in its own byte order returns the value (42_extended_composer.md R116). -/
theorem readImage_image (w : Width) (v : Value) (e : Endian) : readImage w (image w v e) e = lowPart w.bytes v := by
  refine value_eq_of_bytes fun j _ => ?_
  rw [byteAt_readImage (image_length w v e), byteAt_lowPart]
  refine if_ctx_congr Iff.rfl (fun hj => ?_) fun _ => rfl
  have hsrc : sourceIndex e 0 w.bytes j < w.bytes := by
    simpa using (sourceIndex_bounds (start := 0) hj e).2
  rw [image_getD v e hsrc, flatByte_sourceIndex hj]

/-! ### The places of the limbs -/

/-- After an encode in range the 64-bit image of every limb stands in its slot (42_extended_composer.md R100). -/
theorem Buffer.readBytes_slot {b : Buffer} {base : Nat} {w : Width} (h : base + w.bytes ≤ b.len) (v : Value)
    (e : Endian) {j : Nat} (hj : j < w.limbs) :
    (b.writePieces base (pieces w v e)).readBytes (base + slot j w.limbs e) 8 = packLimb (limb w.limbs j v) e := by
  have hin := (slot_add_le hj e).trans w.limbs_bytes_le
  refine List.ext_getElem (by simp) fun i hi hi' => ?_
  have hi8 : i < 8 := by simpa using hi'
  rw [Buffer.readBytes_getElem, Buffer.read_encode h, if_pos (by omega), ← List.getD_eq_getElem _ 0 hi',
    packLimb_getD hj hi8, ← Width.bytes_eq_limbs (by omega)]
  congr 1
  omega

theorem exec_enc_limbs {i : Instr} {w : Width} {x : Option Endian} (hi : i.op = .enc ∧ i.width = w ∧ i.explicit = x)
    {s : State} {r : Request} {k : Nat} {b : Buffer} (hr : s.request = some r) (hk : r.buf = some k)
    (hb : s.mem[k]? = some b) (hle : r.offset.toNat + w.bytes ≤ b.len) :
    ∃ t b', exec i s = .next t ∧ t.mem[k]? = some b' ∧
      ∀ j < w.limbs, b'.readBytes (r.offset.toNat + slot j w.limbs (orderUsed s x)) 8 =
        packLimb (limb w.limbs j r.value) (orderUsed s x) := by
  obtain ⟨hop, rfl, rfl⟩ := hi
  rw [orderUsed_eq_resolve]
  exact ⟨_, _, exec_enc_writes hop hr hk hb hle, Memory.getElem?_set_of_some hb _,
    fun j hj => Buffer.readBytes_slot hle _ _ hj⟩

/-! ### The trim -/

/-- The leading zeros under BE, but never the last byte (TRIM_ZERO_KEEP, 42_extended_composer.md R119). -/
theorem trim_be (xs : List Byte) :
    trim xs .be = xs.drop (min (xs.takeWhile (fun b => b == 0)).length (xs.length - 1)) := by
  have hz : (xs.takeWhile (fun b => b == 0)).length ≤ xs.length := (List.takeWhile_sublist _).length_le
  simp only [trim, trimWith, Config.trimZeroKeep]
  congr 1
  split <;> omega

theorem trim_le (xs : List Byte) : trim xs .le = (trim xs.reverse .be).reverse := by
  simp [trim, trimWith]

theorem trim_be_zero_cons {xs : List Byte} (h : xs ≠ []) : trim (0 :: xs) .be = trim xs .be := by
  have hpos := List.length_pos_iff.mpr h
  rw [trim_be, trim_be, List.takeWhile_cons_of_pos (by simp), List.length_cons, List.length_cons,
    show min ((xs.takeWhile (fun b => b == 0)).length + 1) (xs.length + 1 - 1) =
      min (xs.takeWhile (fun b => b == 0)).length (xs.length - 1) + 1 by omega, List.drop_succ_cons]

theorem trim_be_cons_of_ne_zero {x : Byte} (hx : x ≠ 0) (xs : List Byte) : trim (x :: xs) .be = x :: xs := by
  rw [trim_be, List.takeWhile_cons_of_neg (by simpa using hx), List.length_nil, Nat.zero_min, List.drop_zero]

/-- Under BE the trim leaves a suffix behind a run of zeros (42_extended_composer.md R118), whose first byte is not 00
unless it is the one zero that is kept. -/
theorem trim_be_spec {xs : List Byte} (h : xs ≠ []) :
    ∃ z, xs = zeros z ++ trim xs .be ∧ (trim xs .be = [0] ∨ ∃ y ys, trim xs .be = y :: ys ∧ y ≠ 0) := by
  induction xs with
  | nil => exact absurd rfl h
  | cons x xs ih =>
    by_cases hx : x = 0
    · subst hx
      by_cases hxs : xs = []
      · subst hxs
        exact ⟨0, rfl, .inl rfl⟩
      · obtain ⟨z, hz, hhigh⟩ := ih hxs
        rw [trim_be_zero_cons hxs]
        exact ⟨z + 1, congrArg (0 :: ·) hz, hhigh⟩
    · rw [trim_be_cons_of_ne_zero hx]
      exact ⟨0, rfl, .inr ⟨x, xs, rfl, hx⟩⟩

/-- The mirror under LE: the removed zeros stand behind what is left. -/
theorem trim_le_spec {xs : List Byte} (h : xs ≠ []) :
    ∃ z, xs = trim xs .le ++ zeros z ∧ (trim xs .le = [0] ∨ ∃ y ys, trim xs .le = ys ++ [y] ∧ y ≠ 0) := by
  obtain ⟨z, hz, hhigh⟩ := trim_be_spec (xs := xs.reverse) (by simpa using h)
  rw [trim_le]
  refine ⟨z, ?_, hhigh.imp (fun h0 => by rw [h0]; rfl) ?_⟩
  · simpa [zeros] using congrArg List.reverse hz
  · rintro ⟨y, ys, hy, hne⟩
    exact ⟨y, ys.reverse, by rw [hy, List.reverse_cons], hne⟩

/-- Reconciling at the full width puts back exactly the zeros that the trim removed. -/
theorem reconcile_trim (xs : List Byte) (e : Endian) : reconcile (trim xs e) xs.length e = xs := by
  by_cases h : xs = []
  · subst h
    cases e <;> rfl
  cases e with
  | be =>
    obtain ⟨z, hz, -⟩ := trim_be_spec h
    have hlen : xs.length = z + (trim xs .be).length := by simpa using congrArg List.length hz
    rw [reconcile_be (by omega), hlen, Nat.add_sub_cancel, ← hz]
  | le =>
    obtain ⟨z, hz, -⟩ := trim_le_spec h
    have hlen : xs.length = (trim xs .le).length + z := by simpa using congrArg List.length hz
    rw [reconcile_le, hlen, Nat.add_sub_cancel_left, ← hz]

theorem trim_length_le (xs : List Byte) (e : Endian) : (trim xs e).length ≤ xs.length := by
  by_cases h : xs = []
  · subst h
    cases e <;> exact le_rfl
  · exact (trim_length_bounds (List.length_pos_iff.mpr h) e).2

theorem unpackBytes_trim (xs : List Byte) (e : Endian) : unpackBytes (trim xs e) e = unpackBytes xs e := by
  rw [← unpackBytes_reconcile (trim_length_le xs e), reconcile_trim]

/-! ### EXPT, and DEC of its OUT -/

theorem of_mem_exptAll {x : Option Endian} {p : Instr × Nat} (h : p ∈ exptAll x) :
    p.1.op = .expt ∧ p.1.width.bytes = p.2 ∧ p.1.explicit = x := by
  have hall : ∀ q ∈ exptAll x, q.1.op = .expt ∧ q.1.width.bytes = q.2 ∧ q.1.explicit = x := by
    simp [exptAll, Instr.op, Instr.width, Instr.explicit, Instr.parts, Width.bytes]
  exact hall p h

theorem exec_expt_returns {s : State} {r : Request} {x : Option Endian} {p : Instr × Nat} (hp : p ∈ exptAll x)
    (hr : s.request = some r) :
    exec p.1 s = .next { s with
      response := some (okOut (trim (flatImage p.2 r.value (orderUsed s x)) (orderUsed s x)))
      seq := s.seq + 1 } := by
  obtain ⟨hop, hn, hx⟩ := of_mem_exptAll hp
  rw [exec_eq, hop, ← hn, orderUsed_eq_resolve, ← hx, ← image_eq_flatImage]
  exact exportTrimmed_answers hr

theorem reconcile_self (xs : List Byte) (e : Endian) : reconcile xs xs.length e = xs := by
  cases e with
  | le => simp [reconcile_le, zeros]
  | be => simp [reconcile_be le_rfl, zeros]

/-- A DEC at OFFSET 0 reads the whole buffer, reconciled at its width (41_length_reconciliation.md R91). -/
theorem decodeInput_at_zero {w : Width} {b : Buffer} (h : b.len ≤ w.bytes) (e : Endian) :
    decodeInput w e b 0 = reconcile b.toBytes w.bytes e := by
  unfold decodeInput
  split
  · have hlen : b.len = w.bytes := by omega
    have hself := reconcile_self b.toBytes e
    rw [Buffer.toBytes, Buffer.readBytes_length, hlen] at hself
    rw [Buffer.toBytes, hlen, hself]
  · rfl

/-- A buffer that holds a trimmed image decodes to the value of the image (42_extended_composer.md R120). -/
theorem decode_trimmed {w : Width} {b : Buffer} {v : Value} {e : Endian}
    (hb : b.toBytes = trim (flatImage w.bytes v e) e) :
    readImage w (decodeInput w e b 0) e = lowPart w.bytes v := by
  have hlen : b.len ≤ w.bytes := by
    have := trim_length_le (flatImage w.bytes v e) e
    rwa [← hb, flatImage_length, Buffer.toBytes, Buffer.readBytes_length] at this
  have hrec := reconcile_trim (flatImage w.bytes v e) e
  rw [flatImage_length] at hrec
  rw [decodeInput_at_zero hlen, hb, hrec, ← image_eq_flatImage, readImage_image]

/-! ### The obligations -/

/-- Settles O23: the limbs of an encode in range cover its span and spell the flat image. -/
theorem wideEncWritesItsSpan : Obligations.WideEncWritesItsSpan :=
  fun _ _ _ _ _ hr hk hb _ hp hle => exec_encAll_writes (List.mem_append_right _ hp) hr hk hb hle

/-- Settles O24: High is limb 0 of 2 and Low is limb 1, each in its slot. -/
theorem limbPlacementOf128 : Obligations.LimbPlacementOf128 := by
  intro s r k b x hr hk hb i hi hle
  have hparts : i.op = .enc ∧ i.width = .w128 ∧ i.explicit = x := by
    rcases List.mem_pair.mp hi with rfl | rfl <;> exact ⟨rfl, rfl, rfl⟩
  obtain ⟨t, b', hexec, hb', hlimb⟩ := exec_enc_limbs hparts hr hk hb hle
  refine ⟨t, b', hexec, hb', ?_⟩
  have high := hlimb 0 (by decide)
  have low := hlimb 1 (by decide)
  cases he : orderUsed s x <;> rw [he] at high low
  · exact ⟨low, high⟩
  · exact ⟨high, low⟩

/-- Settles O25: A, B, C and D are the limbs 0 to 3 of 4, each in its slot. -/
theorem limbPlacementOf256 : Obligations.LimbPlacementOf256 := by
  intro s r k b x hr hk hb i hi hle
  have hparts : i.op = .enc ∧ i.width = .w256 ∧ i.explicit = x := by
    rcases List.mem_pair.mp hi with rfl | rfl <;> exact ⟨rfl, rfl, rfl⟩
  obtain ⟨t, b', hexec, hb', hlimb⟩ := exec_enc_limbs hparts hr hk hb hle
  refine ⟨t, b', hexec, hb', ?_⟩
  have hA := hlimb 0 (by decide)
  have hB := hlimb 1 (by decide)
  have hC := hlimb 2 (by decide)
  have hD := hlimb 3 (by decide)
  cases he : orderUsed s x <;> rw [he] at hA hB hC hD
  · exact ⟨hD, hC, hB, hA⟩
  · exact ⟨hA, hB, hC, hD⟩

/-- Settles O33: the fresh image of the limbs is the flat image. -/
theorem wideEncaReturnsTheImage : Obligations.WideEncaReturnsTheImage :=
  fun _ _ _ hr _ hp => exec_enca_returns (List.mem_append_right _ hp) hr

/-- Settles O42: both sides have the same bytes, in both directions. -/
theorem composerEqualsTheFlatCodec : Obligations.ComposerEqualsTheFlatCodec := by
  refine fun w _ e => ⟨fun v => ⟨?_, fun i hi => ?_⟩, fun xs hxs => readImage_eq_unpackBytes hxs e⟩
  · rw [image_eq_flatImage, flatImage_eq_packBytes]
  · rw [image_eq_flatImage, List.getElem?_eq_getElem (by simpa using hi), flatImage_getElem]

/-- Settles O41: what the trim removes is what reconciliation puts back, and it is zeros. -/
theorem trimMeetsItsContract : Obligations.TrimMeetsItsContract := by
  refine fun xs e _ => ⟨?_, unpackBytes_trim xs e, by rw [reconcile_trim], trim_length_le xs e⟩
  have hrec := reconcile_trim xs e
  cases e with
  | be =>
    rw [reconcile_be (trim_length_le xs .be)] at hrec
    exact ⟨_, hrec.symm, fun y => List.eq_of_mem_replicate⟩
  | le =>
    rw [reconcile_le] at hrec
    exact ⟨_, hrec.symm, fun y => List.eq_of_mem_replicate⟩

/-- Settles O40: an image has a byte, so its trim is what stands beside the zero run of its most significant end. -/
theorem exptStripsTheZerosOfTheHighEnd : Obligations.ExptStripsTheZerosOfTheHighEnd := by
  intro s r x hr p hp
  refine ⟨_, exec_expt_returns hp hr, ?_⟩
  obtain ⟨-, hn, -⟩ := of_mem_exptAll hp
  have hne (e : Endian) : flatImage p.2 r.value e ≠ [] := by
    rw [← List.length_pos_iff, flatImage_length, ← hn]
    exact p.1.width.bytes_pos
  cases orderUsed s x with
  | le => exact trim_le_spec (hne .le)
  | be => exact trim_be_spec (hne .be)

/-- Settles O46: the DEC reconciles the trimmed image back to the full one. -/
theorem decOfExptOutReturnsTheValue : Obligations.DecOfExptOutReturnsTheValue := by
  intro s r x y hr p hp
  obtain ⟨hexpt, hdec⟩ : (p.1, p.2.2) ∈ exptAll x ∧ p.2 ∈ decAll y := by
    revert p
    simp [exptAll, decAll]
  obtain ⟨hn, -⟩ := of_mem_decAll hdec
  have hbounds := trim_length_bounds (xs := flatImage p.2.2 r.value (orderUsed s x))
    (by simpa [← hn] using p.2.1.width.bytes_pos) (orderUsed s x)
  rw [flatImage_length] at hbounds
  refine ⟨_, trim (flatImage p.2.2 r.value (orderUsed s x)) (orderUsed s x), exec_expt_returns hexpt hr, rfl,
    hbounds.1, hbounds.2, fun u r' k b hr' hk' hb hbytes hoff hord => ?_⟩
  have hlen : 0 < b.len := by
    have := congrArg List.length hbytes
    rw [Buffer.toBytes, Buffer.readBytes_length] at this
    omega
  rw [exec_decAll_present hdec hr' hk' hb (by omega), hoff, hord]
  rw [← hn] at hbytes ⊢
  rw [decode_trimmed hbytes]

end Sys2Proof.Machine
end

section
/-! PROOFS. The endianness resolver (43_endianness_resolver.md R126 to R128): which endianness a command word resolves
to, that a command with an explicit endianness does not read DEFAULT_LE, and what QEND answers: O19 to O21. -/

namespace Sys2Proof

/-! ### What a decoded word says of its command -/

/-- The explicit endianness of a command is the one ESEL and ELE of its word give (30_encoding.md R51). -/
theorem Instr.explicit_of_decode {w : CmdWord} {i : Instr} (h : decode w = .ok i) :
    i.explicit = if w.getLsbD 7 then some (Endian.ofBit (w.getLsbD 6)) else none := by
  obtain ⟨op, wid, -, hparts⟩ := spells_of_decodeFields h
  rw [Instr.explicit, hparts]
  rfl

/-- The operation of a command is the one the OP field of its word names (30_encoding.md R49). -/
theorem Op.ofCode_of_decode {w : CmdWord} {i : Instr} (h : decode w = .ok i) :
    Op.ofCode (w.extractLsb' 12 4) = some i.op := by
  have hfields : i.fields = Fields.ofWord w := decodeFields_eq_ok.1 h
  exact Op.ofCode_eq_some.2 (congrArg Fields.op hfields)

theorem Instr.eq_qend_of_op {i : Instr} (h : i.op = .qend) : i = .qend := by
  have hmake := i.make_parts
  rw [h] at hmake
  exact (Option.some.inj hmake).symm

/-- QEND takes no endianness (30_encoding.md R55). -/
theorem Instr.op_ne_qend_of_explicit {i : Instr} {e : Endian} (h : i.explicit = some e) : i.op ≠ .qend := by
  intro hop
  rw [Instr.eq_qend_of_op hop] at h
  cases h

/-- The word of QEND is the only legal one with its OP. -/
theorem eq_queryWord_of_decode {w : CmdWord} {i : Instr} (hop : w.extractLsb' 12 4 = 5) (h : decode w = .ok i) :
    w = 0x5000 := by
  have hcode := Op.ofCode_of_decode h
  rw [hop] at hcode
  obtain rfl : i = .qend := Instr.eq_qend_of_op (Option.some.inj hcode).symm
  exact (decode_eq_ok.1 h).symm

namespace Machine

/-! ### A procedure given its endianness reads no DEFAULT_LE -/

section
variable {s t : State} {w : Width} {e : Endian}

theorem encodeInPlace_otherDefault (h : encodeInPlace w (some e) s = .next t) (d : Bool) :
    encodeInPlace w (some e) { s with defaultLE := d } = .next { t with defaultLE := d } := by
  obtain ⟨r, hr, ⟨hb, rfl⟩ | ⟨k, b, hb, ⟨hlt, rfl⟩ | ⟨hle, rfl⟩⟩⟩ := encodeInPlace_cases h
  · exact encodeInPlace_absent hr hb
  · have hk := (Memory.caller_eq_some.mp hb).2
    rw [encodeInPlace_outOfRange (s := { s with defaultLE := d }) hr hb hlt, State.raiseOutOfRange_eq hk,
      State.raiseOutOfRange_eq (s := { s with defaultLE := d }) hk]
  · exact encodeInPlace_writes hr hb hle

theorem decodeBuffer_otherDefault (h : decodeBuffer w (some e) s = .next t) (d : Bool) :
    decodeBuffer w (some e) { s with defaultLE := d } = .next { t with defaultLE := d } := by
  obtain ⟨r, hr, ⟨hb, rfl⟩ | ⟨k, b, hb, ⟨h0, rfl⟩ | ⟨h0, hle, rfl⟩ | ⟨hlt, rfl⟩⟩⟩ := decodeBuffer_cases h
  · exact decodeBuffer_absent hr hb
  · exact decodeBuffer_empty hr hb h0
  · exact decodeBuffer_pastEnd hr hb h0 hle
  · exact decodeBuffer_reads hr hb hlt

theorem encodeFresh_otherDefault (h : encodeFresh w (some e) s = .next t) (d : Bool) :
    encodeFresh w (some e) { s with defaultLE := d } = .next { t with defaultLE := d } := by
  obtain ⟨r, hr, rfl⟩ := encodeFresh_cases h
  exact encodeFresh_answers hr

theorem exportTrimmed_otherDefault (h : exportTrimmed w (some e) s = .next t) (d : Bool) :
    exportTrimmed w (some e) { s with defaultLE := d } = .next { t with defaultLE := d } := by
  obtain ⟨r, hr, rfl⟩ := exportTrimmed_cases h
  exact exportTrimmed_answers hr

end

/-! ### QEND -/

/-- RESULT of QEND is the number 1 or 0 (43_endianness_resolver.md R128). -/
theorem exec_qend (s : State) :
    exec .qend s = .next (s.respond (some (if s.defaultLE then 1 else 0)) none) := by
  have hresult : ∀ b, BitVec.setWidth 256 (BitVec.ofBool b) = if b then 1 else 0 := by decide
  rw [← hresult]
  rfl

/-! ### The obligations -/

/-- Settles O19: the command's explicit endianness is that of the word's ESEL and ELE, bits 7 and 6. -/
theorem resolvedEndianFollowsTheWord : Obligations.ResolvedEndianFollowsTheWord := by
  intro s w i h _
  rw [Instr.explicit_of_decode h]
  split
  case isTrue => rw [resolve_some, Endian.ofBit]
  case isFalse => rw [resolve_none]

/-- Settles O20, procedure by procedure; QEND, which does read DEFAULT_LE, carries no endianness. -/
theorem explicitEndianIgnoresTheDefault : Obligations.ExplicitEndianIgnoresTheDefault := by
  intro i e s t d he h
  rw [exec_eq, he] at h
  rw [exec_eq, he]
  cases hop : i.op <;> simp only [hop] at h ⊢
  case enc => exact encodeInPlace_otherDefault h d
  case enca => exact encodeFresh_otherDefault h d
  case dec => exact decodeBuffer_otherDefault h d
  case expt => exact exportTrimmed_otherDefault h d
  case qend => exact absurd hop (Instr.op_ne_qend_of_explicit he)

/-- Settles O21: QEND's meaning, its word, and the OP field that names no other command. -/
theorem queryReturnsTheDefault : Obligations.QueryReturnsTheDefault := by
  refine ⟨exec_qend, by decide, fun w hop hne => ?_⟩
  cases h : decode w with
  | error e => exact ⟨e, rfl⟩
  | ok i => exact absurd (eq_queryWord_of_decode hop h) hne

end Machine

end Sys2Proof
end

section
/-! PROOFS. The errors: the codes of R131, the checks of R132 in their order, and what a command that raises one leaves
(60_exceptions.md R130 to R138, R147): O6, O9, O10, O11, O26, O27, O37, O50. -/

namespace Sys2Proof.Machine

open Sys2Proof.Claims

/-! ### Illegal words -/

theorem decode_error_iff {w : CmdWord} : (∃ e, decode w = .error e) ↔ (Fields.ofWord w).legal = false := by
  rw [← Bool.not_eq_true, ← legalWordsAreTheTableOfLegalWords w]
  cases decode w <;> simp

/-- An illegal word claims no byte, so nothing contests it (60_exceptions.md R136). -/
theorem serveCommand_illegal {r : Request} {e : DecodeError} (h : decode r.cmd = .error e) (s : State) :
    serveCommand r [] s = .next ((s.latch r).raise .illegalCommand) := by
  rw [serveCommand_alone (by simp [ownClaim, h]), runCommand_illegal h]

/-! ### The errors of ENC and DEC -/

section
variable {i : Instr} {s : State} {r : Request} {k : Nat} {b : Buffer}

theorem exec_enc_outOfRange (hop : i.op = .enc) (hr : s.request = some r) (hk : r.buf = some k)
    (hb : s.mem[k]? = some b) (hlt : b.len < r.offset.toNat + i.width.bytes) :
    exec i s = .next (s.raiseOutOfRange k b r.offset.toNat) := by
  rw [exec_eq, hop]
  exact encodeInPlace_outOfRange hr (Memory.caller_eq_some.mpr ⟨hk, hb⟩) hlt

theorem exec_dec_pastEnd (hop : i.op = .dec) (hr : s.request = some r) (hk : r.buf = some k)
    (hb : s.mem[k]? = some b) (h0 : b.len ≠ 0) (hle : b.len ≤ r.offset.toNat) :
    exec i s = .next (s.raise .invalidState) := by
  rw [exec_eq, hop]
  exact decodeBuffer_pastEnd hr (Memory.caller_eq_some.mpr ⟨hk, hb⟩) h0 hle

end

/-- The buffer that an OutOfRange leaves: draws from OFFSET to its end (60_exceptions.md R135). -/
theorem Buffer.read_drawnToEnd (b : Buffer) (offset d j : Nat) :
    (b.writePieces offset [(0, drawBytes d (b.len - offset))]).read j =
      if offset ≤ j ∧ j < b.len then Config.freeByte (d + (j - offset)) else b.read j := by
  rw [Buffer.writePieces_cons, Buffer.writePieces_nil, Buffer.read_writeBytes, drawBytes_length]
  refine if_ctx_congr (by omega) (fun hj => ?_) fun _ => rfl
  exact drawBytes_getD (by omega) d

/-! ### The statuses that fit a command -/

/-- ENCA, EXPT and QEND make no check (60_exceptions.md R132). -/
theorem Response.fits.status_ok {i : Instr} {p : Response} (h : p.fits i) (hop : i.op ≠ .enc ∧ i.op ≠ .dec) :
    p.status = .ok := by
  cases hi : i.op with
  | enc => exact absurd hi hop.1
  | dec => exact absurd hi hop.2
  | enca | expt | qend =>
    simp only [Response.fits, hi] at h
    exact h.1

/-- The errors of an ENC are two others (60_exceptions.md R132, R134). -/
theorem Response.fits.status_ne_invalidState {i : Instr} {p : Response} (h : p.fits i) (hop : i.op = .enc) :
    p.status ≠ .invalidState := by
  simp only [Response.fits, hop] at h
  obtain ⟨hs | hs | hs, -⟩ := h <;> simp [hs]

/-! ### The order of the checks -/

section
variable {m : Memory} {r : Request} {i : Instr}

theorem expectedStatus_illegal {e : DecodeError} (hd : decode r.cmd = .error e) (m : Memory) :
    expectedStatus m r = .illegalCommand :=
  if_pos (decode_error_iff.mp ⟨e, hd⟩)

theorem legal_of_decode (hd : decode r.cmd = .ok i) : (Fields.ofWord r.cmd).legal = true :=
  (legalWordsAreTheTableOfLegalWords r.cmd).mp ⟨i, hd⟩

theorem expectedStatus_absent (hd : decode r.cmd = .ok i) (hop : i.op = .enc ∨ i.op = .dec)
    (hc : m.caller r.buf = none) : expectedStatus m r = .invalidArgument := by
  rcases hop with hop | hop <;> simp [expectedStatus, legal_of_decode hd, hd, hop, hc]

theorem expectedStatus_enc (hd : decode r.cmd = .ok i) (hop : i.op = .enc) {k : Nat} {b : Buffer}
    (hc : m.caller r.buf = some (k, b)) :
    expectedStatus m r = if r.offset.toNat + i.width.bytes ≤ b.len then .ok else .outOfRange := by
  simp [expectedStatus, legal_of_decode hd, hd, hop, hc]

theorem expectedStatus_dec (hd : decode r.cmd = .ok i) (hop : i.op = .dec) {k : Nat} {b : Buffer}
    (hc : m.caller r.buf = some (k, b)) :
    expectedStatus m r = if b.len = 0 then .ok else if b.len ≤ r.offset.toNat then .invalidState else .ok := by
  simp [expectedStatus, legal_of_decode hd, hd, hop, hc]

theorem expectedStatus_ok (hd : decode r.cmd = .ok i) (hop : i.op ≠ .enc ∧ i.op ≠ .dec) (m : Memory) :
    expectedStatus m r = .ok := by
  cases hi : i.op with
  | enc => exact absurd hi hop.1
  | dec => exact absurd hi hop.2
  | enca | expt | qend => simp [expectedStatus, legal_of_decode hd, hd, hi]

/-- The checks read no byte of a buffer, only its length. -/
theorem expectedStatus_congr {m' : Memory} (h : m'.map Buffer.len = m.map Buffer.len) (r : Request) :
    expectedStatus m' r = expectedStatus m r := by
  cases hd : decode r.cmd with
  | error e => rw [expectedStatus_illegal hd, expectedStatus_illegal hd]
  | ok i =>
    by_cases hop : i.op = .enc ∨ i.op = .dec
    · cases hc : m.caller r.buf with
      | none => rw [expectedStatus_absent hd hop hc, expectedStatus_absent hd hop (Memory.caller_none_of_lens h hc)]
      | some kb =>
        obtain ⟨b', hc', hlen⟩ := Memory.caller_of_lens h hc
        rcases hop with hop | hop
        · rw [expectedStatus_enc hd hop hc, expectedStatus_enc hd hop hc', hlen]
        · rw [expectedStatus_dec hd hop hc, expectedStatus_dec hd hop hc', hlen]
    · rw [expectedStatus_ok hd (not_or.mp hop), expectedStatus_ok hd (not_or.mp hop)]

end

/-! ### What a command does when a check fails -/

theorem buf_of_claimed {s : State} {r : Request} {k j : Nat} (h : Claimed (s.claims r) k j) : r.buf = some k := by
  obtain ⟨p, hp, rfl, -⟩ := h
  obtain ⟨-, -, -, hbuf, -⟩ := ownClaim_cases (Option.mem_toList.mp hp)
  exact hbuf

theorem not_claimed_of_absent {s : State} {r : Request} {k j : Nat} (h : s.mem.caller r.buf = none) :
    ¬ Claimed (s.claims r) k j := by
  rintro ⟨p, hp, -⟩
  obtain ⟨i, k', b, -, -, hk, hb, -⟩ := ownClaim_inv (Option.mem_toList.mp hp)
  rw [Memory.caller_eq_some.mpr ⟨hk, hb⟩] at h
  cases h

theorem not_claimed_of_illegal {s : State} {r : Request} {e : DecodeError} {k j : Nat} (h : decode r.cmd = .error e) :
    ¬ Claimed (s.claims r) k j := by
  simp [Claimed, State.claims, ownClaim, h]

/-- A command at or past the end of its buffer has no byte there. -/
theorem not_claimed_of_pastEnd {s : State} {r : Request} {k k' j : Nat} {b : Buffer} (hk : r.buf = some k)
    (hb : s.mem[k]? = some b) (hle : b.len ≤ r.offset.toNat) : ¬ Claimed (s.claims r) k' j := by
  intro h
  obtain rfl : k = k' := Option.some.inj (hk.symm.trans (buf_of_claimed h))
  have ⟨p, hp, _⟩ := h
  obtain ⟨i, hd, hop, -⟩ := ownClaim_cases (Option.mem_toList.mp hp)
  have := (claimed_iff hd hop hk hb j).mp h
  omega

/-- How running the request `r` leads from `s` to `t`, by the first check of R132 that fails. -/
inductive CheckedOutcome (r : Request) (s t : State) : Prop
  /-- No check fails. -/
  | completes (p : Response) (hexp : expectedStatus s.mem r = .ok) (hp : t.response = some p) (hok : p.status = .ok)
  /-- IllegalCommand, InvalidArgument and InvalidState: the command claims no byte, and its error is all it does. -/
  | raises (e : Status) (hexp : expectedStatus s.mem r = e) (herr : e ≠ .ok) (hne : e ≠ .outOfRange)
      (hclaim : ∀ k j, ¬ Claimed (s.claims r) k j) (ht : t = (s.latch r).raise e)
  /-- OutOfRange, of an ENC of a present buffer. -/
  | outOfRange (i : Instr) (k : Nat) (b : Buffer) (hexp : expectedStatus s.mem r = .outOfRange)
      (hd : decode r.cmd = .ok i) (hop : i.op = .enc) (hk : r.buf = some k) (hb : s.mem[k]? = some b)
      (ht : t = (s.latch r).raiseOutOfRange k b r.offset.toNat)

section
variable {r : Request} {s t : State}

theorem exec_enc_checked {i : Instr} (hd : decode r.cmd = .ok i) (hop : i.op = .enc)
    (h : exec i (s.latch r) = .next t) : CheckedOutcome r s t := by
  rw [exec_eq, hop] at h
  obtain ⟨r', hr, hcases⟩ := encodeInPlace_cases h
  obtain rfl : r = r' := Option.some.inj hr
  rcases hcases with ⟨hc, rfl⟩ | ⟨k, b, hc, ⟨hlt, rfl⟩ | ⟨hle, rfl⟩⟩
  · exact .raises _ (expectedStatus_absent hd (.inl hop) hc) (by decide) (by decide)
      (fun _ _ => not_claimed_of_absent hc) rfl
  · obtain ⟨hk, hb⟩ := Memory.caller_eq_some.mp hc
    exact .outOfRange i k b ((expectedStatus_enc hd hop hc).trans (if_neg (Nat.not_le.mpr hlt))) hd hop hk hb rfl
  · exact .completes _ ((expectedStatus_enc hd hop hc).trans (if_pos hle)) rfl rfl

theorem exec_dec_checked {i : Instr} (hd : decode r.cmd = .ok i) (hop : i.op = .dec)
    (h : exec i (s.latch r) = .next t) : CheckedOutcome r s t := by
  rw [exec_eq, hop] at h
  obtain ⟨r', hr, hcases⟩ := decodeBuffer_cases h
  obtain rfl : r = r' := Option.some.inj hr
  rcases hcases with ⟨hc, rfl⟩ | ⟨k, b, hc, ⟨h0, rfl⟩ | ⟨h0, hle, rfl⟩ | ⟨hlt, rfl⟩⟩
  · exact .raises _ (expectedStatus_absent hd (.inr hop) hc) (by decide) (by decide)
      (fun _ _ => not_claimed_of_absent hc) rfl
  · exact .completes _ ((expectedStatus_dec hd hop hc).trans (if_pos h0)) rfl rfl
  · obtain ⟨hk, hb⟩ := Memory.caller_eq_some.mp hc
    exact .raises _ ((expectedStatus_dec hd hop hc).trans ((if_neg h0).trans (if_pos hle))) (by decide) (by decide)
      (fun _ _ => not_claimed_of_pastEnd hk hb hle) rfl
  · have h0 : b.len ≠ 0 := by omega
    exact .completes _
      ((expectedStatus_dec hd hop hc).trans ((if_neg h0).trans (if_neg (Nat.not_le.mpr hlt)))) rfl rfl

theorem runCommand_checked (h : runCommand r s = .next t) : CheckedOutcome r s t := by
  cases hd : decode r.cmd with
  | error e =>
    rw [runCommand_illegal hd] at h
    cases h
    exact .raises _ (expectedStatus_illegal hd s.mem) (by decide) (by decide)
      (fun _ _ => not_claimed_of_illegal hd) rfl
  | ok i =>
    rw [runCommand_legal hd] at h
    by_cases henc : i.op = .enc
    · exact exec_enc_checked hd henc h
    · by_cases hdec : i.op = .dec
      · exact exec_dec_checked hd hdec h
      · obtain ⟨p, hp, hfits⟩ := exec_response_fits h
        exact .completes p (expectedStatus_ok hd ⟨henc, hdec⟩ s.mem) hp (hfits.status_ok ⟨henc, hdec⟩)

theorem CheckedOutcome.status (h : CheckedOutcome r s t) :
    ∃ p, t.response = some p ∧ p.status = expectedStatus s.mem r := by
  cases h with
  | completes p hexp hp hok => exact ⟨p, hp, hok.trans hexp.symm⟩
  | raises e hexp herr hne hclaim ht => exact ⟨errorAlone e, by rw [ht]; rfl, hexp.symm⟩
  | outOfRange i k b hexp hd hop hk hb ht => exact ⟨errorAlone .outOfRange, by rw [ht]; rfl, hexp.symm⟩

end

/-! ### A command beside accesses in flight -/

theorem len_pos_of_mem_contested {p q : Claim} {c : Span} (h : c ∈ p.contested q) : 0 < c.len := by
  unfold Claim.contested Span.overlap at h
  simp only at h
  split at h
  · split at h
    · rename_i hcond
      obtain rfl := List.mem_singleton.mp h
      exact Nat.sub_pos_of_lt hcond.2
    · simp at h
  · simp at h

/-- A command contests no empty range, so the first byte of each range it contests is one it claims. -/
theorem claimed_of_mem_commandRaces {s : State} {own : List Claim} {during : List AgentEvent} {c : Span}
    (h : c ∈ s.commandRaces own during) : Claimed own c.buf c.start := by
  have hlen : 0 < c.len := by
    obtain ⟨p, -, hc⟩ := List.mem_flatMap.mp h
    rcases List.mem_append.mp hc with hc | hc
    · obtain ⟨e, -, hc⟩ := List.mem_flatMap.mp hc
      exact len_pos_of_mem_contested hc
    · obtain ⟨a, -, hc⟩ := List.mem_flatMap.mp hc
      exact len_pos_of_mem_contested hc
  exact claimed_of_covered_commandRaces ⟨c, h, rfl, Nat.le_refl _, Nat.lt_add_of_pos_right hlen⟩

/-- The ranges a command contests with the accesses in flight, when none begins beside it. -/
abbrev State.contestedBy (s : State) (r : Request) : List Span :=
  s.commandRaces (s.claims r) []

/-- The state such a command runs from: the contested bytes are drawn (log entry 10). -/
def State.commandInput (s : State) (r : Request) : State :=
  (s.meet (s.claims r)).drawSpans (s.contestedBy r)

section
variable {r : Request} {s t v : State}

theorem serveCommand_noEvents (r : Request) (s : State) :
    ∃ v, runCommand r (s.commandInput r) = .next v ∧ serveCommand r [] s = .next (v.drawSpans (s.contestedBy r)) := by
  obtain ⟨v, hv⟩ := runCommand_next r (s.commandInput r)
  refine ⟨v, hv, ?_⟩
  unfold State.commandInput at hv
  unfold serveCommand whileInProgress
  simp only [agentEvents, andThen_next, hv]

@[simp] theorem State.commandInput_lens (s : State) (r : Request) :
    (s.commandInput r).mem.map Buffer.len = s.mem.map Buffer.len := by
  simp [State.commandInput]

theorem State.commandInput_claims (s : State) (r : Request) : (s.commandInput r).claims r = s.claims r :=
  congrArg Option.toList (ownClaim_congr (s.commandInput_lens r) r)

/-- A command that claims nothing contests nothing. -/
theorem State.contestedBy_eq_nil (h : ∀ k j, ¬ Claimed (s.claims r) k j) : s.contestedBy r = [] :=
  List.eq_nil_iff_forall_not_mem.mpr fun _ hc => h _ _ (claimed_of_mem_commandRaces hc)

theorem State.drawContested_getElem?_beside (u : State) {k : Nat} (hk : r.buf ≠ some k) :
    (u.drawSpans (s.contestedBy r)).mem[k]? = u.mem[k]? :=
  State.drawSpans_getElem?_beside fun _ hp hbuf => hk (hbuf ▸ buf_of_claimed (claimed_of_mem_commandRaces hp))

theorem State.drawContested_byte_beside (u : State) {k j : Nat} (hc : ¬ Claimed (s.claims r) k j) :
    (u.drawSpans (s.contestedBy r)).mem.byte k j = u.mem.byte k j :=
  State.drawSpans_byte_beside fun h => hc (claimed_of_covered_commandRaces h)

section
variable (hv : runCommand r (s.commandInput r) = .next v)
include hv

theorem served_lens : (v.drawSpans (s.contestedBy r)).mem.map Buffer.len = s.mem.map Buffer.len := by
  simp [runCommand_lens hv]

theorem served_getElem?_beside {k : Nat} (hk : r.buf ≠ some k) :
    (v.drawSpans (s.contestedBy r)).mem[k]? = s.mem[k]? := by
  rw [State.drawContested_getElem?_beside v hk, runCommand_getElem?_beside hv hk]
  exact State.drawContested_getElem?_beside (s.meet (s.claims r)) hk

theorem served_byte_beside {k j : Nat} (hc : ¬ Claimed (s.claims r) k j) :
    (v.drawSpans (s.contestedBy r)).mem.byte k j = s.mem.byte k j := by
  rw [State.drawContested_byte_beside v hc, runCommand_byte_beside hv]
  · exact State.drawContested_byte_beside (s.meet (s.claims r)) hc
  · intro p hp _ hcov
    rw [ownClaim_congr (s.commandInput_lens r)] at hp
    exact hc ⟨p, Option.mem_toList.mpr hp, hcov⟩

/-- Of the buffer its request names, a served command changes claimed bytes alone. -/
theorem served_buffer {k : Nat} {b : Buffer} (hk : r.buf = some k) (hb : s.mem[k]? = some b) :
    ∃ b', (v.drawSpans (s.contestedBy r)).mem = s.mem.set k b' ∧ b'.len = b.len ∧
      ∀ j, ¬ Claimed (s.claims r) k j → b'.read j = b.read j := by
  obtain ⟨b', hb', hlen⟩ := Memory.exists_of_lens (served_lens hv) hb
  refine ⟨b', Memory.eq_set_of_beside (Memory.length_congr (served_lens hv)) hb' fun k' hk' => ?_, hlen, fun j hc => ?_⟩
  · exact served_getElem?_beside hv fun hc => hk' (Option.some.inj (hc.symm.trans hk))
  · rw [← Memory.byte_eq hb', ← Memory.byte_eq hb]
    exact served_byte_beside hv hc

end

/-- A command that is answered with an error, as `Obligations.ErrorReturnsNothingAndWritesNothing` says it of a step. -/
theorem serveCommand_error {p : Response} (h : serveCommand r [] s = .next t) (hp : t.response = some p)
    (herr : p.status ≠ .ok) :
    p.result = none ∧ p.out = none ∧ t.defaultLE = s.defaultLE ∧ (p.status ≠ .outOfRange → t.mem = s.mem) ∧
      (p.status = .outOfRange →
        ∃ k b b', r.buf = some k ∧ s.mem[k]? = some b ∧ t.mem = s.mem.set k b' ∧ b'.len = b.len ∧
          ∀ j, ¬ (r.offset.toNat ≤ j ∧ j < b.len) → b'.read j = b.read j) := by
  have hdef := serveCommand_defaultLE h
  obtain ⟨v, hv, hserve⟩ := serveCommand_noEvents r s
  obtain rfl : v.drawSpans (s.contestedBy r) = t := Host.Outcome.next.inj (hserve.symm.trans h)
  rw [State.drawSpans_response] at hp
  cases runCommand_checked hv with
  | completes q hexp hq hok =>
    obtain rfl : q = p := Option.some.inj (hq.symm.trans hp)
    exact absurd hok herr
  | raises e hexp herr' hne hclaim ht =>
    subst ht
    obtain rfl : errorAlone e = p := Option.some.inj hp
    rw [State.commandInput_claims] at hclaim
    refine ⟨rfl, rfl, hdef, fun _ => ?_, fun hout => absurd hout hne⟩
    rw [State.contestedBy_eq_nil hclaim, State.drawSpans_nil, State.raise_mem, State.latch_mem, State.commandInput,
      State.contestedBy_eq_nil hclaim, State.drawSpans_nil, State.meet_mem]
  | outOfRange i k bx hexp hd hop hk hbx ht =>
    obtain ⟨b, hb, -⟩ := Memory.exists_of_lens (s.commandInput_lens r).symm hbx
    obtain ⟨b', hmem, hlen, hread⟩ := served_buffer hv hk hb
    obtain rfl : errorAlone .outOfRange = p := Option.some.inj (by rw [← hp, ht]; rfl)
    refine ⟨rfl, rfl, hdef, fun hne => absurd rfl hne, fun _ => ⟨k, b, b', hk, hb, hmem, hlen, fun j hj => ?_⟩⟩
    refine hread j fun hc => hj ?_
    obtain ⟨hge, -, hlt⟩ := (claimed_iff hd (.inl hop) hk hb j).mp hc
    exact ⟨hge, hlt⟩

end

/-! ### The obligations -/

/-- Settles O6: an illegal word claims no byte, so the step is the error alone. -/
theorem illegalWordHasNoOtherEffect : Obligations.IllegalWordHasNoOtherEffect := by
  intro s r rest hrun hpend hlegal
  obtain ⟨e, hd⟩ := decode_error_iff.mpr hlegal
  exact ⟨_, (step_command hrun hpend).trans (serveCommand_illegal hd _), rfl, rfl, rfl, rfl, rfl, hrun, rfl, rfl⟩

/-- Settles O9. -/
theorem idleStepChangesNothing : Obligations.IdleStepChangesNothing :=
  fun _ => step_idle

/-- Settles O10: draws keep the lengths of the buffers, and the checks read nothing else of them. -/
theorem statusFollowsTheOrderOfChecks : Obligations.StatusFollowsTheOrderOfChecks := by
  intro s r rest hrun hpend
  obtain ⟨v, hv, hserve⟩ := serveCommand_noEvents r { s with pending := rest }
  obtain ⟨p, hp, hstatus⟩ := (runCommand_checked hv).status
  refine ⟨_, p, (step_command hrun hpend).trans hserve, (State.drawSpans_response ..).trans hp, hstatus.trans ?_⟩
  exact expectedStatus_congr (State.commandInput_lens ..) r

/-- Settles O11: the step serves the command. -/
theorem errorReturnsNothingAndWritesNothing : Obligations.ErrorReturnsNothingAndWritesNothing := by
  intro s t r rest p hrun hpend h hp herr
  exact serveCommand_error (s := { s with pending := rest }) ((step_command hrun hpend).symm.trans h) hp herr

/-- Settles O26: the draws are the one piece that an OutOfRange writes. -/
theorem outOfRangeEncLeavesDraws : Obligations.OutOfRangeEncLeavesDraws := by
  intro s r k b x hr hk hb p hp hlt
  obtain ⟨hn, -⟩ := of_mem_encAll hp
  rw [← hn] at hlt
  refine ⟨_, ?_, Buffer.writePieces_len .., Buffer.read_drawnToEnd b r.offset.toNat s.draws⟩
  rw [exec_enc_outOfRange (op_of_mem_encAll hp) hr hk hb hlt, State.raiseOutOfRange_eq hb]
  rfl

/-- Settles O27: presence is the first check of a legal ENC or DEC; ENCA and EXPT make none. -/
theorem absentBufferRaisesInvalidArgument : Obligations.AbsentBufferRaisesInvalidArgument := by
  refine ⟨fun s r x hr hk p hp => ?_, fun s t i q hop h hq => ?_⟩
  · exact exec_absent ((List.mem_append.mp hp).imp op_of_mem_encAll op_of_mem_decAll) hr (by rw [hk]; rfl)
  · obtain ⟨q', hq', hfits⟩ := exec_response_fits h
    obtain rfl : q' = q := Option.some.inj (hq'.symm.trans hq)
    rw [hfits.status_ok (by rcases hop with hop | hop <;> simp [hop])]
    decide

/-- Settles O37: OFFSET at or past the end fails the second check of a DEC and the range check of an ENC. -/
theorem decPastTheEndRaisesInvalidState : Obligations.DecPastTheEndRaisesInvalidState := by
  refine ⟨fun s r k b x hr hk hb h0 hle p hp => ?_, fun s t i q hop h hq => ?_, fun s r k b x hr hk hb hle p hp => ?_⟩
  · exact exec_dec_pastEnd (op_of_mem_decAll hp) hr hk hb h0 hle
  · obtain ⟨q', hq', hfits⟩ := exec_response_fits h
    obtain rfl : q' = q := Option.some.inj (hq'.symm.trans hq)
    exact hfits.status_ne_invalidState hop
  · have hpos := p.1.width.bytes_pos
    exact ⟨_, exec_enc_outOfRange (op_of_mem_encAll hp) hr hk hb (by omega), rfl⟩

/-- Settles O50: the eight codes and the five kinds. -/
theorem statusCodesOfTheResponse : Obligations.StatusCodesOfTheResponse := by
  refine ⟨rfl, rfl, rfl, rfl, rfl, rfl, rfl, rfl, fun e => ?_⟩
  cases e <;> decide

end Sys2Proof.Machine
end

section
/-! PROOFS. Reset, and what a command sequence comes to: a served command always answers, from the state before it but
for the response latches; a run of commands is one answer after the other; a reset in the middle of a command
(70_reset_and_hazards.md R148 to R160): O7, O13, O15, O16, O17, O58. -/

namespace Sys2Proof.Machine

open Sys2Proof.Claims

/-! ### What happens beside a command -/

section
variable {r : Request} {during : List AgentEvent} {s u : State}

/-- Events about accesses to existing bytes are never refused beside a command either. -/
theorem whileInProgress_answers (r : Request) (h : beginInBuffers during s.mem) :
    ∃ u, whileInProgress r during s = .next u :=
  agentEvents_answers (s := s.meet (s.claims r)) _ h

theorem whileInProgress_seq (h : whileInProgress r during s = .next u) : u.seq = s.seq := by
  obtain ⟨-, -, hseq, -⟩ := agentEvents_keeps h
  exact hseq

theorem whileInProgress_lens (h : whileInProgress r during s = .next u) :
    u.mem.map Buffer.len = s.mem.map Buffer.len := by
  obtain ⟨-, -, -, -, -, -, hlens, -⟩ := agentEvents_keeps h
  exact hlens

/-- The end of an access that is not in flight is about nothing (log entry 14). -/
theorem agentEvent_ends_none {own : List Claim} {n : Nat} (ho : s.oldestOf n = none) (cut : Bool) :
    agentEvent own (endEvent cut n) s = .next s := by
  cases cut <;> simp [agentEvent, endEvent, ho]

theorem agentEvent_draws_le {own : List Claim} {e : AgentEvent} (h : agentEvent own e s = .next u) :
    s.draws ≤ u.draws := by
  have hend (cut : Bool) (n : Nat) (h : agentEvent own (endEvent cut n) s = .next u) : s.draws ≤ u.draws := by
    cases ho : s.oldestOf n with
    | none =>
      rw [agentEvent_ends_none ho] at h
      cases h
      exact Nat.le_refl _
    | some x =>
      rw [agentEvent_ends ho] at h
      cases h
      exact s.endAccess_draws_le cut x
  cases e with
  | begins n a =>
    by_cases hex : a.exists s.mem = true
    · rw [agentEvent_begins hex] at h
      cases h
      exact Nat.le_refl _
    · simp [agentEvent, hex] at h
  | returns n => exact hend false n h
  | isCut n => exact hend true n h

theorem agentEvents_draws_le {own : List Claim} {es : List AgentEvent} (h : agentEvents own es s = .next u) :
    s.draws ≤ u.draws := by
  induction es generalizing s with
  | nil => cases h; exact Nat.le_refl _
  | cons e es ih =>
    obtain ⟨t, ht, hu⟩ := andThen_eq_next.mp h
    exact (agentEvent_draws_le ht).trans (ih hu)

theorem whileInProgress_draws_le (h : whileInProgress r during s = .next u) : s.draws ≤ u.draws :=
  agentEvents_draws_le (s := s.meet (s.claims r)) h

end

/-! ### Every accepted command completes -/

/-- A command beside accesses to existing bytes is answered (70_reset_and_hazards.md R159). -/
theorem serveCommand_answers {r : Request} {during : List AgentEvent} {s : State} (h : beginInBuffers during s.mem) :
    ∃ t p, serveCommand r during s = .next t ∧ t.phase = s.phase ∧ t.response = some p ∧ t.seq = s.seq + 1 := by
  obtain ⟨u, hu⟩ := whileInProgress_answers r h
  obtain ⟨v, hv⟩ := runCommand_next r (u.drawSpans (s.commandRaces (s.claims r) during))
  obtain ⟨-, -, hseq, p, hp⟩ := runCommand_keeps hv
  obtain ⟨hphase, -⟩ := runCommand_answers hv
  obtain ⟨huphase, -⟩ := whileInProgress_keeps hu
  refine ⟨v.drawSpans (s.commandRaces (s.claims r) during), p,
    andThen_eq_next.mpr ⟨u, hu, andThen_eq_next.mpr ⟨v, hv, rfl⟩⟩, ?_, ?_, ?_⟩
  · simpa [huphase] using hphase
  · simpa using hp
  · simpa [whileInProgress_seq hu] using hseq

/-- Settles O7: the step serves the command, which answers. -/
theorem everyAcceptedCommandCompletes : Obligations.EveryAcceptedCommandCompletes := by
  intro s r during rest hrun hpend hin
  obtain ⟨t, p, ht, hphase, hp, hseq⟩ :=
    serveCommand_answers (r := r) (during := during) (s := { s with pending := rest }) hin
  have hstep : step s = .next t := (step_command hrun hpend).trans ht
  exact ⟨t, p, hstep, hphase.trans hrun, hp, hseq, inputsAreServedInIssueOrder s t _ rest hrun hpend hstep⟩

/-! ### A command does not read the response latches -/

theorem andThen_assoc (o : Outcome) (f g : State → Outcome) :
    andThen (andThen o f) g = andThen o (fun t => andThen (f t) g) := by
  cases o <;> rfl

/-- The state with other response latches. -/
def State.withResponse (q : Option Response) (s : State) : State :=
  { s with response := q }

/-- The same outcome, with other response latches. -/
def answerWith (q : Option Response) (o : Outcome) : Outcome :=
  andThen o fun t => .next (t.withResponse q)

section
variable (q : Option Response) (s : State)

theorem sameStore_withResponse : SameStore (s.withResponse q) s :=
  ⟨rfl, rfl⟩

theorem State.drawSpans_withResponse (ps : List Span) :
    (s.withResponse q).drawSpans ps = (s.drawSpans ps).withResponse q := by
  have hstore : SameStore ((s.withResponse q).drawSpans ps) ((s.drawSpans ps).withResponse q) :=
    ((sameStore_withResponse q s).drawSpans ps).trans ⟨rfl, rfl⟩
  refine State.eq_of_fields ?_ ?_ ?_ ?_ ?_ ?_ ?_ hstore <;> simp [State.withResponse]

theorem State.endAccess_withResponse (cut : Bool) (e : InFlight) :
    (s.withResponse q).endAccess cut e = (s.endAccess cut e).withResponse q := by
  have hstore : SameStore ((s.withResponse q).endAccess cut e) ((s.endAccess cut e).withResponse q) :=
    ((sameStore_withResponse q s).endAccess cut e).trans ⟨rfl, rfl⟩
  refine State.eq_of_fields ?_ ?_ ?_ ?_ ?_ ?_ ?_ hstore <;> simp [State.withResponse]

theorem agentEvent_withResponse (own : List Claim) (e : AgentEvent) :
    agentEvent own e (s.withResponse q) = answerWith q (agentEvent own e s) := by
  have hend (cut : Bool) (n : Nat) :
      agentEvent own (endEvent cut n) (s.withResponse q) = answerWith q (agentEvent own (endEvent cut n) s) := by
    cases ho : s.oldestOf n with
    | none =>
      rw [agentEvent_ends_none ho, agentEvent_ends_none (s := s.withResponse q) ho]
      rfl
    | some x =>
      rw [agentEvent_ends ho, agentEvent_ends (s := s.withResponse q) (e := x) ho, State.endAccess_withResponse]
      rfl
  cases e with
  | begins n a =>
    have hexq : a.exists (s.withResponse q).mem = a.exists s.mem := rfl
    by_cases hex : a.exists s.mem = true
    · rw [agentEvent_begins hex, agentEvent_begins (hexq.trans hex)]
      rfl
    · simp [agentEvent, hex, hexq, answerWith, andThen]
  | returns n => exact hend false n
  | isCut n => exact hend true n

theorem agentEvents_withResponse (own : List Claim) (es : List AgentEvent) :
    agentEvents own es (s.withResponse q) = answerWith q (agentEvents own es s) := by
  induction es generalizing s with
  | nil => rfl
  | cons e es ih =>
    calc
      agentEvents own (e :: es) (s.withResponse q)
        = andThen (answerWith q (agentEvent own e s)) (agentEvents own es) := by
          rw [agentEvents, agentEvent_withResponse]
      _ = andThen (agentEvent own e s) (fun t => agentEvents own es (t.withResponse q)) := andThen_assoc ..
      _ = andThen (agentEvent own e s) (fun t => answerWith q (agentEvents own es t)) := by simp only [ih]
      _ = answerWith q (agentEvents own (e :: es) s) := (andThen_assoc ..).symm

/-- The response latches are overwritten before anything could read them (70_reset_and_hazards.md R157). -/
theorem runCommand_withResponse (r : Request) : runCommand r (s.withResponse q) = runCommand r s := rfl

theorem serveCommand_withResponse (r : Request) (during : List AgentEvent) :
    serveCommand r during (s.withResponse q) = serveCommand r during s := by
  have hevents : whileInProgress r during (s.withResponse q) = answerWith q (whileInProgress r during s) :=
    agentEvents_withResponse q (s.meet (s.claims r)) (s.claims r) during
  have hraces : (s.withResponse q).commandRaces ((s.withResponse q).claims r) during =
      s.commandRaces (s.claims r) during := rfl
  simp only [serveCommand, hraces, hevents, answerWith, andThen_assoc, andThen_next, State.drawSpans_withResponse,
    runCommand_withResponse]

end

/-- What a step makes of a command does not depend on the response before it. -/
theorem step_command_withResponse {s : State} {r : Request} {during : List AgentEvent} {rest : List HostInput}
    (hrun : s.phase = .running) (hpend : s.pending = .command r during :: rest) (q : Option Response) :
    step (s.withResponse q) = step s := by
  rw [step_command hrun hpend, step_command (s := s.withResponse q) hrun hpend]
  exact serveCommand_withResponse q { s with pending := rest } r during

/-! ### A run of commands -/

theorem putResponsesFirst_nil (o : RunOutcome) : putResponsesFirst [] o = o := by
  rcases o with ⟨t, ps⟩ | e | x <;> rfl

/-- A run that starts while a reset is being applied is the run after it (70_reset_and_hazards.md R151). -/
theorem State.runToEnd_resetting {s : State} (h : s.phase = .resetting) (hpos : 0 < stepsToLastResponse s.pending) :
    s.runToEnd = s.finishReset.runToEnd := by
  have hlen : s.runLength = stepsToLastResponse s.pending + 1 := by simp [State.runLength, h, hpos]
  have hlen' : s.finishReset.runLength = stepsToLastResponse s.pending := rfl
  have hreturned : s.returned s.finishReset = [] := by simp [State.returned, h]
  unfold State.runToEnd
  rw [hlen, hlen', runSteps_succ _ (step_resetting h), hreturned, putResponsesFirst_nil]

/-- The step on a command with no access of another agent about. -/
theorem step_command_noneInFlight {s : State} {r : Request} {rest : List HostInput} (hrun : s.phase = .running)
    (hnone : s.inFlight = []) (hpend : s.pending = .command r [] :: rest) :
    ∃ t p, step s = .next t ∧ t.phase = .running ∧ t.inFlight = [] ∧ t.pending = rest ∧ t.response = some p := by
  have halone : runsAlone s r := by simp [runsAlone, hnone]
  obtain ⟨t, ht⟩ := runCommand_next r { s with pending := rest }
  obtain ⟨hpend', hflight, -, p, hp⟩ := runCommand_keeps ht
  obtain ⟨hphase, -⟩ := runCommand_answers ht
  exact ⟨t, p, (step_alone hrun hpend halone).trans ht, hphase.trans hrun, hflight.trans hnone, hpend', hp⟩

/-- The responses `ps` are those that `n` steps from `s` answer, each with the one the latches hold when it is given. -/
def Answers (s : State) (ps : List Response) (n : Nat) : Prop :=
  ps.length = n ∧ ∀ j < n, ∃ u p, steps (j + 1) s = .next u ∧ u.response = some p ∧ ps[j]? = some p

theorem Answers.nil (s : State) : Answers s [] 0 :=
  ⟨rfl, fun _ hj => absurd hj (Nat.not_lt_zero _)⟩

theorem Answers.cons {s t : State} {p : Response} {ps : List Response} {n : Nat} (hstep : step s = .next t)
    (hp : t.response = some p) (h : Answers t ps n) : Answers s (p :: ps) (n + 1) := by
  obtain ⟨hlen, hall⟩ := h
  refine ⟨congrArg (· + 1) hlen, fun j hj => ?_⟩
  cases j with
  | zero => exact ⟨t, p, steps_cons hstep, hp, rfl⟩
  | succ j =>
    obtain ⟨u, p', hu, hresp, hget⟩ := hall j (Nat.lt_of_succ_lt_succ hj)
    exact ⟨u, p', (steps_cons hstep).trans hu, hresp, hget⟩

/-- The last response is the one the latches hold at the end. -/
theorem Answers.getLast? {s t : State} {ps : List Response} {n : Nat} (h : Answers s ps n)
    (hsteps : steps n s = .next t) (hn : 0 < n) : ps.getLast? = t.response := by
  obtain ⟨rfl, hall⟩ := h
  obtain ⟨u, p, hu, hp, hget⟩ := hall (ps.length - 1) (Nat.sub_lt hn Nat.one_pos)
  rw [Nat.sub_add_cancel hn] at hu
  cases hu.symm.trans hsteps
  rw [List.getLast?_eq_getElem?, hget, hp]

theorem runSteps_commands {rs : List Request} {s : State} (hrun : s.phase = .running) (hnone : s.inFlight = [])
    (hpend : s.pending = rs.map (fun r => .command r [])) :
    ∃ t ps, runSteps rs.length s = .next (t, ps) ∧ t.pending = [] ∧ Answers s ps rs.length := by
  induction rs generalizing s with
  | nil => exact ⟨s, [], rfl, hpend, .nil s⟩
  | cons r rs ih =>
    obtain ⟨t, p, hstep, hrun', hnone', hpend', hp⟩ := step_command_noneInFlight hrun hnone hpend
    obtain ⟨u, ps, hsteps, hend, hanswers⟩ := ih hrun' hnone' hpend'
    refine ⟨u, p :: ps, ?_, hend, hanswers.cons hstep hp⟩
    rw [List.length_cons, runSteps_succ _ hstep, State.returned_command hrun hpend, hp, hsteps]
    rfl

/-- Settles O13: the response latches are not read; a run goes command by command; a reset ends before the run. -/
theorem responseReplacesTheOneBeforeAndARunKeepsEach :
    Obligations.ResponseReplacesTheOneBeforeAndARunKeepsEach := by
  refine ⟨fun s r during rest p q hrun hpend => ?_, fun s rs hrun hnone hpend => ?_, fun s rs hres hpend hne => ?_⟩
  · exact (step_command_withResponse hrun hpend p).trans (step_command_withResponse hrun hpend q).symm
  · obtain ⟨t, ps, hsteps, hend, hanswers⟩ := runSteps_commands hrun hnone hpend
    have hlen : s.runLength = rs.length := by simp [State.runLength, hrun, hpend, stepsToLastResponse_commands]
    have hrunToEnd : s.runToEnd = .next { defaultLE := t.defaultLE, mem := t.mem, responses := ps } := by
      simp only [State.runToEnd, hlen, hsteps]
    have hsteps' := steps_of_runSteps hsteps
    have ⟨hcount, hall⟩ := hanswers
    exact ⟨_, t, hrunToEnd, hsteps', hend, rfl, rfl, hcount,
      fun hne => hanswers.getLast? hsteps' (List.length_pos_iff.mpr hne), hall⟩
  · have hpos : 0 < stepsToLastResponse s.pending := by
      rw [hpend, stepsToLastResponse_commands]
      exact List.length_pos_iff.mpr hne
    exact State.runToEnd_resetting hres hpos

/-! ### A reset in the middle of a command -/

/-- Drawing the part of a range of n bytes that a buffer has. -/
theorem State.drawSpan_clipped {s : State} {k start n : Nat} {b : Buffer} (hb : s.mem[k]? = some b) :
    ∃ b', (s.drawSpan { buf := k, start := start, len := min (start + n) b.len - start }).mem = s.mem.set k b' ∧
      b'.len = b.len ∧
      ∀ j, b'.read j =
        if start ≤ j ∧ j < start + n ∧ j < b.len then Config.freeByte (s.draws + (j - start)) else b.read j := by
  unfold State.drawSpan
  simp only [hb]
  refine ⟨_, rfl, Buffer.writeBytes_len .., fun j => ?_⟩
  rw [Buffer.read_writeBytes, drawBytes_length]
  refine if_ctx_congr ⟨fun hj => by omega, fun hj => by omega⟩ (fun hj => ?_) fun _ => rfl
  exact drawBytes_getD (by omega) s.draws

/-- Only an ENC or DEC has a span (30_encoding.md R57). -/
theorem ownClaim_of_noSpan {m : Memory} {r : Request} (h : ∀ i, decode r.cmd = .ok i → i.op ≠ .enc ∧ i.op ≠ .dec) :
    ownClaim m r = none := by
  refine Option.eq_none_iff_forall_ne_some.mpr fun p hp => ?_
  obtain ⟨i, hd, hop, -⟩ := ownClaim_cases hp
  obtain ⟨henc, hdec⟩ := h i hd
  exact hop.elim henc hdec

theorem ownClaim_of_absent {m : Memory} {r : Request} (h : m.caller r.buf = none) : ownClaim m r = none := by
  refine Option.eq_none_iff_forall_ne_some.mpr fun p hp => ?_
  obtain ⟨i, k, b, -, -, hk, hb, -⟩ := ownClaim_inv hp
  cases h.symm.trans (Memory.caller_eq_some.mpr ⟨hk, hb⟩)

/-- The spans that a reset draws when it cuts off the request `r`: none or one. -/
abbrev State.cutSpans (s : State) (r : Request) : List Span :=
  (s.claims r).map Claim.span

/-- A cut command that claims nothing changes no byte. -/
theorem cutCommand_mem_of_noClaim {r : Request} {s u : State} (h : whileInProgress r [] s = .next u)
    (hnone : ownClaim s.mem r = none) : (u.drawSpans (s.cutSpans r)).mem = s.mem := by
  cases h
  rw [State.cutSpans, State.claims, hnone]
  rfl

/-- The buffer of a cut ENC or DEC: draws in its span, numbered on from what happened meanwhile, and beside it what
happened meanwhile (70_reset_and_hazards.md R152). -/
theorem cutCommand_buffer {r : Request} {during : List AgentEvent} {s u : State} {i : Instr} {k : Nat} {b : Buffer}
    (h : whileInProgress r during s = .next u) (hd : decode r.cmd = .ok i) (hop : i.op = .enc ∨ i.op = .dec)
    (hk : r.buf = some k) (hb : s.mem[k]? = some b) :
    ∃ b₁ b', u.mem[k]? = some b₁ ∧ (u.drawSpans (s.cutSpans r)).mem = u.mem.set k b' ∧ b'.len = b.len ∧
      ∀ j, b'.read j =
        if r.offset.toNat ≤ j ∧ j < r.offset.toNat + i.width.bytes ∧ j < b.len then
          Config.freeByte (u.draws + (j - r.offset.toNat))
        else b₁.read j := by
  obtain ⟨b₁, hb₁, hlen⟩ := Memory.exists_of_lens (whileInProgress_lens h) hb
  obtain ⟨b', hmem, hlen', hread⟩ :=
    State.drawSpan_clipped (start := r.offset.toNat) (n := i.width.bytes) hb₁
  rw [hlen] at hmem hlen' hread
  refine ⟨b₁, b', hb₁, ?_, hlen', hread⟩
  rw [State.cutSpans, State.claims, ownClaim_eq hd hop hk hb]
  exact hmem

/-- Settles O17: what happens meanwhile, then the draws of the span, then the reset. -/
theorem cutCommandLeavesOnlyDraws : Obligations.CutCommandLeavesOnlyDraws := by
  intro s r during rest hrun hpend hin
  obtain ⟨u, hu⟩ := whileInProgress_answers (s := { s with pending := rest }) r hin
  have hstep : step s = .next (u.drawSpans (s.cutSpans r)).applyReset :=
    (step_serves hrun hpend).trans (andThen_eq_next.mpr ⟨u, hu, rfl⟩)
  refine ⟨_, hstep, rfl, rfl, rfl, rfl, inputsAreServedInIssueOrder s _ _ rest hrun hpend hstep, ?_, ?_, ?_⟩
  · rintro rfl hop
    exact cutCommand_mem_of_noClaim (s := { s with pending := rest }) hu (ownClaim_of_noSpan hop)
  · rintro rfl habsent
    exact cutCommand_mem_of_noClaim (s := { s with pending := rest }) hu (ownClaim_of_absent habsent)
  · intro i k b hd hop hk hb
    obtain ⟨b₁, b', hb₁, hmem, hlen, hread⟩ := cutCommand_buffer hu hd hop hk hb
    refine ⟨b', ?_, hlen, fun j hge hlt hj => ?_, ?_⟩
    · exact (congrArg (·[k]?) hmem).trans (Memory.getElem?_set_of_some hb₁ b')
    · have hdraws : s.draws ≤ u.draws := whileInProgress_draws_le (s := { s with pending := rest }) hu
      exact ⟨u.draws + (j - r.offset.toNat), by omega, by rw [hread, if_pos ⟨hge, hlt, hj⟩]⟩
    · rintro rfl
      cases hu
      obtain rfl : b₁ = b := Option.some.inj (hb₁.symm.trans hb)
      exact ⟨hmem, hread⟩

/-! ### Reset and the host's buffers -/

/-- Settles O58: the buffer provided is the canonical one with these bytes. -/
theorem providedBufferHoldsItsBytes : Obligations.ProvidedBufferHoldsItsBytes := by
  intro s xs rest hrun hpend
  have hstep : step s = provideBuffer xs { s with pending := rest } := step_serves hrun hpend
  refine ⟨fun hlt => ?_, fun hle => hstep.trans (if_neg (Nat.not_lt.mpr hle))⟩
  exact ⟨Buffer.ofBytes xs, hstep.trans (if_pos hlt), Buffer.wf_ofBytes hlt, Buffer.ofBytes_len xs,
    Buffer.toBytes_ofBytes xs⟩

/-- Settles O15. -/
theorem commandsAreHeldUntilDefaultIsLoaded : Obligations.CommandsAreHeldUntilDefaultIsLoaded :=
  fun _ => step_resetting

/-- Settles O16. -/
theorem resetEmptiesTheLatches : Obligations.ResetEmptiesTheLatches :=
  fun _ _ => step_serves

end Sys2Proof.Machine
end
